-- ==== Sys2Proof/Word.lean ====
section
/-! DEFINITION. The bit-string types of the model (00_scope.md R9). -/

namespace Sys2Proof

/-- A byte of memory or of an instruction (R40). -/
abbrev Byte := BitVec 8

/-- A 64-bit word: a general register, an address, the program counter (R27, R28). -/
abbrev Word := BitVec 64

/-- One 64-bit lane of a vector operand (R22, R100). -/
abbrev Lane := BitVec 64

/-- A full vector register as the model stores it: 512 bits, the largest `MAXVL` (R20). -/
abbrev VReg := BitVec 512

end Sys2Proof
end

