-- ==== Sys2Proof/Config.lean ====
section
/-! DEFINITION. The configuration record `cfg` of 00_scope.md R7: what the spec leaves to the implementation.
It is plain data, held in State, read by the machine and written by no step. -/

namespace Sys2Proof

/-- `cfg.MAXVL` (R7): the width in bits of a full vector register. -/
inductive MaxVL where
  | w256
  | w512
  deriving DecidableEq, Repr

def MaxVL.bits : MaxVL → Nat
  | .w256 => 256
  | .w512 => 512

/-- `cfg.NVEC` (R7, R20): the number of vector registers in 64-bit mode. -/
inductive NVec where
  | n16
  | n32
  deriving DecidableEq, Repr

def NVec.count : NVec → Nat
  | .n16 => 16
  | .n32 => 32

/-- `cfg.KW` (R7, R23): the width in bits of an opmask register. -/
inductive KWidth where
  | w8
  | w16
  | w32
  | w64
  deriving DecidableEq, Repr

def KWidth.bits : KWidth → Nat
  | .w8 => 8
  | .w16 => 16
  | .w32 => 32
  | .w64 => 64

/-- `cfg.LinearBits` (R7, R51): the width of a canonical linear address. The spec leaves it OPEN. -/
inductive LinearBits where
  | b48
  | b57
  deriving DecidableEq, Repr

def LinearBits.bits : LinearBits → Nat
  | .b48 => 48
  | .b57 => 57

/-- The three inputs of one lane (R130): first factor `x`, second factor `y`, addend `z`. -/
inductive LaneRole where
  | factor1
  | factor2
  | addend
  deriving DecidableEq, Repr

/-- `cfg.NaNOrder` (R7, R106): a permutation of the three lane inputs, named by its order
(`xyz` is first factor, second factor, addend). -/
inductive NaNOrder where
  | xyz
  | xzy
  | yxz
  | yzx
  | zxy
  | zyx
  deriving DecidableEq, Repr

/-- The fault with which `cfg.Mem` answers a data read of a byte (R49, R52). -/
inductive Denial where
  /-- `#PF`: whether the page is present (P) and whether a reserved paging bit is set (RSVD) (R170) -/
  | pageFault (present reserved : Bool)
  /-- the platform answers `#GP(0)` (R49, R52) -/
  | generalProtection
  /-- the platform answers `#SS(0)` (R52) -/
  | stackFault
  deriving DecidableEq, Repr

/-- Reads that `cfg.Mem` denies: of the `size` bytes from the linear address `base`, at the privilege levels
of the set `levels` (bit `c` for `CPL` = `c`), by operands of `width` bytes, or of any width (R7, R52, R170;
log entry 16). -/
structure Region where
  base : Nat
  size : Nat
  levels : BitVec 4
  width : Option Nat
  denial : Denial
  deriving DecidableEq, Repr

/-- The configuration record (R7). The mapped bytes of `cfg.Mem` are State's `mem`, since they are
memory; its faults are `regions`, of which the first that denies a read counts; the 32-bit segment descriptors are State's `segs`. -/
structure Config where
  /-- the processor reports the `FMA` feature flag -/
  fma : Bool
  /-- the processor reports the `AVX512F` feature flag -/
  avx512f : Bool
  /-- the processor reports the `AVX512VL` feature flag -/
  avx512vl : Bool
  maxvl : MaxVL
  nvec : NVec
  kw : KWidth
  linearBits : LinearBits
  nanOrder : NaNOrder
  /-- does (infinity times zero) with a QNaN addend set the invalid flag (R107) -/
  invalidOnInfZeroQNaN : Bool
  /-- EVEX forms: are memory faults of masked-off lanes suppressed (R142) -/
  faultSuppression : Bool
  /-- can a misaligned operand raise `#AC` (R171) -/
  alignmentCheck : Bool
  regions : List Region
  deriving DecidableEq, Repr

/-- The defaults of R7 on a processor that does, or does not, report `AVX512F`: `MAXVL` and `NVEC` follow
that flag. `linearBits` has no default (OPEN): 48 is the model's DESIGN CHOICE, log entry 5. -/
def Config.defaultFor (avx512f : Bool) : Config where
  fma := true
  avx512f := avx512f
  avx512vl := true
  maxvl := if avx512f then .w512 else .w256
  nvec := if avx512f then .n32 else .n16
  kw := .w64
  linearBits := .b48
  nanOrder := .xyz
  invalidOnInfZeroQNaN := false
  faultSuppression := false
  alignmentCheck := false
  regions := []

/-- The defaults of R7, all three feature flags true. -/
def Config.default : Config := Config.defaultFor true

/-- The relation of R7's defaults: a processor with `AVX512F` has 512-bit registers and 32 of them. -/
def Config.consistent (c : Config) : Bool :=
  !c.avx512f || (c.maxvl == .w512 && c.nvec == .n32)

end Sys2Proof
end

