-- ==== Sys2Proof/Syntax.lean ====
section
/-! DEFINITION. Instructions as syntax: one constructor of `Instr` per row of spec/opcode_table.json
(30_encoding.md R86), carrying every field of its encoding that is not ignored (R88). -/

namespace Sys2Proof

/-- Segment registers named by override prefixes (30_encoding.md R61). -/
inductive SegReg where
  | es
  | cs
  | ss
  | ds
  | fs
  | gs
  deriving DecidableEq, Repr

/-- The legacy prefixes that leave an instruction of the group valid (R61). -/
inductive LegacyPrefix where
  | seg (r : SegReg)
  /-- the address-size prefix `67H` -/
  | addrSize
  deriving DecidableEq, Repr

/-- Rounding modes (40_lane_numerics.md R103), in the order of their codes 00, 01, 10, 11. -/
inductive RoundMode where
  | nearestEven
  | down
  | up
  | towardZero
  deriving DecidableEq, Repr

/-- The displacement that follows ModRM or SIB (R75, R78); a disp8 is kept as encoded, unscaled. -/
inductive Disp where
  | none
  | disp8 (d : BitVec 8)
  | disp32 (d : BitVec 32)
  deriving DecidableEq, Repr

/-- The memory operand's addressing form (R75, R76). -/
inductive MemAddr where
  /-- ModRM alone: base register `Bx ++ rm` and a displacement -/
  | base (b : BitVec 4) (d : Disp)
  /-- SIB with a base register; `index = 0100` is no index -/
  | sib (scale : BitVec 2) (index : BitVec 4) (base : BitVec 4) (d : Disp)
  /-- SIB with `base = 101` and `mod = 00`: no base register, a disp32 -/
  | sibNoBase (scale : BitVec 2) (index : BitVec 4) (d : BitVec 32)
  /-- `mod = 00`, `rm = 101`: RIP-relative in 64-bit mode, disp32 alone in a 32-bit mode (R77) -/
  | ripRel (d : BitVec 32)
  deriving DecidableEq, Repr

/-- Operand 3 of a VEX form (R65, R73). -/
inductive VexSrc where
  | reg (r : BitVec 4)
  | mem (a : MemAddr)
  deriving DecidableEq, Repr

/-- Operand 3 of an EVEX.128 or EVEX.256 form (R68, R70); `bcst` is `EVEX.b` of a memory form. -/
inductive EvexSrc where
  | reg (r : BitVec 5)
  | mem (a : MemAddr) (bcst : Bool)
  deriving DecidableEq, Repr

/-- Operand 3 of an EVEX.512 form: as `EvexSrc`, or a register with embedded rounding (R69, R70). -/
inductive EvexSrc512 where
  | reg (r : BitVec 5)
  | regRound (r : BitVec 5) (rc : RoundMode)
  | mem (a : MemAddr) (bcst : Bool)
  deriving DecidableEq, Repr

/-- The operands of a VEX form (R65, R83). -/
structure VexOps where
  pfx : List LegacyPrefix
  dest : BitVec 4
  src2 : BitVec 4
  src3 : VexSrc
  deriving DecidableEq, Repr

/-- The operands of an EVEX form (R68, R71, R83); `mask` is `EVEX.aaa`, `zeroing` is `EVEX.z`. -/
structure EvexOps (σ : Type) where
  pfx : List LegacyPrefix
  dest : BitVec 5
  src2 : BitVec 5
  mask : BitVec 3
  zeroing : Bool
  src3 : σ
  deriving DecidableEq, Repr

/-- The three mnemonics, by the digits that order the operands (R72, R130). -/
inductive Mnem where
  | f132
  | f213
  | f231
  deriving DecidableEq, Repr

/-- Vector lengths (R8, R69). -/
inductive VecLen where
  | v128
  | v256
  | v512
  deriving DecidableEq, Repr

/-- The fifteen forms (R86), in the order of the opcode table. -/
inductive Instr where
  | vfnmadd132pdVex128 (o : VexOps)
  | vfnmadd213pdVex128 (o : VexOps)
  | vfnmadd231pdVex128 (o : VexOps)
  | vfnmadd132pdVex256 (o : VexOps)
  | vfnmadd213pdVex256 (o : VexOps)
  | vfnmadd231pdVex256 (o : VexOps)
  | vfnmadd132pdEvex128 (o : EvexOps EvexSrc)
  | vfnmadd213pdEvex128 (o : EvexOps EvexSrc)
  | vfnmadd231pdEvex128 (o : EvexOps EvexSrc)
  | vfnmadd132pdEvex256 (o : EvexOps EvexSrc)
  | vfnmadd213pdEvex256 (o : EvexOps EvexSrc)
  | vfnmadd231pdEvex256 (o : EvexOps EvexSrc)
  | vfnmadd132pdEvex512 (o : EvexOps EvexSrc512)
  | vfnmadd213pdEvex512 (o : EvexOps EvexSrc512)
  | vfnmadd231pdEvex512 (o : EvexOps EvexSrc512)
  deriving DecidableEq, Repr

end Sys2Proof
end

