-- ==== Sys2Proof/Machine/Length.lean ====
section
/-! DEFINITION. The length in bytes of an instruction (30_encoding.md R85), and the low field of a register number. -/

namespace Sys2Proof

/-- The three low bits of a general-register number: the `rm` or `base` field (R75, R76). -/
def lowField (b : BitVec 4) : BitVec 3 := b.setWidth 3

/-- Displacement bytes (R75, R85). -/
def Disp.len : Disp → Nat
  | .none => 0
  | .disp8 _ => 1
  | .disp32 _ => 4

/-- SIB and displacement bytes that follow ModRM in a memory form (R75, R76, R85). -/
def MemAddr.len : MemAddr → Nat
  | .base _ d => d.len
  | .sib _ _ _ d => 1 + d.len
  | .sibNoBase _ _ _ => 5
  | .ripRel _ => 4

def VexSrc.len : VexSrc → Nat
  | .reg _ => 0
  | .mem a => a.len

def EvexSrc.len : EvexSrc → Nat
  | .reg _ => 0
  | .mem a _ => a.len

def EvexSrc512.len : EvexSrc512 → Nat
  | .reg _ => 0
  | .regRound _ _ => 0
  | .mem a _ => a.len

/-- Legacy prefixes + 3 (VEX) + opcode + ModRM + what follows (R85). -/
def VexOps.len (o : VexOps) : Nat := o.pfx.length + 5 + o.src3.len

/-- Legacy prefixes + 4 (EVEX) + opcode + ModRM + what follows (R85). -/
def EvexOps.lenWith {σ : Type} (srcLen : σ → Nat) (o : EvexOps σ) : Nat :=
  o.pfx.length + 6 + srcLen o.src3

/-- `len` of R85. -/
def Instr.len : Instr → Nat
  | .vfnmadd132pdVex128 o => o.len
  | .vfnmadd213pdVex128 o => o.len
  | .vfnmadd231pdVex128 o => o.len
  | .vfnmadd132pdVex256 o => o.len
  | .vfnmadd213pdVex256 o => o.len
  | .vfnmadd231pdVex256 o => o.len
  | .vfnmadd132pdEvex128 o => o.lenWith EvexSrc.len
  | .vfnmadd213pdEvex128 o => o.lenWith EvexSrc.len
  | .vfnmadd231pdEvex128 o => o.lenWith EvexSrc.len
  | .vfnmadd132pdEvex256 o => o.lenWith EvexSrc.len
  | .vfnmadd213pdEvex256 o => o.lenWith EvexSrc.len
  | .vfnmadd231pdEvex256 o => o.lenWith EvexSrc.len
  | .vfnmadd132pdEvex512 o => o.lenWith EvexSrc512.len
  | .vfnmadd213pdEvex512 o => o.lenWith EvexSrc512.len
  | .vfnmadd231pdEvex512 o => o.lenWith EvexSrc512.len

end Sys2Proof
end

