-- ==== Sys2Proof/WellFormed.lean ====
section
/-! DEFINITION. Which terms of `Instr` are instructions: those with an encoding (30_encoding.md R71, R75, R76, R85). -/

namespace Sys2Proof

/-- A base form avoids `rm = 100` (SIB) and, without displacement, `rm = 101` (RIP-relative);
a SIB form without displacement avoids `base = 101` (no base register) (R75, R76). -/
def MemAddr.wellFormed : MemAddr → Bool
  | .base b d => lowField b != 4#3 && (lowField b != 5#3 || d != .none)
  | .sib _ _ b d => lowField b != 5#3 || d != .none
  | .sibNoBase _ _ _ => true
  | .ripRel _ => true

def VexSrc.wellFormed : VexSrc → Bool
  | .reg _ => true
  | .mem a => a.wellFormed

def EvexSrc.wellFormed : EvexSrc → Bool
  | .reg _ => true
  | .mem a _ => a.wellFormed

def EvexSrc512.wellFormed : EvexSrc512 → Bool
  | .reg _ => true
  | .regRound _ _ => true
  | .mem a _ => a.wellFormed

/-- At most 15 bytes (R85), and operand 3 encodable. -/
def VexOps.wellFormed (o : VexOps) : Bool := decide (o.len ≤ 15) && o.src3.wellFormed

/-- As for VEX, and no zeroing without a write mask (R71). -/
def EvexOps.wellFormedWith {σ : Type} (srcLen : σ → Nat) (srcWf : σ → Bool) (o : EvexOps σ) : Bool :=
  decide (o.lenWith srcLen ≤ 15) && srcWf o.src3 && (!o.zeroing || o.mask != 0#3)

/-- The term has an encoding that decodes to a form (R84, step 7). -/
def Instr.wellFormed : Instr → Bool
  | .vfnmadd132pdVex128 o => o.wellFormed
  | .vfnmadd213pdVex128 o => o.wellFormed
  | .vfnmadd231pdVex128 o => o.wellFormed
  | .vfnmadd132pdVex256 o => o.wellFormed
  | .vfnmadd213pdVex256 o => o.wellFormed
  | .vfnmadd231pdVex256 o => o.wellFormed
  | .vfnmadd132pdEvex128 o => o.wellFormedWith EvexSrc.len EvexSrc.wellFormed
  | .vfnmadd213pdEvex128 o => o.wellFormedWith EvexSrc.len EvexSrc.wellFormed
  | .vfnmadd231pdEvex128 o => o.wellFormedWith EvexSrc.len EvexSrc.wellFormed
  | .vfnmadd132pdEvex256 o => o.wellFormedWith EvexSrc.len EvexSrc.wellFormed
  | .vfnmadd213pdEvex256 o => o.wellFormedWith EvexSrc.len EvexSrc.wellFormed
  | .vfnmadd231pdEvex256 o => o.wellFormedWith EvexSrc.len EvexSrc.wellFormed
  | .vfnmadd132pdEvex512 o => o.wellFormedWith EvexSrc512.len EvexSrc512.wellFormed
  | .vfnmadd213pdEvex512 o => o.wellFormedWith EvexSrc512.len EvexSrc512.wellFormed
  | .vfnmadd231pdEvex512 o => o.wellFormedWith EvexSrc512.len EvexSrc512.wellFormed

end Sys2Proof
end

