-- ==== Sys2Proof/Decode.lean ====
section
/-! DEFINITION. Decoding in 64-bit mode (30_encoding.md R60 to R85, the procedure of R84) and, after it,
the encoder, both written from the encoding tables R62, R66, R73 to R79. -/

namespace Sys2Proof

/-! ## Codes -/

/-- Rounding modes by their 2-bit code, the same for `MXCSR.RC` and `EVEX.RC` (R70, R103). -/
def RoundMode.ofCode (c : BitVec 2) : RoundMode :=
  if c = 0#2 then .nearestEven else if c = 1#2 then .down else if c = 2#2 then .up else .towardZero

def RoundMode.code : RoundMode → BitVec 2
  | .nearestEven => 0#2
  | .down => 1#2
  | .up => 2#2
  | .towardZero => 3#2

/-- The opcode byte of each mnemonic (R72). -/
def Mnem.opcode : Mnem → Byte
  | .f132 => 0x9C#8
  | .f213 => 0xAC#8
  | .f231 => 0xBC#8

def mnemOfOpcode (b : Byte) : Option Mnem :=
  if b = 0x9C#8 then some .f132 else if b = 0xAC#8 then some .f213
  else if b = 0xBC#8 then some .f231 else none

/-- The legacy prefixes that leave the instruction valid (R61). -/
def legacyPrefixOf (b : Byte) : Option LegacyPrefix :=
  if b = 0x26#8 then some (.seg .es) else if b = 0x2E#8 then some (.seg .cs)
  else if b = 0x36#8 then some (.seg .ss) else if b = 0x3E#8 then some (.seg .ds)
  else if b = 0x64#8 then some (.seg .fs) else if b = 0x65#8 then some (.seg .gs)
  else if b = 0x67#8 then some .addrSize else none

def LegacyPrefix.byte : LegacyPrefix → Byte
  | .seg .es => 0x26#8
  | .seg .cs => 0x2E#8
  | .seg .ss => 0x36#8
  | .seg .ds => 0x3E#8
  | .seg .fs => 0x64#8
  | .seg .gs => 0x65#8
  | .addrSize => 0x67#8

/-- The prefixes that make a VEX or EVEX instruction `#UD`: `66H`, `F2H`, `F3H`, `F0H` and REX
(`40H` to `4FH`) (R61, R166 (d)). -/
def isForbiddenPrefix (b : Byte) : Bool :=
  b == 0x66#8 || b == 0xF2#8 || b == 0xF3#8 || b == 0xF0#8 || b.extractLsb' 4 4 == 4#4

/-! ## Decoding -/

/-- The outcome of R84: a form with the bytes after it, `#UD`, `#GP(0)`, or bytes that are not of
this group. -/
inductive Verdict where
  | form (i : Instr) (rest : List Byte)
  | ud
  | gp
  | notThisGroup
  deriving DecidableEq, Repr

/-- A disp32: four bytes, little-endian (R78). -/
def takeDisp32 : List Byte → Option (BitVec 32 × List Byte)
  | b0 :: b1 :: b2 :: b3 :: rest => some (b3 ++ b2 ++ b1 ++ b0, rest)
  | _ => none

/-- The displacement that `mod` (not 11) announces (R75). -/
def takeDisp (mod : BitVec 2) (bs : List Byte) : Option (Disp × List Byte) :=
  if mod = 0#2 then some (.none, bs)
  else if mod = 1#2 then
    match bs with
    | b :: rest => some (.disp8 b, rest)
    | [] => none
  else (takeDisp32 bs).map fun (d, rest) => (.disp32 d, rest)

/-- The memory operand (R75 to R77): SIB and displacement after ModRM. `bx` and `xx` are the
extension bits `Bx` and `Xx`, not inverted. -/
def takeMem (mod : BitVec 2) (rm : BitVec 3) (bx xx : BitVec 1) (bs : List Byte) :
    Option (MemAddr × List Byte) :=
  if rm = 4#3 then
    match bs with
    | [] => none
    | sib :: bs =>
      let scale := sib.extractLsb' 6 2
      let index := xx ++ sib.extractLsb' 3 3
      let base := sib.extractLsb' 0 3
      if base = 5#3 ∧ mod = 0#2 then
        (takeDisp32 bs).map fun (d, rest) => (.sibNoBase scale index d, rest)
      else
        (takeDisp mod bs).map fun (d, rest) => (.sib scale index (bx ++ base) d, rest)
  else if rm = 5#3 ∧ mod = 0#2 then
    (takeDisp32 bs).map fun (d, rest) => (.ripRel d, rest)
  else
    (takeDisp mod bs).map fun (d, rest) => (.base (bx ++ rm) d, rest)

/-- The VEX row that a mnemonic and `VEX.L` select (R63, R86). -/
def vexInstr (m : Mnem) (l : BitVec 1) (o : VexOps) : Instr :=
  match m with
  | .f132 => if l = 0#1 then .vfnmadd132pdVex128 o else .vfnmadd132pdVex256 o
  | .f213 => if l = 0#1 then .vfnmadd213pdVex128 o else .vfnmadd213pdVex256 o
  | .f231 => if l = 0#1 then .vfnmadd231pdVex128 o else .vfnmadd231pdVex256 o

/-- The 128- and 256-bit EVEX rows (R86). -/
def evexInstr128 (m : Mnem) (o : EvexOps EvexSrc) : Instr :=
  match m with
  | .f132 => .vfnmadd132pdEvex128 o
  | .f213 => .vfnmadd213pdEvex128 o
  | .f231 => .vfnmadd231pdEvex128 o

def evexInstr256 (m : Mnem) (o : EvexOps EvexSrc) : Instr :=
  match m with
  | .f132 => .vfnmadd132pdEvex256 o
  | .f213 => .vfnmadd213pdEvex256 o
  | .f231 => .vfnmadd231pdEvex256 o

/-- The 512-bit EVEX rows (R86). -/
def evexInstr512 (m : Mnem) (o : EvexOps EvexSrc512) : Instr :=
  match m with
  | .f132 => .vfnmadd132pdEvex512 o
  | .f213 => .vfnmadd213pdEvex512 o
  | .f231 => .vfnmadd231pdEvex512 o

/-- A decoded form, or `#GP(0)` when it is longer than 15 bytes (R84 step 4, R85). -/
def formOrGp (i : Instr) (rest : List Byte) : Verdict :=
  if 15 < i.len then .gp else .form i rest

/-- R84 steps 2 to 4 after `C4H`: `b1`, `b2`, opcode, ModRM and the memory operand. -/
def decodeVex (pfx : List LegacyPrefix) : List Byte → Verdict
  | b1 :: b2 :: rest =>
    if b1.extractLsb' 0 5 ≠ 2#5 ∨ b2.extractLsb' 7 1 ≠ 1#1 ∨ b2.extractLsb' 0 2 ≠ 1#2 then .notThisGroup
    else
      match rest with
      | op :: modrm :: rest =>
        match mnemOfOpcode op with
        | none => .notThisGroup
        | some m =>
          let mod := modrm.extractLsb' 6 2
          let rm := modrm.extractLsb' 0 3
          let bx := ~~~ b1.extractLsb' 5 1
          let xx := ~~~ b1.extractLsb' 6 1
          let dest := (~~~ b1.extractLsb' 7 1) ++ modrm.extractLsb' 3 3
          let src2 := ~~~ b2.extractLsb' 3 4
          let l := b2.extractLsb' 2 1
          if mod = 3#2 then
            formOrGp (vexInstr m l ⟨pfx, dest, src2, .reg (bx ++ rm)⟩) rest
          else
            match takeMem mod rm bx xx rest with
            | none => .notThisGroup
            | some (a, rest) => formOrGp (vexInstr m l ⟨pfx, dest, src2, .mem a⟩) rest
      | _ => .notThisGroup
  | _ => .notThisGroup

/-- R84 step 5 for a form whose `L'L` is a length (R69): the row, or `#UD` for `L'L` = 11. -/
def evexByLength (m : Mnem) (ll : BitVec 2) (o : EvexOps EvexSrc) (o512 : EvexOps EvexSrc512)
    (rest : List Byte) : Verdict :=
  if ll = 0#2 then .form (evexInstr128 m o) rest
  else if ll = 1#2 then .form (evexInstr256 m o) rest
  else if ll = 2#2 then .form (evexInstr512 m o512) rest
  else .ud

/-- R84 steps 3 to 5 for an EVEX form, from the three payload bytes, the mnemonic and ModRM on. -/
def decodeEvexBody (pfx : List LegacyPrefix) (p0 p1 p2 : Byte) (m : Mnem) (modrm : Byte)
    (rest : List Byte) : Verdict :=
  let mod := modrm.extractLsb' 6 2
  let rm := modrm.extractLsb' 0 3
  let bx := ~~~ p0.extractLsb' 5 1
  let xx := ~~~ p0.extractLsb' 6 1
  let dest := (~~~ p0.extractLsb' 4 1) ++ (~~~ p0.extractLsb' 7 1) ++ modrm.extractLsb' 3 3
  let src2 := (~~~ p2.extractLsb' 3 1) ++ (~~~ p1.extractLsb' 3 4)
  let aaa := p2.extractLsb' 0 3
  let z := p2.getLsbD 7
  let b := p2.getLsbD 4
  let ll := p2.extractLsb' 5 2
  if mod = 3#2 then
    let r := xx ++ bx ++ rm
    if 15 < pfx.length + 6 then .gp
    else if z = true ∧ aaa = 0#3 then .ud
    else if b then .form (evexInstr512 m ⟨pfx, dest, src2, aaa, z, .regRound r (.ofCode ll)⟩) rest
    else evexByLength m ll ⟨pfx, dest, src2, aaa, z, .reg r⟩ ⟨pfx, dest, src2, aaa, z, .reg r⟩ rest
  else
    match takeMem mod rm bx xx rest with
    | none => .notThisGroup
    | some (a, rest) =>
      if 15 < pfx.length + 6 + a.len then .gp
      else if z = true ∧ aaa = 0#3 then .ud
      else evexByLength m ll ⟨pfx, dest, src2, aaa, z, .mem a b⟩ ⟨pfx, dest, src2, aaa, z, .mem a b⟩ rest

/-- R84 steps 2 and 3 after `62H`: the reserved bits first (`#UD`), then map, `W`, `pp`, opcode. -/
def decodeEvex (pfx : List LegacyPrefix) : List Byte → Verdict
  | p0 :: p1 :: p2 :: rest =>
    if p0.extractLsb' 2 2 ≠ 0#2 ∨ p1.extractLsb' 2 1 ≠ 1#1 then .ud
    else if p0.extractLsb' 0 2 ≠ 2#2 ∨ p1.extractLsb' 7 1 ≠ 1#1 ∨ p1.extractLsb' 0 2 ≠ 1#2 then .notThisGroup
    else
      match rest with
      | op :: modrm :: rest =>
        match mnemOfOpcode op with
        | none => .notThisGroup
        | some m => decodeEvexBody pfx p0 p1 p2 m modrm rest
      | _ => .notThisGroup
  | _ => .notThisGroup

/-- R84 step 1: legacy prefixes are consumed in order; a forbidden one is remembered in `bad` and
makes a following `C4H` or `62H` `#UD`. -/
def decodePrefixes (pfx : List LegacyPrefix) (bad : Bool) : List Byte → Verdict
  | [] => .notThisGroup
  | b :: rest =>
    match legacyPrefixOf b with
    | some p => decodePrefixes (pfx ++ [p]) bad rest
    | none =>
      if isForbiddenPrefix b then decodePrefixes pfx true rest
      else if b = 0xC4#8 then (if bad then .ud else decodeVex pfx rest)
      else if b = 0x62#8 then (if bad then .ud else decodeEvex pfx rest)
      else .notThisGroup

/-- The decoder of R84, on the bytes at `pc`. Bytes that end inside an instruction are
`NotThisGroup` (R199, log entry 24). -/
def decode (bs : List Byte) : Verdict := decodePrefixes [] false bs

/-! ## Encoding -/

/-- The bytes of a 32-bit displacement, lowest first (R78). -/
def bytesOf32 (d : BitVec 32) : List Byte :=
  [d.extractLsb' 0 8, d.extractLsb' 8 8, d.extractLsb' 16 8, d.extractLsb' 24 8]

/-- The `mod` that announces a displacement after a base register (R75). -/
def Disp.mod : Disp → BitVec 2
  | .none => 0#2
  | .disp8 _ => 1#2
  | .disp32 _ => 2#2

def Disp.bytes : Disp → List Byte
  | .none => []
  | .disp8 d => [d]
  | .disp32 d => bytesOf32 d

/-- Bit 3 of a 4-bit register number: what an extension bit holds, not inverted (R65, R75). -/
def extBit (r : BitVec 4) : BitVec 1 := r.extractLsb' 3 1

/-- ModRM `mod` of a memory operand (R75, R76). -/
def MemAddr.mod : MemAddr → BitVec 2
  | .base _ d => d.mod
  | .sib _ _ _ d => d.mod
  | .sibNoBase _ _ _ => 0#2
  | .ripRel _ => 0#2

/-- ModRM `rm` of a memory operand (R75, R76). -/
def MemAddr.rm : MemAddr → BitVec 3
  | .base b _ => lowField b
  | .sib _ _ _ _ => 4#3
  | .sibNoBase _ _ _ => 4#3
  | .ripRel _ => 5#3

/-- `Bx`; 0 (an inverted 1) where the bit is ignored (R88). -/
def MemAddr.bx : MemAddr → BitVec 1
  | .base b _ => extBit b
  | .sib _ _ b _ => extBit b
  | .sibNoBase _ _ _ => 0#1
  | .ripRel _ => 0#1

/-- `Xx`; 0 (an inverted 1) where the bit is ignored (R88). -/
def MemAddr.xx : MemAddr → BitVec 1
  | .base _ _ => 0#1
  | .sib _ i _ _ => extBit i
  | .sibNoBase _ i _ => extBit i
  | .ripRel _ => 0#1

/-- SIB and displacement bytes (R75, R76). -/
def MemAddr.tail : MemAddr → List Byte
  | .base _ d => d.bytes
  | .sib s i b d => (s ++ lowField i ++ lowField b) :: d.bytes
  | .sibNoBase s i d => (s ++ lowField i ++ 5#3) :: bytesOf32 d
  | .ripRel d => bytesOf32 d

/-- A VEX form: prefixes, `C4`, two payload bytes (R62, R63), opcode, ModRM, SIB, displacement. -/
def encodeVex (m : Mnem) (l : BitVec 1) (o : VexOps) : List Byte :=
  let (mod, rm, bx, xx, tail) :=
    match o.src3 with
    | .reg r => (3#2, lowField r, extBit r, 0#1, [])
    | .mem a => (a.mod, a.rm, a.bx, a.xx, a.tail)
  o.pfx.map LegacyPrefix.byte ++
    [0xC4#8, (~~~ extBit o.dest) ++ (~~~ xx) ++ (~~~ bx) ++ 2#5, 1#1 ++ (~~~ o.src2) ++ l ++ 1#2,
      m.opcode, mod ++ lowField o.dest ++ rm] ++ tail

/-- What operand 3 of an EVEX form contributes to its encoding (R66 to R70). -/
structure EvexRm where
  mod : BitVec 2
  rm : BitVec 3
  bx : BitVec 1
  xx : BitVec 1
  b : BitVec 1
  ll : BitVec 2
  tail : List Byte
  deriving DecidableEq, Repr

/-- A register operand 3: `X̄` carries bit 4 and `B̄` bit 3 of its number (R68). -/
def evexRegRm (r : BitVec 5) (b : BitVec 1) (ll : BitVec 2) : EvexRm :=
  ⟨3#2, r.extractLsb' 0 3, r.extractLsb' 3 1, r.extractLsb' 4 1, b, ll, []⟩

def evexMemRm (a : MemAddr) (bcst : Bool) (ll : BitVec 2) : EvexRm :=
  ⟨a.mod, a.rm, a.bx, a.xx, BitVec.ofBool bcst, ll, a.tail⟩

def EvexSrc.toRm (ll : BitVec 2) : EvexSrc → EvexRm
  | .reg r => evexRegRm r 0#1 ll
  | .mem a bcst => evexMemRm a bcst ll

def EvexSrc512.toRm : EvexSrc512 → EvexRm
  | .reg r => evexRegRm r 0#1 2#2
  | .regRound r rc => evexRegRm r 1#1 rc.code
  | .mem a bcst => evexMemRm a bcst 2#2

/-- An EVEX form: prefixes, `62`, three payload bytes (R66, R67), opcode, ModRM, SIB, displacement. -/
def encodeEvex {σ : Type} (m : Mnem) (o : EvexOps σ) (e : EvexRm) : List Byte :=
  o.pfx.map LegacyPrefix.byte ++
    [0x62#8,
      (~~~ o.dest.extractLsb' 3 1) ++ (~~~ e.xx) ++ (~~~ e.bx) ++ (~~~ o.dest.extractLsb' 4 1) ++ 2#4,
      1#1 ++ (~~~ o.src2.extractLsb' 0 4) ++ 5#3,
      BitVec.ofBool o.zeroing ++ e.ll ++ e.b ++ (~~~ o.src2.extractLsb' 4 1) ++ o.mask,
      m.opcode, e.mod ++ o.dest.extractLsb' 0 3 ++ e.rm] ++ e.tail

/-- The bytes of a well-formed instruction, ignored bits set to 1 (R60, R88). -/
def encode : Instr → List Byte
  | .vfnmadd132pdVex128 o => encodeVex .f132 0#1 o
  | .vfnmadd213pdVex128 o => encodeVex .f213 0#1 o
  | .vfnmadd231pdVex128 o => encodeVex .f231 0#1 o
  | .vfnmadd132pdVex256 o => encodeVex .f132 1#1 o
  | .vfnmadd213pdVex256 o => encodeVex .f213 1#1 o
  | .vfnmadd231pdVex256 o => encodeVex .f231 1#1 o
  | .vfnmadd132pdEvex128 o => encodeEvex .f132 o (o.src3.toRm 0#2)
  | .vfnmadd213pdEvex128 o => encodeEvex .f213 o (o.src3.toRm 0#2)
  | .vfnmadd231pdEvex128 o => encodeEvex .f231 o (o.src3.toRm 0#2)
  | .vfnmadd132pdEvex256 o => encodeEvex .f132 o (o.src3.toRm 1#2)
  | .vfnmadd213pdEvex256 o => encodeEvex .f213 o (o.src3.toRm 1#2)
  | .vfnmadd231pdEvex256 o => encodeEvex .f231 o (o.src3.toRm 1#2)
  | .vfnmadd132pdEvex512 o => encodeEvex .f132 o o.src3.toRm
  | .vfnmadd213pdEvex512 o => encodeEvex .f213 o o.src3.toRm
  | .vfnmadd231pdEvex512 o => encodeEvex .f231 o o.src3.toRm

/-! ## Words of the opcode table -/

/-- The first `n` bytes of an instruction whose bit 0 is the least significant bit of its first
byte; bits from `nbits` up are 0. -/
def tableBytesLow (nbits w n : Nat) : List Byte :=
  (List.range n).map fun j => BitVec.ofNat 8 ((w % 2 ^ nbits) >>> (8 * j))

/-- The same with the first byte most significant, as `match` and `mask` of spec/opcode_table.json
write it (R91). -/
def tableBytesHigh (nbits w n : Nat) : List Byte :=
  (tableBytesLow nbits w (nbits / 8)).reverse ++ List.replicate (n - nbits / 8) 0#8

def Verdict.instr? : Verdict → Option Instr
  | .form i _ => some i
  | .ud => none
  | .gp => none
  | .notThisGroup => none

/-- The 15 bytes of a table word. The first byte is the least significant one; a word that is no
form in that order is read with its first byte most significant (log entry 10). -/
def tableBytes (nbits w : Nat) : List Byte :=
  if (decode (tableBytesLow nbits w 15)).instr?.isSome then tableBytesLow nbits w 15
  else if (decode (tableBytesHigh nbits w 15)).instr?.isSome then tableBytesHigh nbits w 15
  else tableBytesLow nbits w 15

/-- The instruction the decoder reads from a word of the opcode table. -/
def decodeTableWord (nbits w : Nat) : Option Instr := (decode (tableBytes nbits w)).instr?

end Sys2Proof
end

