-- ==== Sys2Proof/Machine/Flags.lean ====
section
/-! DEFINITION. The SIMD floating-point flags and masks and the fields of `MXCSR` (10_state.md R25, R26). -/

namespace Sys2Proof.Machine

/-- A set of the five flags a form can set (R25, R160); `ZE` is never touched. -/
structure Flags where
  ie : Bool
  de : Bool
  oe : Bool
  ue : Bool
  pe : Bool
  deriving DecidableEq, Repr

/-- The five exception masks (R25): `true` is masked. -/
structure Masks where
  im : Bool
  dm : Bool
  om : Bool
  um : Bool
  pm : Bool
  deriving DecidableEq, Repr

def Flags.none : Flags := ⟨false, false, false, false, false⟩

def Flags.union (a b : Flags) : Flags :=
  ⟨a.ie || b.ie, a.de || b.de, a.oe || b.oe, a.ue || b.ue, a.pe || b.pe⟩

/-- The union over lanes (R161). -/
def Flags.unionAll : List Flags → Flags
  | [] => .none
  | f :: fs => f.union (Flags.unionAll fs)

/-- `Fpre` of R162: the flags that depend on the operands alone. -/
def Flags.pre (f : Flags) : Flags := ⟨f.ie, f.de, false, false, false⟩

/-- `Fpost` of R162: the flags that depend on the result. -/
def Flags.post (f : Flags) : Flags := ⟨false, false, f.oe, f.ue, f.pe⟩

/-- Some flag of the set is unmasked (R162). -/
def Flags.unmasked (f : Flags) (m : Masks) : Bool :=
  (f.ie && !m.im) || (f.de && !m.dm) || (f.oe && !m.om) || (f.ue && !m.um) || (f.pe && !m.pm)

/-- The flags at their places in `MXCSR`: IE 0, DE 1, OE 3, UE 4, PE 5 (R25). -/
def Flags.bits (f : Flags) : BitVec 32 :=
  (if f.ie then 0x1#32 else 0#32) ||| (if f.de then 0x2#32 else 0#32) ||| (if f.oe then 0x8#32 else 0#32) |||
    (if f.ue then 0x10#32 else 0#32) ||| (if f.pe then 0x20#32 else 0#32)

/-- All masked: what embedded rounding computes with (R155). -/
def Masks.all : Masks := ⟨true, true, true, true, true⟩

/-- `MXCSR.RC`, bits 14:13 (R25, R103). -/
def mxcsrRC (m : BitVec 32) : RoundMode := .ofCode (m.extractLsb' 13 2)

/-- `MXCSR.DAZ`, bit 6 (R25). -/
def mxcsrDAZ (m : BitVec 32) : Bool := m.getLsbD 6

/-- `MXCSR.FTZ`, bit 15 (R25). -/
def mxcsrFTZ (m : BitVec 32) : Bool := m.getLsbD 15

/-- IM 7, DM 8, OM 10, UM 11, PM 12 (R25). -/
def mxcsrMasks (m : BitVec 32) : Masks :=
  ⟨m.getLsbD 7, m.getLsbD 8, m.getLsbD 10, m.getLsbD 11, m.getLsbD 12⟩

end Sys2Proof.Machine
end

