-- ==== Sys2Proof/Machine/Numerics.lean ====
section
/-! DEFINITION. The one-lane operation FNMADD64 (40_lane_numerics.md R100 to R116). Finite values are exact
integers: an operand counts units of 2^-1074, the exact result `r` counts units of 2^-2148. -/

namespace Sys2Proof.Machine

/-! ## The format (R100 to R102) -/

def fpSign (v : Lane) : Bool := v.getLsbD 63

def fpExp (v : Lane) : Nat := (v.extractLsb' 52 11).toNat

def fpFrac (v : Lane) : Nat := (v.extractLsb' 0 52).toNat

/-- The classes of R101. -/
inductive FpClass where
  | zero
  | denormal
  | normal
  | infinity
  | snan
  | qnan
  deriving DecidableEq, Repr

def fpClass (v : Lane) : FpClass :=
  if fpExp v = 0 then (if fpFrac v = 0 then .zero else .denormal)
  else if fpExp v < 2047 then .normal
  else if fpFrac v = 0 then .infinity
  else if v.getLsbD 51 then .qnan
  else .snan

def isZero (v : Lane) : Bool := fpClass v == .zero
def isDenormal (v : Lane) : Bool := fpClass v == .denormal
def isInf (v : Lane) : Bool := fpClass v == .infinity
def isSNaN (v : Lane) : Bool := fpClass v == .snan
def isQNaN (v : Lane) : Bool := fpClass v == .qnan
def isNaN (v : Lane) : Bool := isSNaN v || isQNaN v

/-- `quiet(v)` of R101. -/
def quiet (v : Lane) : Lane := v ||| 0x0008000000000000#64

/-- The QNaN indefinite of R101. -/
def qnanIndefinite : Lane := 0xFFF8000000000000#64

/-- A string from its sign, biased exponent and fraction (R100). -/
def fpPack (neg : Bool) (e f : Nat) : Lane :=
  BitVec.ofBool neg ++ BitVec.ofNat 11 e ++ BitVec.ofNat 52 f

def fpZero (neg : Bool) : Lane := fpPack neg 0 0
def fpInf (neg : Bool) : Lane := fpPack neg 2047 0

/-- The largest finite magnitude, `MAXF` (R101). -/
def fpMax (neg : Bool) : Lane := fpPack neg 2046 (2 ^ 52 - 1)

/-- The magnitude of a zero, denormal or normal string in units of 2^-1074 (R101, R102). -/
def fpMag (v : Lane) : Nat :=
  if fpExp v = 0 then fpFrac v else (2 ^ 52 + fpFrac v) * 2 ^ (fpExp v - 1)

/-- `val(v)` of R102 in units of 2^-1074. -/
def fpVal (v : Lane) : Int := if fpSign v then -(fpMag v : Int) else (fpMag v : Int)

/-! ## Rounding (R103, R111 to R114) -/

/-- Whether the magnitude `q + rem/den` with sign `neg` rounds up in magnitude to `q + 1` (R103). -/
def roundsUp (rc : RoundMode) (neg : Bool) (q rem den : Nat) : Bool :=
  match rc with
  | .nearestEven => decide (den < 2 * rem) || (decide (2 * rem = den) && decide (q % 2 = 1))
  | .down => neg && decide (rem ≠ 0)
  | .up => !neg && decide (rem ≠ 0)
  | .towardZero => false

/-- `Round_rc(num / den)`, an integer, for a value of sign `neg` (R111). -/
def roundDiv (rc : RoundMode) (neg : Bool) (num den : Nat) : Nat :=
  if roundsUp rc neg (num / den) (num % den) den then num / den + 1 else num / den

/-- The first rounding of R111, with unbounded exponent: `(m, E, inexact)` with
`2^52 ≤ m < 2^53` and `R = m * 2^(E-52)`, for `|r|` of `a` units of 2^-2148. -/
def roundUnbounded (rc : RoundMode) (neg : Bool) (a : Nat) : Nat × Int × Bool :=
  let l := Nat.log2 a
  let m := if 52 ≤ l then roundDiv rc neg a (2 ^ (l - 52)) else a * 2 ^ (52 - l)
  let inexact := decide (52 ≤ l) && decide (a % 2 ^ (l - 52) ≠ 0)
  if m = 2 ^ 53 then (2 ^ 52, (l : Int) - 2148 + 1, inexact) else (m, (l : Int) - 2148, inexact)

/-- A lane's outcome: its value, absent where the lane has no result (R112, R113), and its flags. -/
structure LaneOut where
  value : Option Lane
  flags : Flags
  deriving DecidableEq, Repr

/-- The masked overflow result of R112. -/
def overflowResult (rc : RoundMode) (neg : Bool) : Lane :=
  match rc with
  | .nearestEven => fpInf neg
  | .down => if neg then fpInf true else fpMax false
  | .up => if neg then fpMax true else fpInf false
  | .towardZero => fpMax neg

/-- Overflow (R112); `de` is the denormal-operand flag of R109. -/
def overflowOut (rc : RoundMode) (neg inexact de : Bool) (m : Masks) : LaneOut :=
  if m.om then ⟨some (overflowResult rc neg), ⟨false, de, true, false, true⟩⟩
  else ⟨none, ⟨false, de, true, false, inexact⟩⟩

/-- A tiny result (R113, R114), for `|r|` of `a` units of 2^-2148. -/
def tinyOut (rc : RoundMode) (neg : Bool) (a : Nat) (inexact de ftz : Bool) (m : Masks) : LaneOut :=
  if !m.um then ⟨none, ⟨false, de, false, true, inexact⟩⟩
  else if ftz then ⟨some (fpZero neg), ⟨false, de, false, true, true⟩⟩
  else
    let lost := decide (a % 2 ^ 1074 ≠ 0)
    ⟨some (fpPack neg 0 0 ||| BitVec.ofNat 64 (roundDiv rc neg a (2 ^ 1074))), ⟨false, de, false, lost, lost⟩⟩

/-- Rounding of a nonzero `r` of sign `neg` and magnitude `a` units of 2^-2148 (R111). -/
def roundOut (rc : RoundMode) (neg : Bool) (a : Nat) (de ftz : Bool) (m : Masks) : LaneOut :=
  let (sig, e, inexact) := roundUnbounded rc neg a
  if 1024 ≤ e then overflowOut rc neg inexact de m
  else if e < -1022 then tinyOut rc neg a inexact de ftz m
  else ⟨some (fpPack neg (e + 1023).toNat (sig - 2 ^ 52)), ⟨false, de, false, false, inexact⟩⟩

/-! ## The function (R104) -/

/-- DAZ replacement (R105). -/
def dazReplace (daz : Bool) (v : Lane) : Lane :=
  if daz && isDenormal v then fpZero (fpSign v) else v

/-- The sign of the negated product (R107). -/
def productSign (x y : Lane) : Bool := !(fpSign x ^^ fpSign y)

/-- The product is infinity times zero (R107 (a)). -/
def infTimesZero (x y : Lane) : Bool := (isInf x && isZero y) || (isZero x && isInf y)

/-- The sum is infinity minus infinity (R107 (b)). -/
def infMinusInf (x y z : Lane) : Bool :=
  (isInf x || isInf y) && isInf z && (fpSign z != productSign x y)

/-- The order in which the lane inputs are searched for the NaN that supplies the result (R106). -/
def nanRoles : NaNOrder → List LaneRole
  | .xyz => [.factor1, .factor2, .addend]
  | .xzy => [.factor1, .addend, .factor2]
  | .yxz => [.factor2, .factor1, .addend]
  | .yzx => [.factor2, .addend, .factor1]
  | .zxy => [.addend, .factor1, .factor2]
  | .zyx => [.addend, .factor2, .factor1]

/-- The lane input in a role (R130). -/
def laneInput (x y z : Lane) : LaneRole → Lane
  | .factor1 => x
  | .factor2 => y
  | .addend => z

/-- The NaN that supplies the result: the first among the inputs in the order `cfg.NaNOrder` (R106). -/
def firstNaN (order : NaNOrder) (x y z : Lane) : Option Lane :=
  ((nanRoles order).map (laneInput x y z)).find? isNaN

/-- NaN operands (R106, R107): `IE` for an SNaN, or, where the configuration says so, for
infinity times zero with a QNaN addend. -/
def nanOut (cfg : Config) (x y z n : Lane) : LaneOut :=
  ⟨some (quiet n),
    ⟨isSNaN x || isSNaN y || isSNaN z || (cfg.invalidOnInfZeroQNaN && infTimesZero x y && isQNaN z),
      false, false, false, false⟩⟩

/-- `r = -(val(x) * val(y)) + val(z)`, exact, in units of 2^-2148 (R104 step 6). -/
def exactResult (x y z : Lane) : Int := -(fpVal x * fpVal y) + fpVal z * 2 ^ 1074

/-- The zero of an exact zero result (R110). -/
def exactZero (rc : RoundMode) (x y z : Lane) : Lane :=
  if (isZero x || isZero y) && (productSign x y == fpSign z) then fpZero (fpSign z)
  else fpZero (rc == .down)

/-- R104 after DAZ replacement. -/
def fnmaddCore (cfg : Config) (x y z : Lane) (rc : RoundMode) (ftz : Bool) (m : Masks) : LaneOut :=
  match firstNaN cfg.nanOrder x y z with
  | some n => nanOut cfg x y z n
  | none =>
    if infTimesZero x y || infMinusInf x y z then
      ⟨some qnanIndefinite, ⟨true, false, false, false, false⟩⟩
    else
      let de := isDenormal x || isDenormal y || isDenormal z
      if isInf x || isInf y then ⟨some (fpInf (productSign x y)), ⟨false, de, false, false, false⟩⟩
      else if isInf z then ⟨some z, ⟨false, de, false, false, false⟩⟩
      else if exactResult x y z = 0 then ⟨some (exactZero rc x y z), ⟨false, de, false, false, false⟩⟩
      else roundOut rc (decide (exactResult x y z < 0)) (exactResult x y z).natAbs de ftz m

/-- `FNMADD64(x, y, z, rc, daz, ftz, masks)` (R104). -/
def fnmadd64 (cfg : Config) (x y z : Lane) (rc : RoundMode) (daz ftz : Bool) (m : Masks) : LaneOut :=
  fnmaddCore cfg (dazReplace daz x) (dazReplace daz y) (dazReplace daz z) rc ftz m

end Sys2Proof.Machine
end

