-- ==== Sys2Proof/Machine/State.lean ====
section
/-! DEFINITION. The state of the machine (10_state.md), the reasons a step can stop (60_exceptions.md R163 to R175,
30_encoding.md R84), and the state after reset (10_state.md R35). -/

namespace Sys2Proof.Machine

/-- The processor modes of 10_state.md R32. R6 names 16-bit protected mode too, R32 and R166 (a) do not: that the model
has no such mode, and so no answer in it, is its DESIGN CHOICE, log entry 30. -/
inductive Mode where
  | real
  | v86
  | prot32
  | compat32
  | long64
  deriving DecidableEq, Repr

/-- A segment as a 32-bit mode uses it: base, limit, and whether it can be read (neither null nor
unreadable) (10_state.md R30, 20_memory.md R43, 60_exceptions.md R168, R169). -/
structure SegDesc where
  base : BitVec 32
  limit : BitVec 32
  readable : Bool
  deriving DecidableEq, Repr

/-- The six segments of a 32-bit mode (R30). -/
structure Segments where
  es : SegDesc
  cs : SegDesc
  ss : SegDesc
  ds : SegDesc
  fs : SegDesc
  gs : SegDesc
  deriving DecidableEq, Repr

/-- The machine state. Every field is plain data. -/
structure State where
  /-- `V[i]` (R20): `cfg.nvec` of the 32 exist; a register keeps `cfg.maxvl` bits, the rest are 0 -/
  v : Vector VReg 32
  /-- `K[i]` (R23): a register keeps `cfg.kw` bits, the rest are 0 -/
  k : Vector Word 8
  /-- `G[i]` (R27) -/
  g : Vector Word 16
  /-- `MXCSR` (R25) -/
  mxcsr : BitVec 32
  /-- RIP, or EIP zero-extended in a 32-bit mode (R28) -/
  pc : Word
  /-- the FS base of 64-bit mode (R30) -/
  fsBase : Word
  /-- the GS base of 64-bit mode (R30) -/
  gsBase : Word
  /-- the segments of the 32-bit modes (R30, R43) -/
  segs : Segments
  /-- the processor mode (R32) -/
  mode : Mode
  /-- `CR0` (R32): TS bit 3, AM bit 18 -/
  cr0 : Word
  /-- `CR4` (R32): OSXMMEXCPT bit 10, OSXSAVE bit 18 -/
  cr4 : Word
  /-- `XCR0` (R32): bits 1, 2, 5, 6, 7 -/
  xcr0 : Word
  /-- `EFLAGS.AC` (R32) -/
  eflagsAC : Bool
  /-- `CPL` (R32) -/
  cpl : BitVec 2
  /-- data memory: the mapped bytes by linear address, addresses strictly rising (20_memory.md R40, R50) -/
  mem : List Host.Cell
  /-- program text: the instruction bytes by address, addresses strictly rising (R40, R56, D30) -/
  text : List Host.Cell
  /-- the configuration (00_scope.md R7) -/
  cfg : Config
  deriving DecidableEq, Repr

/-- The exceptions a form can raise (60_exceptions.md R172). All are safe: the run stops where the
processor would deliver the exception. -/
inductive Exception where
  /-- `#UD`, vector 6. Raised by the decoder (R87) and by every form (R166; R163 with `CR4.OSXMMEXCPT = 0`). Safe. -/
  | ud
  /-- `#NM`, vector 7. Raised by every form when `CR0.TS = 1` (R167). Safe. -/
  | nm
  /-- `#SS(0)`, vector 12. Raised by memory forms whose segment is SS (R168), or answered by `cfg.Mem` (R52). Safe. -/
  | ss
  /-- `#GP(0)`, vector 13. Raised by memory forms (R169 (a)), by an instruction over 15 bytes (R169 (b)),
  or answered by `cfg.Mem` (R52). Safe. -/
  | gp
  /-- `#PF(code)`, vector 14, with the faulting linear address. Raised by memory forms (R170). Safe. -/
  | pf (code : BitVec 32) (addr : Word)
  /-- `#AC(0)`, vector 17. Raised by memory forms, only with `cfg.alignmentCheck` (R171). Safe. -/
  | ac
  /-- `#XM`, vector 19. Raised by every form without embedded rounding (R162, R163). Safe. -/
  | xm
  deriving DecidableEq, Repr

/-- The machine stops with a fault. -/
inductive Fault where
  /-- The outcome `Fault(E, info, state')` of R175. Raised by `raise` (Machine/Ops.lean) for every exception of
  R172; `after` is the state before the instruction but for the `MXCSR` flags of R162 (R174). Safe: the spec
  delivers no exception (R176, decision D10). -/
  | raised (e : Exception) (after : State)
  deriving DecidableEq, Repr

/-- The machine has no meaning for what it is asked to run. -/
inductive Refusal where
  /-- An instruction without a meaning in the model. Raised by a refused arm of `exec`; there is none. Safe. -/
  | notModelled (mnemonic : String)
  /-- The bytes at `pc` are not a form of the group (30_encoding.md R84, 70_reset_and_hazards.md R199).
  Raised by `step`. Safe. -/
  | notThisGroup (pc : Word)
  /-- The decoder is for 64-bit mode only (R81, decision D1). Raised by `step` in `Prot32` and `Compat32`. Safe. -/
  | decode32
  /-- 16-bit addressing: prefix `67H` in a 32-bit mode (R81, decision D28). Raised by a memory form. Safe. -/
  | addr16
  /-- A register number or vector length that does not exist in this mode and configuration (R20, R27, R81).
  Raised by every form. Safe. -/
  | noSuchRegister
  deriving DecidableEq, Repr

/-- The outcome of a step. -/
abbrev Out := Host.Outcome State Fault Refusal

/-- A flat segment: base 0, limit `FFFFFFFFH`, readable (the flat default of R7 and R52, log entry 4). -/
def SegDesc.flat : SegDesc := ⟨0#32, 0xFFFFFFFF#32, true⟩

/-- The machine right after reset: the table of 10_state.md R35 (log entries 1 to 6). -/
def State.reset : State where
  v := Vector.replicate 32 0#512
  k := Vector.replicate 8 0#64
  g := Vector.replicate 16 0#64
  mxcsr := 0x1F80#32
  pc := 0xFFF0#64
  fsBase := 0#64
  gsBase := 0#64
  segs := ⟨.flat, ⟨0xFFFF0000#32, 0xFFFFFFFF#32, true⟩, .flat, .flat, .flat, .flat⟩
  mode := .real
  cr0 := 0x60000010#64
  cr4 := 0#64
  xcr0 := 1#64
  eflagsAC := false
  cpl := 0#2
  mem := []
  text := []
  cfg := Config.default

end Sys2Proof.Machine
end

