-- ==== Sys2Proof/Machine/Ops.lean ====
section
/-! DEFINITION. The named operations over registers, memory and the program counter, and raising an exception
(10_state.md, 20_memory.md R40 to R52, 60_exceptions.md R168 to R175). -/

namespace Sys2Proof.Machine

/-! ## Modes and control bits (R32) -/

/-- `Prot32` or `Compat32`. -/
def State.is32 (s : State) : Bool :=
  match s.mode with
  | .real => false
  | .v86 => false
  | .prot32 => true
  | .compat32 => true
  | .long64 => false

/-- `Real` or `V86`: the modes of R166 (a). -/
def State.isLegacy (s : State) : Bool :=
  match s.mode with
  | .real => true
  | .v86 => true
  | .prot32 => false
  | .compat32 => false
  | .long64 => false

def State.ts (s : State) : Bool := s.cr0.getLsbD 3
def State.am (s : State) : Bool := s.cr0.getLsbD 18
def State.osxmmexcpt (s : State) : Bool := s.cr4.getLsbD 10
def State.osxsave (s : State) : Bool := s.cr4.getLsbD 18

/-- `XCR0` bits 1 and 2, SSE and AVX state (R32). -/
def State.xcrAvx (s : State) : Bool := s.xcr0.getLsbD 1 && s.xcr0.getLsbD 2

/-- `XCR0` bits 5, 6 and 7, opmask and ZMM state (R32). -/
def State.xcrZmm (s : State) : Bool := s.xcr0.getLsbD 5 && s.xcr0.getLsbD 6 && s.xcr0.getLsbD 7

/-! ## Registers -/

/-- The bits of a vector register that exist, `MAXVL-1:0` (R20, R22). -/
def fitMaxVL (w : MaxVL) (x : VReg) : VReg :=
  match w with
  | .w256 => (x.setWidth 256).setWidth 512
  | .w512 => x

/-- The bits of an opmask register that exist, `KW-1:0` (R23). -/
def fitKW (w : KWidth) (x : Word) : Word := (x.setWidth w.bits).setWidth 64

/-- `V[i]` (R20). -/
def State.readV (s : State) (i : BitVec 5) : VReg := fitMaxVL s.cfg.maxvl (s.v[i.toNat]'i.isLt)

/-- `V[i] <- x` (R20). -/
def State.writeV (s : State) (i : BitVec 5) (x : VReg) : State :=
  { s with v := s.v.set i.toNat (fitMaxVL s.cfg.maxvl x) i.isLt }

/-- `K[i]` (R23). -/
def State.readK (s : State) (i : BitVec 3) : Word := fitKW s.cfg.kw (s.k[i.toNat]'i.isLt)

/-- `G[i]` (R27). -/
def State.readG (s : State) (i : BitVec 4) : Word := s.g[i.toNat]'i.isLt

/-- `MXCSR[5:0] <- MXCSR[5:0] OR F` (R161). -/
def State.orMxcsr (s : State) (bits : BitVec 32) : State := { s with mxcsr := s.mxcsr ||| bits }

/-- An address modulo 2^64, or modulo 2^32 in a 32-bit mode (R28, R42). -/
def State.wrap (s : State) (a : Word) : Word := if s.is32 then (a.setWidth 32).setWidth 64 else a

/-- `pc + len` (R28). -/
def State.pcAfter (s : State) (len : Nat) : Word := s.wrap (s.pc + BitVec.ofNat 64 len)

/-- `pc <- pc + len` (R28). -/
def State.advance (s : State) (len : Nat) : State := { s with pc := s.pcAfter len }

/-- Lane `j` of a vector: bits `64*j+63 : 64*j` (R9). -/
def laneOf (x : VReg) (j : Nat) : Lane := x.extractLsb' (64 * j) 64

/-- The vector whose lane `j` is the `j`-th of the list, the lanes beyond it 0 (R22). -/
def packLanes : List Lane → VReg
  | [] => 0#512
  | l :: ls => l.setWidth 512 ||| (packLanes ls <<< 64)

/-! ## Memory -/

/-- A partial map from byte addresses to bytes (R40, R50), addresses strictly rising. -/
abbrev Memory := List Host.Cell

/-- The canonical form: addresses strictly rising, all below 2^64. An unlisted address has no value,
so no entry can equal it. -/
abbrev Memory.wf (m : Memory) : Prop :=
  List.Pairwise (fun c d => c.1 < d.1) m ∧ ∀ c ∈ m, c.1 < 2 ^ 64

/-- The byte at an address; none outside the map (R50). -/
def Memory.read : Memory → Nat → Option Byte
  | [], _ => none
  | c :: m, a => if c.1 = a then some c.2 else Memory.read m a

/-- Map an address to a byte, keeping the canonical form. No form writes memory (R41): the load of a
launch map uses it. -/
def Memory.write : Memory → Nat → Byte → Memory
  | [], a, b => [(a, b)]
  | c :: m, a, b =>
    if a < c.1 then (a, b) :: c :: m
    else if a = c.1 then (a, b) :: m
    else c :: Memory.write m a b

/-- Map consecutive addresses, modulo 2^64, to bytes. -/
def Memory.load (m : Memory) (a : Nat) : List Byte → Memory
  | [] => m
  | b :: bs => Memory.load (m.write (a % 2 ^ 64) b) (a + 1) bs

/-- The descriptor of a segment in a 32-bit mode (R30). -/
def Segments.get (g : Segments) : SegReg → SegDesc
  | .es => g.es
  | .cs => g.cs
  | .ss => g.ss
  | .ds => g.ds
  | .fs => g.fs
  | .gs => g.gs

/-- The base added to an effective address (R43). -/
def State.segBase (s : State) (seg : SegReg) : Word :=
  if s.is32 then (s.segs.get seg).base.setWidth 64
  else
    match seg with
    | .es => 0#64
    | .cs => 0#64
    | .ss => 0#64
    | .ds => 0#64
    | .fs => s.fsBase
    | .gs => s.gsBase

/-- The linear address of byte `j` of an operand at `ea` (R42, R43). -/
def State.linAddr (s : State) (seg : SegReg) (ea : Word) (j : Nat) : Word :=
  s.wrap (s.segBase seg + ea + BitVec.ofNat 64 j)

/-- Bits `63 : LinearBits-1` are all equal (R51). -/
def canonical (w : LinearBits) (a : Word) : Bool :=
  a.toNat >>> (w.bits - 1) == 0 || a.toNat >>> (w.bits - 1) == 2 ^ (65 - w.bits) - 1

/-- Byte `j` of an operand passes the check of its segment: canonical in 64-bit mode (R51), within the
limit of a readable segment in a 32-bit mode (R168, R169; log entry 21). -/
def State.segmentOk (s : State) (seg : SegReg) (ea : Word) (j : Nat) : Bool :=
  if s.is32 then
    (seg == .ss || (s.segs.get seg).readable) &&
      decide ((s.wrap (ea + BitVec.ofNat 64 j)).toNat ≤ (s.segs.get seg).limit.toNat)
  else canonical s.cfg.linearBits (s.linAddr seg ea j)

/-- `#SS(0)` for SS, `#GP(0)` otherwise (R168, R169). -/
def segmentFault (seg : SegReg) : Exception := if seg = .ss then .ss else .gp

/-- The region denies reading the byte at `a`, at privilege level `cpl`, to an operand of `n` bytes. -/
def Region.denies (r : Region) (cpl : BitVec 2) (n a : Nat) : Bool :=
  decide (r.base ≤ a) && decide (a < r.base + r.size) && r.levels.getLsbD cpl.toNat &&
    (r.width == none || r.width == some n)

/-- The fault with which `cfg.Mem` answers for the byte at a linear address, if any: the read is a data
read of `n` bytes at the current privilege level (R7, R52). -/
def State.denialAt (s : State) (n : Nat) (a : Word) : Option Denial :=
  (s.cfg.regions.find? fun r => Region.denies r s.cpl n a.toNat).map Region.denial

/-- The `#PF` error code of a data read: P bit 0, W/R bit 1 = 0, U/S bit 2, RSVD bit 3, I/D bit 4 = 0 (R170).
R170 names no other bit and no width: 32 bits with bits 31:5 = 0 is the model's DESIGN CHOICE, log entry 29. -/
def State.pfCode (s : State) (present reserved : Bool) : BitVec 32 :=
  (if present then 1#32 else 0#32) ||| (if s.cpl = 3#2 then 4#32 else 0#32) |||
    (if reserved then 8#32 else 0#32)

/-- `cfg.Mem` answers `#GP(0)` or `#SS(0)` for the byte (R49, R52). -/
def State.platformFault (s : State) (n : Nat) (a : Word) : Option Exception :=
  match s.denialAt n a with
  | some .generalProtection => some .gp
  | some .stackFault => some .ss
  | some (.pageFault _ _) => none
  | none => none

/-- A byte outside the map: `#PF` with P = 0 (R50, R170). -/
def State.unmappedFault (s : State) (a : Word) : Option Exception :=
  match Memory.read s.mem a.toNat with
  | none => some (.pf (s.pfCode false false) a)
  | some _ => none

/-- `cfg.Mem` answers `#PF` for the byte (R50, R52, R170). -/
def State.pageFault (s : State) (n : Nat) (a : Word) : Option Exception :=
  match s.denialAt n a with
  | some (.pageFault present reserved) => some (.pf (s.pfCode present reserved) a)
  | some .generalProtection => s.unmappedFault a
  | some .stackFault => s.unmappedFault a
  | none => s.unmappedFault a

/-- The lowest of the addresses at which `f` answers, with its answer (R170, decision D8). -/
def lowestFault (f : Word → Option Exception) : List Word → Option (Word × Exception)
  | [] => none
  | a :: as =>
    match f a with
    | none => lowestFault f as
    | some e =>
      match lowestFault f as with
      | none => some (a, e)
      | some (b, e') => if b.toNat < a.toNat then some (b, e') else some (a, e)

/-- `#AC(0)` applies to an operand of `n` bytes (R171). -/
def State.misaligned (s : State) (seg : SegReg) (ea : Word) (n : Nat) : Bool :=
  s.cfg.alignmentCheck && s.am && s.eflagsAC && s.cpl == 3#2 && (s.linAddr seg ea 0).toNat % n != 0

/-- The checks of an operand of `n` bytes, of which those with `need` are accessed, in the order of
R173 (7 to 9): segment or canonical, platform, page (lowest address first), alignment (log entry 17). -/
def State.memFault (s : State) (seg : SegReg) (ea : Word) (n : Nat) (need : Nat → Bool) : Option Exception :=
  let used := (List.range n).filter need
  if used.any fun j => !s.segmentOk seg ea j then some (segmentFault seg)
  else
    match lowestFault (s.platformFault n) (used.map (s.linAddr seg ea)) with
    | some (_, e) => some e
    | none =>
      match lowestFault (s.pageFault n) (used.map (s.linAddr seg ea)) with
      | some (_, e) => some e
      | none => if s.misaligned seg ea n then some .ac else none

/-- Little-endian: the byte at the lowest address is the low 8 bits (R42, R44). -/
def packBytes : List Byte → VReg
  | [] => 0#512
  | b :: bs => b.setWidth 512 ||| (packBytes bs <<< 8)

/-- Byte `j` of an operand, where the checks have found it mapped. -/
def State.memByte (s : State) (seg : SegReg) (ea : Word) (j : Nat) : Byte :=
  (Memory.read s.mem (s.linAddr seg ea j).toNat).getD 0#8

/-- `MemRead(seg, ea, n)` (R42); bytes without `need` are neither checked nor read (R142) and are 0 here. -/
def State.memRead (s : State) (seg : SegReg) (ea : Word) (n : Nat) (need : Nat → Bool) :
    Except Exception VReg :=
  match s.memFault seg ea n need with
  | some e => .error e
  | none => .ok (packBytes ((List.range n).map fun j => if need j then s.memByte seg ea j else 0#8))

/-! ## Exceptions -/

/-- The vector number (R172). -/
def Exception.vector : Exception → Nat
  | .ud => 6
  | .nm => 7
  | .ss => 12
  | .gp => 13
  | .pf _ _ => 14
  | .ac => 17
  | .xm => 19

/-- The error code, where the exception has one (R172); its 32 bits are the model's DESIGN CHOICE, log entry 29. -/
def Exception.errorCode : Exception → Option (BitVec 32)
  | .ud => none
  | .nm => none
  | .ss => some 0#32
  | .gp => some 0#32
  | .pf code _ => some code
  | .ac => some 0#32
  | .xm => none

/-- The linear address recorded in `CR2` (R170, R172). -/
def Exception.faultAddress : Exception → Option Word
  | .ud => none
  | .nm => none
  | .ss => none
  | .gp => none
  | .pf _ a => some a
  | .ac => none
  | .xm => none

/-- `raise E(info)`: the terminal outcome `Fault(E, info, state')` (R175). There is no entry to a
handler and no return from one (R176, R177, decision D10). -/
def raise (e : Exception) (after : State) : Out := .fault (.raised e after)

end Sys2Proof.Machine
end

