-- ==== Sys2Proof/Machine/Operands.lean ====
section
/-! DEFINITION. The operand forms: effective addresses and segments (30_encoding.md R75 to R82), the third source
(42_vfnmadd_pd_evex.md R142), the write mask (R143), the rounding mode (R141). -/

namespace Sys2Proof.Machine

/-- Operand 3 of any form. -/
inductive Src3 where
  | reg (r : BitVec 5)
  | regRound (r : BitVec 5) (rc : RoundMode)
  | mem (a : MemAddr) (bcst : Bool)
  deriving DecidableEq, Repr

/-- A form with its fields, the verdict of R84 step 7. A VEX form has no mask and no zeroing. -/
structure Form where
  mnem : Mnem
  evex : Bool
  vl : VecLen
  pfx : List LegacyPrefix
  dest : BitVec 5
  src2 : BitVec 5
  src3 : Src3
  mask : BitVec 3
  zeroing : Bool
  bytes : Nat
  deriving DecidableEq, Repr

/-- Lanes of a vector length: `MAXNUM`, `KL` (R131, R140). -/
def lanesOf : VecLen → Nat
  | .v128 => 2
  | .v256 => 4
  | .v512 => 8

/-- Bytes of a vector length. -/
def bytesOf (l : VecLen) : Nat := 8 * lanesOf l

/-- Bits of a vector length, `VL` (R8). -/
def bitsOf (l : VecLen) : Nat := 64 * lanesOf l

/-! ## Addressing -/

/-- The address size is 32 bits: a 32-bit mode, or prefix `67H` (R80, R81). -/
def addr32 (s : State) (pfx : List LegacyPrefix) : Bool := s.is32 || pfx.contains .addrSize

/-- The factor `N` of a disp8 (R79): 1 under VEX, the element under broadcast, else the vector. -/
def dispScale (evex : Bool) (vl : VecLen) (bcst : Bool) : Nat :=
  if !evex then 1 else if bcst then 8 else bytesOf vl

/-- The displacement, sign-extended, a disp8 scaled by `n` (R78, R79). -/
def dispValue (n : Nat) : Disp → Word
  | .none => 0#64
  | .disp8 d => d.signExtend 64 * BitVec.ofNat 64 n
  | .disp32 d => d.signExtend 64

/-- The scaled index; index 0100 is none (R76). -/
def indexValue (s : State) (scale : BitVec 2) (index : BitVec 4) : Word :=
  if index = 4#4 then 0#64 else s.readG index <<< scale.toNat

/-- The sum of R75 to R77 in 64 bits, before the address size is applied; `next` is `pc + len`.
In a 32-bit mode the RIP-relative encoding is a disp32 alone (R77, R81). -/
def addrSum (s : State) (next : Word) (n : Nat) : MemAddr → Word
  | .base b d => s.readG b + dispValue n d
  | .sib scale index b d => s.readG b + indexValue s scale index + dispValue n d
  | .sibNoBase scale index d => indexValue s scale index + d.signExtend 64
  | .ripRel d => if s.is32 then d.signExtend 64 else next + d.signExtend 64

/-- The effective address: the sum modulo 2^64, or modulo 2^32 and zero-extended (R58, R77, R80). -/
def effAddr (s : State) (pfx : List LegacyPrefix) (next : Word) (n : Nat) (a : MemAddr) : Word :=
  if addr32 s pfx then ((addrSum s next n a).setWidth 32).setWidth 64 else addrSum s next n a

/-- The default segment: SS when the base register is rsp or rbp, else DS (R75, R76, decision D24). -/
def defaultSeg : MemAddr → SegReg
  | .base b _ => if b = 5#4 then .ss else .ds
  | .sib _ _ b _ => if b = 4#4 ∨ b = 5#4 then .ss else .ds
  | .sibNoBase _ _ _ => .ds
  | .ripRel _ => .ds

/-- The segment an override prefix names. In 64-bit mode ES, CS, SS and DS change nothing (R61, R168;
log entry 14). -/
def overrideOf (is32 : Bool) : LegacyPrefix → Option SegReg
  | .seg .fs => some .fs
  | .seg .gs => some .gs
  | .seg .es => if is32 then some .es else none
  | .seg .cs => if is32 then some .cs else none
  | .seg .ss => if is32 then some .ss else none
  | .seg .ds => if is32 then some .ds else none
  | .addrSize => none

/-- The segment of the memory operand: the last override, else the default (R82). -/
def operandSeg (s : State) (pfx : List LegacyPrefix) (a : MemAddr) : SegReg :=
  ((pfx.filterMap (overrideOf s.is32)).getLast?).getD (defaultSeg a)

/-! ## The write mask (R143) -/

/-- Lane `j` is active: no write mask, or its mask bit is 1. -/
def Form.active (f : Form) (s : State) (j : Nat) : Bool := f.mask == 0#3 || (s.readK f.mask).getLsbD j

/-! ## The third source (R142) -/

def Form.effAddr (f : Form) (s : State) (a : MemAddr) (bcst : Bool) : Word :=
  Sys2Proof.Machine.effAddr s f.pfx (s.pcAfter f.bytes) (dispScale f.evex f.vl bcst) a

/-- Only active lanes are accessed: an EVEX form under `cfg.faultSuppression` (R47, R142). -/
def Form.suppresses (f : Form) (s : State) : Bool := f.evex && s.cfg.faultSuppression

/-- Byte `j` of a full-width operand is accessed. -/
def Form.needsByte (f : Form) (s : State) (j : Nat) : Bool := !f.suppresses s || f.active s (j / 8)

/-- A broadcast element is accessed. -/
def Form.needsElement (f : Form) (s : State) : Bool :=
  !f.suppresses s || (List.range (lanesOf f.vl)).any (f.active s)

/-- `SRC3`: the register, the full-width operand, or the element in every lane (R142). -/
def Form.thirdSource (f : Form) (s : State) : Except Exception VReg :=
  match f.src3 with
  | .reg r => .ok (s.readV r)
  | .regRound r _ => .ok (s.readV r)
  | .mem a false => s.memRead (operandSeg s f.pfx a) (f.effAddr s a false) (bytesOf f.vl) (f.needsByte s)
  | .mem a true =>
    (s.memRead (operandSeg s f.pfx a) (f.effAddr s a true) 8 (fun _ => f.needsElement s)).map fun e =>
      packLanes (List.replicate (lanesOf f.vl) (laneOf e 0))

/-! ## Rounding and suppression (R141, R155) -/

/-- Embedded rounding, which suppresses all exceptions. -/
def Form.sae (f : Form) : Bool :=
  match f.src3 with
  | .reg _ => false
  | .regRound _ _ => true
  | .mem _ _ => false

/-- The rounding mode: `EVEX.RC` under embedded rounding, else `MXCSR.RC` (R141). -/
def Form.roundMode (f : Form) (s : State) : RoundMode :=
  match f.src3 with
  | .reg _ => mxcsrRC s.mxcsr
  | .regRound _ rc => rc
  | .mem _ _ => mxcsrRC s.mxcsr

/-- The masks the lanes are computed with (R144 step 4). -/
def Form.masks (f : Form) (s : State) : Masks := if f.sae then .all else mxcsrMasks s.mxcsr

/-! ## Which operands exist -/

/-- The number of vector registers that can be named in this mode (R20, R81). -/
def State.vecCount (s : State) : Nat := if s.is32 then 8 else s.cfg.nvec.count

/-- The number of general registers that can be named in this mode (R27, R81). -/
def State.gprCount (s : State) : Nat := if s.is32 then 8 else 16

/-- Every general register of an address can be named. -/
def addrNamed (s : State) : MemAddr → Bool
  | .base b _ => decide (b.toNat < s.gprCount)
  | .sib _ i b _ => decide (i.toNat < s.gprCount) && decide (b.toNat < s.gprCount)
  | .sibNoBase _ i _ => decide (i.toNat < s.gprCount)
  | .ripRel _ => true

def src3Named (s : State) : Src3 → Bool
  | .reg r => decide (r.toNat < s.vecCount)
  | .regRound r _ => decide (r.toNat < s.vecCount)
  | .mem a _ => addrNamed s a

/-- Every register and the vector length of a form exist in this mode and configuration (log entry 20). -/
def Form.named (f : Form) (s : State) : Bool :=
  decide (f.dest.toNat < s.vecCount) && decide (f.src2.toNat < s.vecCount) && src3Named s f.src3 &&
    decide (bitsOf f.vl ≤ s.cfg.maxvl.bits)

/-- A memory operand with 16-bit addressing: prefix `67H` in a 32-bit mode (R81, D28). -/
def Form.addr16 (f : Form) (s : State) : Bool :=
  match f.src3 with
  | .reg _ => false
  | .regRound _ _ => false
  | .mem _ _ => s.is32 && f.pfx.contains .addrSize

end Sys2Proof.Machine
end

