-- ==== Sys2Proof/Machine/Form.lean ====
section
/-! DEFINITION. The execution of a form, said once for the fifteen rows: 42_vfnmadd_pd_evex.md R144, of which
41_vfnmadd_pd_vex.md R131 is the case without mask, zeroing, broadcast and embedded rounding (30_encoding.md R90). -/

namespace Sys2Proof.Machine

/-! ## Checks before any operand is read -/

/-- The CPUID flags of the form are reported (R166 (e)). -/
def Form.featuresOk (f : Form) (s : State) : Bool :=
  if f.evex then
    s.cfg.avx512f &&
      (match f.vl with
      | .v128 => s.cfg.avx512vl
      | .v256 => s.cfg.avx512vl
      | .v512 => true)
  else s.cfg.fma

/-- None of R166 (a), (b), (c), (f), (e) holds. -/
def Form.enabled (f : Form) (s : State) : Bool :=
  !s.isLegacy && s.osxsave && s.xcrAvx && (!f.evex || s.xcrZmm) && f.featuresOk s

/-- Items 3 to 6 of R173: `#GP(0)` by length, `#UD` by R166 (h), `#UD` by mode, enables and features,
`#NM`. The decoder has already answered the first two for every form it reads (log entry 27). -/
def Form.entryFault (f : Form) (s : State) : Option Exception :=
  if 15 < f.bytes then some .gp
  else if f.zeroing = true ∧ f.mask = 0#3 then some .ud
  else if !f.enabled s then some .ud
  else if s.ts then some .nm
  else none

/-! ## The lanes -/

/-- The lane expression of each mnemonic (R130): `x`, `y`, `z` from the lanes of DEST, SRC2, SRC3. -/
def Mnem.arrange (m : Mnem) (d s2 s3 : Lane) : Lane × Lane × Lane :=
  match m with
  | .f132 => (d, s3, s2)
  | .f213 => (s2, d, s3)
  | .f231 => (s2, s3, d)

/-- `FNMADD64` of an active lane `j` (R131 step 3, R144 step 4). -/
def Form.computeLane (f : Form) (s : State) (s3 : VReg) (j : Nat) : LaneOut :=
  let i := Mnem.arrange f.mnem (laneOf (s.readV f.dest) j) (laneOf (s.readV f.src2) j) (laneOf s3 j)
  fnmadd64 s.cfg i.1 i.2.1 i.2.2 (f.roundMode s) (mxcsrDAZ s.mxcsr) (mxcsrFTZ s.mxcsr) (f.masks s)

/-- Lane `j`: computed if active, else the old lane under merging-masking or 0 under
zeroing-masking, without flags (R143, R144 step 4). -/
def Form.lane (f : Form) (s : State) (s3 : VReg) (j : Nat) : LaneOut :=
  if f.active s j then f.computeLane s s3 j
  else ⟨some (if f.zeroing then 0#64 else laneOf (s.readV f.dest) j), .none⟩

/-- All lanes, lane 0 first. -/
def Form.lanes (f : Form) (s : State) (s3 : VReg) : List LaneOut :=
  (List.range (lanesOf f.vl)).map (f.lane s s3)

/-- The lane values; a lane without a result has trapped before this is used (R112, R113, log entry 22). -/
def laneValues (ls : List LaneOut) : List Lane := ls.map fun l => l.value.getD 0#64

/-- The union of the lane flags (R161). -/
def laneFlags (ls : List LaneOut) : Flags := Flags.unionAll (ls.map LaneOut.flags)

/-! ## Completion and the unmasked response -/

/-- `SimdFP`: `#XM` when `CR4.OSXMMEXCPT = 1`, else `#UD` (R163). -/
def simdException (s : State) : Exception := if s.osxmmexcpt then .xm else .ud

/-- R144 steps 5 to 7: flags, destination, `pc`. -/
def Form.complete (f : Form) (s : State) (vals : List Lane) (flags : Flags) : State :=
  ((s.orMxcsr flags.bits).writeV f.dest (packLanes vals)).advance f.bytes

/-- R162 and the rest of R144: the unmasked response in its two stages, or completion. -/
def Form.finish (f : Form) (s : State) (ls : List LaneOut) : Out :=
  if f.sae then .next (f.complete s (laneValues ls) .none)
  else if (laneFlags ls).pre.unmasked (mxcsrMasks s.mxcsr) then
    raise (simdException s) (s.orMxcsr (laneFlags ls).pre.bits)
  else if (laneFlags ls).post.unmasked (mxcsrMasks s.mxcsr) then
    raise (simdException s) (s.orMxcsr (laneFlags ls).bits)
  else .next (f.complete s (laneValues ls) (laneFlags ls))

/-- The execution of a form (R131, R144), faults in the order of R173. -/
def Form.run (f : Form) (s : State) : Out :=
  match f.entryFault s with
  | some e => raise e s
  | none =>
    if !f.named s then .refused .noSuchRegister
    else if f.addr16 s then .refused .addr16
    else
      match f.thirdSource s with
      | .error e => raise e s
      | .ok s3 => f.finish s (f.lanes s s3)

/-! ## The forms of the three shapes of operands -/

def VexSrc.toSrc3 : VexSrc → Src3
  | .reg r => .reg (r.setWidth 5)
  | .mem a => .mem a false

def EvexSrc.toSrc3 : EvexSrc → Src3
  | .reg r => .reg r
  | .mem a bcst => .mem a bcst

def EvexSrc512.toSrc3 : EvexSrc512 → Src3
  | .reg r => .reg r
  | .regRound r rc => .regRound r rc
  | .mem a bcst => .mem a bcst

/-- A VEX form (R65, R131). -/
def vexForm (m : Mnem) (vl : VecLen) (o : VexOps) : Form :=
  ⟨m, false, vl, o.pfx, o.dest.setWidth 5, o.src2.setWidth 5, VexSrc.toSrc3 o.src3, 0#3, false, o.len⟩

/-- An EVEX.128 or EVEX.256 form (R68, R144). -/
def evexForm (m : Mnem) (vl : VecLen) (o : EvexOps EvexSrc) : Form :=
  ⟨m, true, vl, o.pfx, o.dest, o.src2, EvexSrc.toSrc3 o.src3, o.mask, o.zeroing, o.lenWith EvexSrc.len⟩

/-- An EVEX.512 form (R68, R144). -/
def evexForm512 (m : Mnem) (o : EvexOps EvexSrc512) : Form :=
  ⟨m, true, .v512, o.pfx, o.dest, o.src2, EvexSrc512.toSrc3 o.src3, o.mask, o.zeroing,
    o.lenWith EvexSrc512.len⟩

/-- The form of each row (R86), in the terms of R84 step 7. -/
def formOf : Instr → Form
  | .vfnmadd132pdVex128 o => vexForm .f132 .v128 o
  | .vfnmadd213pdVex128 o => vexForm .f213 .v128 o
  | .vfnmadd231pdVex128 o => vexForm .f231 .v128 o
  | .vfnmadd132pdVex256 o => vexForm .f132 .v256 o
  | .vfnmadd213pdVex256 o => vexForm .f213 .v256 o
  | .vfnmadd231pdVex256 o => vexForm .f231 .v256 o
  | .vfnmadd132pdEvex128 o => evexForm .f132 .v128 o
  | .vfnmadd213pdEvex128 o => evexForm .f213 .v128 o
  | .vfnmadd231pdEvex128 o => evexForm .f231 .v128 o
  | .vfnmadd132pdEvex256 o => evexForm .f132 .v256 o
  | .vfnmadd213pdEvex256 o => evexForm .f213 .v256 o
  | .vfnmadd231pdEvex256 o => evexForm .f231 .v256 o
  | .vfnmadd132pdEvex512 o => evexForm512 .f132 o
  | .vfnmadd213pdEvex512 o => evexForm512 .f213 o
  | .vfnmadd231pdEvex512 o => evexForm512 .f231 o

end Sys2Proof.Machine
end

