-- ==== Sys2Proof/Machine/Evex.lean ====
section
/-! DEFINITION. The meanings of the nine EVEX-encoded forms (42_vfnmadd_pd_evex.md R145 to R153). -/

namespace Sys2Proof.Machine

/-- `VFNMADD132PD xmm1 {k1}{z}, xmm2, xmm3/m128/m64bcst` (row 7, R145). -/
def execVfnmadd132pdEvex128 (o : EvexOps EvexSrc) (s : State) : Out := (evexForm .f132 .v128 o).run s

/-- `VFNMADD213PD xmm1 {k1}{z}, xmm2, xmm3/m128/m64bcst` (row 8, R146). -/
def execVfnmadd213pdEvex128 (o : EvexOps EvexSrc) (s : State) : Out := (evexForm .f213 .v128 o).run s

/-- `VFNMADD231PD xmm1 {k1}{z}, xmm2, xmm3/m128/m64bcst` (row 9, R147). -/
def execVfnmadd231pdEvex128 (o : EvexOps EvexSrc) (s : State) : Out := (evexForm .f231 .v128 o).run s

/-- `VFNMADD132PD ymm1 {k1}{z}, ymm2, ymm3/m256/m64bcst` (row 10, R148). -/
def execVfnmadd132pdEvex256 (o : EvexOps EvexSrc) (s : State) : Out := (evexForm .f132 .v256 o).run s

/-- `VFNMADD213PD ymm1 {k1}{z}, ymm2, ymm3/m256/m64bcst` (row 11, R149). -/
def execVfnmadd213pdEvex256 (o : EvexOps EvexSrc) (s : State) : Out := (evexForm .f213 .v256 o).run s

/-- `VFNMADD231PD ymm1 {k1}{z}, ymm2, ymm3/m256/m64bcst` (row 12, R150). -/
def execVfnmadd231pdEvex256 (o : EvexOps EvexSrc) (s : State) : Out := (evexForm .f231 .v256 o).run s

/-- `VFNMADD132PD zmm1 {k1}{z}, zmm2, zmm3/m512/m64bcst{er}` (row 13, R151). -/
def execVfnmadd132pdEvex512 (o : EvexOps EvexSrc512) (s : State) : Out := (evexForm512 .f132 o).run s

/-- `VFNMADD213PD zmm1 {k1}{z}, zmm2, zmm3/m512/m64bcst{er}` (row 14, R152). -/
def execVfnmadd213pdEvex512 (o : EvexOps EvexSrc512) (s : State) : Out := (evexForm512 .f213 o).run s

/-- `VFNMADD231PD zmm1 {k1}{z}, zmm2, zmm3/m512/m64bcst{er}` (row 15, R153). -/
def execVfnmadd231pdEvex512 (o : EvexOps EvexSrc512) (s : State) : Out := (evexForm512 .f231 o).run s

end Sys2Proof.Machine
end

