-- ==== Sys2Proof/Machine/Vex.lean ====
section
/-! DEFINITION. The meanings of the six VEX-encoded forms (41_vfnmadd_pd_vex.md R132 to R137). -/

namespace Sys2Proof.Machine

/-- `VFNMADD132PD xmm1, xmm2, xmm3/m128` (row 1, R132). -/
def execVfnmadd132pdVex128 (o : VexOps) (s : State) : Out := (vexForm .f132 .v128 o).run s

/-- `VFNMADD213PD xmm1, xmm2, xmm3/m128` (row 2, R133). -/
def execVfnmadd213pdVex128 (o : VexOps) (s : State) : Out := (vexForm .f213 .v128 o).run s

/-- `VFNMADD231PD xmm1, xmm2, xmm3/m128` (row 3, R134). -/
def execVfnmadd231pdVex128 (o : VexOps) (s : State) : Out := (vexForm .f231 .v128 o).run s

/-- `VFNMADD132PD ymm1, ymm2, ymm3/m256` (row 4, R135). -/
def execVfnmadd132pdVex256 (o : VexOps) (s : State) : Out := (vexForm .f132 .v256 o).run s

/-- `VFNMADD213PD ymm1, ymm2, ymm3/m256` (row 5, R136). -/
def execVfnmadd213pdVex256 (o : VexOps) (s : State) : Out := (vexForm .f213 .v256 o).run s

/-- `VFNMADD231PD ymm1, ymm2, ymm3/m256` (row 6, R137). -/
def execVfnmadd231pdVex256 (o : VexOps) (s : State) : Out := (vexForm .f231 .v256 o).run s

end Sys2Proof.Machine
end

