-- ==== Sys2Proof/Machine/Dispatch.lean ====
section
/-! DEFINITION. One arm per instruction, each one call of its meaning. -/

namespace Sys2Proof.Machine

def exec (i : Instr) (s : State) : Host.Outcome State Fault Refusal :=
  match i with
  | .vfnmadd132pdVex128 o => Sys2Proof.Machine.execVfnmadd132pdVex128 o s
  | .vfnmadd213pdVex128 o => Sys2Proof.Machine.execVfnmadd213pdVex128 o s
  | .vfnmadd231pdVex128 o => Sys2Proof.Machine.execVfnmadd231pdVex128 o s
  | .vfnmadd132pdVex256 o => Sys2Proof.Machine.execVfnmadd132pdVex256 o s
  | .vfnmadd213pdVex256 o => Sys2Proof.Machine.execVfnmadd213pdVex256 o s
  | .vfnmadd231pdVex256 o => Sys2Proof.Machine.execVfnmadd231pdVex256 o s
  | .vfnmadd132pdEvex128 o => Sys2Proof.Machine.execVfnmadd132pdEvex128 o s
  | .vfnmadd213pdEvex128 o => Sys2Proof.Machine.execVfnmadd213pdEvex128 o s
  | .vfnmadd231pdEvex128 o => Sys2Proof.Machine.execVfnmadd231pdEvex128 o s
  | .vfnmadd132pdEvex256 o => Sys2Proof.Machine.execVfnmadd132pdEvex256 o s
  | .vfnmadd213pdEvex256 o => Sys2Proof.Machine.execVfnmadd213pdEvex256 o s
  | .vfnmadd231pdEvex256 o => Sys2Proof.Machine.execVfnmadd231pdEvex256 o s
  | .vfnmadd132pdEvex512 o => Sys2Proof.Machine.execVfnmadd132pdEvex512 o s
  | .vfnmadd213pdEvex512 o => Sys2Proof.Machine.execVfnmadd213pdEvex512 o s
  | .vfnmadd231pdEvex512 o => Sys2Proof.Machine.execVfnmadd231pdEvex512 o s

end Sys2Proof.Machine
end

