-- ==== Sys2Proof/Machine/Fetch.lean ====
section
/-! DEFINITION. Fetching the bytes at `pc` from the program text (20_memory.md R40, R44, R56, decision D30), and placing
an instruction there. -/

namespace Sys2Proof.Machine

/-- The bytes at `a`, `a+1`, ... up to the first address that is not listed. -/
def bytesFrom : Nat → List Host.Cell → List Byte
  | _, [] => []
  | a, c :: m =>
    if c.1 = a then c.2 :: bytesFrom (a + 1) m
    else if c.1 < a then bytesFrom a m
    else []

/-- The bytes at `pc`, in increasing address order, as far as the program text goes; past the top of
the address space the text continues at 0 (R28, log entry 8). -/
def State.fetch (s : State) : List Byte :=
  if s.pc.toNat + (bytesFrom s.pc.toNat s.text).length = 2 ^ 64 then
    bytesFrom s.pc.toNat s.text ++ bytesFrom 0 s.text
  else bytesFrom s.pc.toNat s.text

/-- The program text with bytes placed from `pc` on. -/
def State.placeAtPc (s : State) (bs : List Byte) : State :=
  { s with text := Memory.load s.text s.pc.toNat bs }

end Sys2Proof.Machine
end

