-- ==== Sys2Proof/Machine/Step.lean ====
section
/-! DEFINITION. One step: fetch, decode, execute (30_encoding.md R84, 70_reset_and_hazards.md R197, R199). -/

namespace Sys2Proof.Machine

/-- The outcome of a decoder's verdict (R84, R87). -/
def runVerdict (s : State) : Verdict → Host.Outcome State Fault Refusal
  | .form i _ => exec i s
  | .ud => raise .ud s
  | .gp => raise .gp s
  | .notThisGroup => .refused (.notThisGroup s.pc)

/-- One instruction. In a 32-bit mode the decoder refuses (R81, decision D1). -/
def step (s : State) : Host.Outcome State Fault Refusal :=
  if s.is32 then .refused .decode32 else runVerdict s (decode s.fetch)

/-- `s` with the instruction of a table word placed in the program text at `pc`: the load of a
program from outside the machine (log entry 9). Nothing else changes. -/
def State.withFetchWord (s : State) (nbits w : Nat) : State := s.placeAtPc (tableBytes nbits w)

end Sys2Proof.Machine
end

