-- ==== Sys2Proof/Safety.lean ====
section
/-! DEFINITION. What claims are stated with: the launch premises of 70_reset_and_hazards.md R191, the frame of
10_state.md R34, the invariant of the state, and the shape of a completed instruction (R131, R144). -/

namespace Sys2Proof.Machine

/-! ## Launch premises (R36, R191) -/

/-- `CleanEntry`. -/
def State.cleanEntry (s : State) : Bool :=
  s.mode == .long64 && s.osxsave && s.xcrAvx && s.xcrZmm && !s.ts && s.mxcsr.extractLsb' 16 16 == 0#16

/-- `DefaultMXCSR`. -/
def State.defaultMXCSR (s : State) : Bool := s.mxcsr == 0x1F80#32

/-! ## When an instruction executes rather than faults before its operands -/

/-- The state lets a VEX form execute (R166, R167, R192): not in real-address or virtual-8086 mode,
`CR4.OSXSAVE`, `XCR0` SSE and AVX, the `FMA` flag, `CR0.TS = 0`. -/
def State.vexReady (s : State) : Bool :=
  !s.isLegacy && s.osxsave && s.xcrAvx && s.cfg.fma && !s.ts

/-- The state lets an EVEX form of this length execute: also `XCR0` bits 5 to 7, `AVX512F`, and
`AVX512VL` below 512 bits. -/
def State.evexReady (s : State) (vl : VecLen) : Bool :=
  !s.isLegacy && s.osxsave && s.xcrAvx && s.xcrZmm && s.cfg.avx512f &&
    (vl == .v512 || s.cfg.avx512vl) && !s.ts

/-- The registers of the form exist and its addressing is not 16-bit: always so for a form in 64-bit
mode on a consistent configuration. -/
def Form.nameable (f : Form) (s : State) : Bool := f.named s && !f.addr16 s

/-! ## Frame (R34) -/

/-- The flag bits of `MXCSR` that a form can set: IE, DE, OE, UE, PE (R25). -/
def mxcsrFlagBits : BitVec 32 := 0x3B#32

/-- What a form leaves unchanged: every vector register but `d`, every opmask, general, segment and
control register, the mode, every byte of data memory and of program text, the configuration, and
every bit of `MXCSR` but the five flags, which are never cleared (R26, R34, R41). -/
structure Frame (d : BitVec 5) (s t : State) : Prop where
  vector : ∀ i : Fin 32, i.val ≠ d.toNat → t.v[i] = s.v[i]
  opmask : t.k = s.k
  general : t.g = s.g
  fsBase : t.fsBase = s.fsBase
  gsBase : t.gsBase = s.gsBase
  segs : t.segs = s.segs
  mode : t.mode = s.mode
  cr0 : t.cr0 = s.cr0
  cr4 : t.cr4 = s.cr4
  xcr0 : t.xcr0 = s.xcr0
  eflagsAC : t.eflagsAC = s.eflagsAC
  cpl : t.cpl = s.cpl
  memory : ∀ a, Memory.read t.mem a = Memory.read s.mem a
  text : ∀ a, Memory.read t.text a = Memory.read s.text a
  cfg : t.cfg = s.cfg
  mxcsrControl : t.mxcsr &&& ~~~mxcsrFlagBits = s.mxcsr &&& ~~~mxcsrFlagBits
  mxcsrSticky : s.mxcsr &&& t.mxcsr = s.mxcsr

/-! ## Completion (R131 steps 5 to 7, R144 steps 4 to 7) -/

/-- The union of the flags of the active lanes below `n`. -/
def activeFlags (n : Nat) (active : Nat → Bool) (out : Nat → LaneOut) : Flags :=
  Flags.unionAll ((List.range n).map fun j => if active j then (out j).flags else .none)

/-- `t` is `s` after a form of `n` lanes and `len` bytes with destination `d` whose active lanes came
out as `out`: an active lane holds its result, an inactive lane its old value or 0, the lanes above
the vector length 0; `flags` went into `MXCSR`; `pc` moved on; the rest is framed. -/
structure Completed (s t : State) (d : BitVec 5) (n len : Nat) (active : Nat → Bool) (zeroing : Bool)
    (out : Nat → LaneOut) (flags : Flags) : Prop where
  activeLanes : ∀ j, j < n → active j = true → (out j).value = some (laneOf (t.readV d) j)
  inactiveLanes : ∀ j, j < n → active j = false →
    laneOf (t.readV d) j = if zeroing then 0#64 else laneOf (s.readV d) j
  upperLanes : ∀ j, n ≤ j → j < 8 → laneOf (t.readV d) j = 0#64
  mxcsr : t.mxcsr = s.mxcsr ||| flags.bits
  pc : t.pc = s.pcAfter len
  frame : Frame d s t

/-- The outcome is a next state, completed with the flags of the active lanes, whenever none of them
is unmasked in `MXCSR` (R161). -/
def CompletesUnlessUnmasked (o : Out) (s : State) (d : BitVec 5) (n len : Nat) (active : Nat → Bool)
    (zeroing : Bool) (out : Nat → LaneOut) : Prop :=
  (activeFlags n active out).unmasked (mxcsrMasks s.mxcsr) = false →
    ∃ t, o = .next t ∧ Completed s t d n len active zeroing out (activeFlags n active out)

/-- The lane function under the controls of `MXCSR` (R26, R131 step 3). -/
def fnmaddMxcsr (s : State) (x y z : Lane) : LaneOut :=
  fnmadd64 s.cfg x y z (mxcsrRC s.mxcsr) (mxcsrDAZ s.mxcsr) (mxcsrFTZ s.mxcsr) (mxcsrMasks s.mxcsr)

/-- The lane function under embedded rounding: all exceptions masked (R144 step 4, R155). -/
def fnmaddSae (s : State) (rc : RoundMode) (x y z : Lane) : LaneOut :=
  fnmadd64 s.cfg x y z rc (mxcsrDAZ s.mxcsr) (mxcsrFTZ s.mxcsr) Masks.all

/-- Lane `j` is active under an EVEX write mask (R143). -/
def activeUnder (s : State) (mask : BitVec 3) (j : Nat) : Bool :=
  mask == 0#3 || (s.readK mask).getLsbD j

/-! ## Invariant -/

/-- The invariant of the state: both memories in canonical form; a vector register keeps no bit above
`MAXVL` and is 0 if it does not exist; an opmask register keeps no bit above `KW`; the reserved bits
of `MXCSR` are 0; in a 32-bit mode `pc` is 32 bits (R20, R23, R25, R28). -/
abbrev State.Inv (s : State) : Prop :=
  Memory.wf s.mem ∧ Memory.wf s.text ∧
  (∀ i : Fin 32, fitMaxVL s.cfg.maxvl s.v[i] = s.v[i]) ∧
  (∀ i : Fin 32, s.cfg.nvec.count ≤ i.val → s.v[i] = 0#512) ∧
  (∀ i : Fin 8, fitKW s.cfg.kw s.k[i] = s.k[i]) ∧
  s.mxcsr.extractLsb' 16 16 = 0#16 ∧
  (s.is32 = true → s.pc.toNat < 2 ^ 32)

/-! ## Relating two runs -/

/-- Apply a function to the state an outcome carries. -/
def mapOut (g : State → State) : Out → Out
  | .next t => .next (g t)
  | .fault (.raised e a) => .fault (.raised e (g a))
  | .refused r => .refused r

/-! ## The terms of the encoding (30_encoding.md) -/

/-- The bytes that R61 lets stand before the VEX or EVEX prefix: segment overrides and `67H`. -/
def validPrefixBytes : List Byte := [0x26#8, 0x2E#8, 0x36#8, 0x3E#8, 0x64#8, 0x65#8, 0x67#8]

/-- `66H`, `F2H`, `F3H`, `F0H` or a REX prefix `40H` to `4FH` (R61). -/
abbrev ForbiddenPrefixByte (b : Byte) : Prop :=
  b ∈ [0x66#8, 0xF2#8, 0xF3#8, 0xF0#8] ∨ (0x40 ≤ b.toNat ∧ b.toNat ≤ 0x4F)

/-- An opcode byte of R72. -/
abbrev OpcodeByte (op : Byte) : Prop := op = 0x9C#8 ∨ op = 0xAC#8 ∨ op = 0xBC#8

/-- The VEX payload bytes have the fixed fields of R63. -/
abbrev VexHeader (b1 b2 : Byte) : Prop :=
  b1.extractLsb' 0 5 = 2#5 ∧ b2.getLsbD 7 = true ∧ b2.extractLsb' 0 2 = 1#2

/-- The first two EVEX payload bytes have the fixed fields of R67. -/
abbrev EvexHeader (p0 p1 : Byte) : Prop :=
  p0.extractLsb' 0 4 = 2#4 ∧ p1.getLsbD 7 = true ∧ p1.extractLsb' 0 3 = 5#3

/-- The bits of the first VEX or EVEX payload byte that a form ignores, which the encoder sets: those of R88, and
those of log entry 28 (`B̄` of a SIB without base, `X̄` of a VEX memory form without SIB). -/
def Form.ignoredBits (f : Form) : Byte :=
  match f.src3 with
  | .reg _ => if f.evex then 0#8 else 0x40#8
  | .regRound _ _ => 0#8
  | .mem (.base _ _) _ => 0x40#8
  | .mem (.sib _ _ _ _) _ => 0#8
  | .mem (.sibNoBase _ _ _) _ => 0x20#8
  | .mem (.ripRel _) _ => 0x60#8

/-- The bytes `bs` hold the displacement that `mod` announces, then `rest` (R75, R78). -/
def DispBytes (mod : BitVec 2) (bs : List Byte) (d : Disp) (rest : List Byte) : Prop :=
  (mod = 0#2 ∧ d = .none ∧ bs = rest) ∨ (mod = 1#2 ∧ ∃ b, d = .disp8 b ∧ bs = b :: rest) ∨
  (mod = 2#2 ∧ ∃ b0 b1 b2 b3, d = .disp32 (b3 ++ b2 ++ b1 ++ b0) ∧ bs = b0 :: b1 :: b2 :: b3 :: rest)

/-- After a ModRM byte with these `mod` and `rm`, and extension bits `Bx` and `Xx` not inverted, the bytes
`bs` hold the memory operand `a`, then `rest`: a base; RIP-relative; SIB without and with a base (R75, R76). -/
def MemoryBytes (mod : BitVec 2) (rm : BitVec 3) (bx xx : BitVec 1) (bs : List Byte) (a : MemAddr) (rest : List Byte) : Prop :=
  (rm ≠ 4#3 ∧ ¬(rm = 5#3 ∧ mod = 0#2) ∧ ∃ d, DispBytes mod bs d rest ∧ a = .base (bx ++ rm) d) ∨
  (rm = 5#3 ∧ mod = 0#2 ∧ ∃ d, DispBytes 2#2 bs (.disp32 d) rest ∧ a = .ripRel d) ∨
  (rm = 4#3 ∧ ∃ (sib : Byte) (bs' : List Byte), bs = sib :: bs' ∧
    let scale := sib.extractLsb' 6 2
    let index := xx ++ sib.extractLsb' 3 3
    let base := sib.extractLsb' 0 3
    ((base = 5#3 ∧ mod = 0#2 ∧ ∃ d, DispBytes 2#2 bs' (.disp32 d) rest ∧ a = .sibNoBase scale index d) ∨
      (¬(base = 5#3 ∧ mod = 0#2) ∧ ∃ d, DispBytes mod bs' d rest ∧ a = .sib scale index (bx ++ base) d)))

/-- A displacement as a signed number, a disp8 times `n` (R78, R79). -/
def dispInt (n : Nat) : Disp → Int
  | .none => 0
  | .disp8 d => d.toInt * n
  | .disp32 d => d.toInt

/-! ## The terms of the checks (60_exceptions.md) -/

/-- A condition of R166 (a), (b), (c), (e) or (f) holds. -/
abbrev NotEnabled (i : Instr) (s : State) : Prop :=
  s.mode = .real ∨ s.mode = .v86 ∨ s.cr4.getLsbD 18 = false ∨ s.xcr0.extractLsb' 1 2 ≠ 3#2 ∨
    ((formOf i).evex = false ∧ s.cfg.fma = false) ∨
    ((formOf i).evex = true ∧ (s.xcr0.extractLsb' 5 3 ≠ 7#3 ∨ s.cfg.avx512f = false ∨
      ((formOf i).vl ≠ .v512 ∧ s.cfg.avx512vl = false)))

/-- No check before the operands stops the instruction: it is well-formed, R166 (a) to (h) are false,
`CR0.TS = 0`, and its registers exist in this mode. -/
abbrev Enabled (i : Instr) (s : State) : Prop :=
  i.wellFormed = true ∧ ¬NotEnabled i s ∧ s.cr0.getLsbD 3 = false ∧ (formOf i).nameable s = true

/-- The instruction is well-formed, its registers exist, and its operand 3 reads as `s3` (R131 step 2,
R144 step 3). -/
abbrev OperandsRead (i : Instr) (s : State) (s3 : VReg) : Prop :=
  i.wellFormed = true ∧ (formOf i).nameable s = true ∧ (formOf i).thirdSource s = .ok s3

/-- Bytes of a memory operand (R47). -/
def Form.operandBytes (f : Form) (bcst : Bool) : Nat := if bcst then 8 else bytesOf f.vl

/-- Byte `j` of the memory operand is accessed: all bytes, but under `cfg.FaultSuppression` for an EVEX
form only those of active lanes, or a broadcast element that some active lane uses (R142). -/
def Form.accesses (f : Form) (s : State) (bcst : Bool) (j : Nat) : Prop :=
  f.evex = true → s.cfg.faultSuppression = true →
    if bcst then ∃ l, l < lanesOf f.vl ∧ f.active s l = true else f.active s (j / 8) = true

/-- The linear address of byte `j` of the memory operand (R42, R43). -/
def Form.operandAddr (f : Form) (s : State) (a : MemAddr) (bcst : Bool) (j : Nat) : Word :=
  s.linAddr (operandSeg s f.pfx a) (f.effAddr s a bcst) j

/-- Bits `63 : cfg.LinearBits-1` of an address are all equal (R51). -/
abbrev CanonicalAddr (w : LinearBits) (a : Word) : Prop :=
  ∀ b, w.bits - 1 ≤ b → b < 64 → a.getLsbD b = a.getLsbD 63

/-- Byte `j` of the memory operand passes the check of its segment and no platform fault meets it (R173 item 7). -/
abbrev Form.byteAddressable (f : Form) (s : State) (a : MemAddr) (bcst : Bool) (j : Nat) : Prop :=
  s.segmentOk (operandSeg s f.pfx a) (f.effAddr s a bcst) j = true ∧
    s.platformFault (f.operandBytes bcst) (f.operandAddr s a bcst j) = none

/-- Byte `j` of the memory operand can be read: it is addressable and no page fault meets it. -/
abbrev Form.byteReadable (f : Form) (s : State) (a : MemAddr) (bcst : Bool) (j : Nat) : Prop :=
  f.byteAddressable s a bcst j ∧ s.pageFault (f.operandBytes bcst) (f.operandAddr s a bcst j) = none

/-! ## The terms of the lane numerics (40_lane_numerics.md) -/

/-- A lane holds a finite value: zero, denormal or normal (R101). -/
def isFinite (v : Lane) : Bool := fpExp v < 2047

/-- The other sign (R117). -/
def flipSign (v : Lane) : Lane := v ^^^ 0x8000000000000000#64

/-- `-(val(x) * val(y)) + val(z)` of finite operands, in units of 2^-2148, is `n` (R104 step 6). -/
abbrev ExactlyEquals (x y z : Lane) (n : Int) : Prop :=
  isFinite x = true ∧ isFinite y = true ∧ isFinite z = true ∧
    -(fpVal x * fpVal y) + fpVal z * 2 ^ 1074 = n

/-- `m` is `Round_rc` of `num / den` for a value of sign `neg` (R103, R111): a neighbouring integer,
the nearer one with ties to even, or the one on the side that the mode names. -/
def IsRounding (rc : RoundMode) (neg : Bool) (num den m : Nat) : Prop :=
  let err : Int := (m : Int) * den - num
  err.natAbs < den ∧
    match rc with
    | .nearestEven => 2 * err.natAbs < den ∨ (2 * err.natAbs = den ∧ m % 2 = 0)
    | .down => if neg then 0 ≤ err else err ≤ 0
    | .up => if neg then err ≤ 0 else 0 ≤ err
    | .towardZero => err ≤ 0

/-- The first rounding of R111, with unbounded exponent, of a value of sign `neg` and magnitude `a` units
of 2^-2148, `l - 2148` being `floor(log2 |r|)`: `R = m * 2^(e-52)`, and `inexact` says `R` is not `|r|`. -/
def FirstRounding (rc : RoundMode) (neg : Bool) (a m : Nat) (e : Int) (inexact : Bool) : Prop :=
  ∃ l m0 : Nat, 2 ^ l ≤ a ∧ a < 2 ^ (l + 1) ∧ IsRounding rc neg (a * 2 ^ 52) (2 ^ l) m0 ∧
    (inexact = true ↔ m0 * 2 ^ l ≠ a * 2 ^ 52) ∧
    ((m0 = 2 ^ 53 ∧ m = 2 ^ 52 ∧ e = (l : Int) - 2148 + 1) ∨ (m0 < 2 ^ 53 ∧ m = m0 ∧ e = (l : Int) - 2148))

/-- The product is infinity times zero, or the sum is infinity minus infinity (R107). -/
abbrev Invalid (x y z : Lane) : Prop :=
  (isInf x = true ∧ isZero y = true) ∨ (isZero x = true ∧ isInf y = true) ∨
    ((isInf x = true ∨ isInf y = true) ∧ isInf z = true ∧
      z.getLsbD 63 ≠ !(x.getLsbD 63 ^^ y.getLsbD 63))

/-- Some lane input is denormal (R109). -/
def anyDenormal (x y z : Lane) : Bool := isDenormal x || isDenormal y || isDenormal z

end Sys2Proof.Machine
end

