-- ==== Sys2Proof/Certificates/Slice0/Obligations.lean ====
section
/-! DEFINITION. The statements for the provers. -/

open Sys2Proof Sys2Proof.Machine

/-! ## Encoding and decoding -/

/-- Decoding the encoding of a well-formed instruction gives it back, whatever bytes follow (R84 with
the layouts of R60, R62, R66, R73, R75, R76, R78). -/
def Obligations.DecodeInvertsEncode : Prop :=
  ∀ (i : Instr) (rest : List Byte), i.wellFormed = true → decode (encode i ++ rest) = .form i rest

/-- What the decoder accepts is well-formed, and the bytes it takes are the instruction's encoding but
for ignored bits, which the encoder sets to 1: those of R88, and, the model's choice (log entry 28, DEDUCED),
`B̄` of a SIB without base and `X̄` of a VEX memory form without SIB, which R88 does not list. -/
def Obligations.DecodeAcceptsOnlyEncodings : Prop :=
  ∀ (bs : List Byte) (i : Instr) (rest : List Byte), decode bs = .form i rest →
    i.wellFormed = true ∧ ∃ taken, bs = taken ++ rest ∧ taken.length = i.len ∧
      ∀ j, (encode i).getD j 0#8 =
        taken.getD j 0#8 ||| (if j = (formOf i).pfx.length + 1 then (formOf i).ignoredBits else 0#8)

/-- `66H`, `F2H`, `F3H`, `F0H` or a REX prefix before `C4H` or `62H` is `#UD`, whatever else stands among
the prefixes and whatever follows (R61, R166 (d), R173 item 1). -/
def Obligations.ForbiddenPrefixIsUndefined : Prop :=
  ∀ (ps : List Byte) (escape : Byte) (rest : List Byte) (s : State),
    (∀ b ∈ ps, b ∈ validPrefixBytes ∨ ForbiddenPrefixByte b) → (∃ b ∈ ps, ForbiddenPrefixByte b) →
    (escape = 0xC4#8 ∨ escape = 0x62#8) → s.is32 = false → s.fetch = ps ++ escape :: rest →
    decode s.fetch = .ud ∧ step s = raise .ud s

/-- Malformed EVEX encodings are `#UD` (R87, R166 (g) and (h)): reserved bits first, whatever follows;
then, within 15 bytes, zeroing without a mask, and `L'L` = 11 outside embedded rounding. -/
def Obligations.MalformedEvexIsUndefined : Prop :=
  (∀ (ps : List Byte) (p0 p1 p2 : Byte) (rest : List Byte), (∀ b ∈ ps, b ∈ validPrefixBytes) →
    (p0.extractLsb' 2 2 ≠ 0#2 ∨ p1.getLsbD 2 = false) → decode (ps ++ 0x62#8 :: p0 :: p1 :: p2 :: rest) = .ud) ∧
  (∀ (ps : List Byte) (p0 p1 p2 op modrm : Byte) (rest : List Byte), (∀ b ∈ ps, b ∈ validPrefixBytes) →
    EvexHeader p0 p1 → OpcodeByte op → modrm.extractLsb' 6 2 = 3#2 → ps.length ≤ 9 →
    ((p2.getLsbD 7 = true ∧ p2.extractLsb' 0 3 = 0#3) ∨ (p2.getLsbD 4 = false ∧ p2.extractLsb' 5 2 = 3#2)) →
    decode (ps ++ 0x62#8 :: p0 :: p1 :: p2 :: op :: modrm :: rest) = .ud) ∧
  (∀ (ps : List Byte) (p0 p1 p2 op modrm : Byte) (bs rest : List Byte) (a : MemAddr), (∀ b ∈ ps, b ∈ validPrefixBytes) →
    EvexHeader p0 p1 → OpcodeByte op → modrm.extractLsb' 6 2 ≠ 3#2 →
    takeMem (modrm.extractLsb' 6 2) (modrm.extractLsb' 0 3) (~~~ p0.extractLsb' 5 1) (~~~ p0.extractLsb' 6 1) bs =
      some (a, rest) → ps.length + 6 + a.len ≤ 15 →
    ((p2.getLsbD 7 = true ∧ p2.extractLsb' 0 3 = 0#3) ∨ p2.extractLsb' 5 2 = 3#2) →
    decode (ps ++ 0x62#8 :: p0 :: p1 :: p2 :: op :: modrm :: bs) = .ud)

/-- The two-byte VEX prefix `C5H` encodes no form of the group: after any prefixes its bytes are
`NotThisGroup`, and no instruction has an encoding that starts so (R64). -/
def Obligations.TwoByteVexEncodesNoForm : Prop :=
  ∀ (ps rest : List Byte), (∀ b ∈ ps, b ∈ validPrefixBytes ∨ ForbiddenPrefixByte b) →
    decode (ps ++ 0xC5#8 :: rest) = .notThisGroup ∧
    ∀ i : Instr, i.wellFormed = true → encode i ≠ ps ++ 0xC5#8 :: rest

/-- Another map, `W` = 0, another `pp`, or another opcode byte is another instruction or none:
`NotThisGroup`, not a fault (R84 steps 2 and 3, R87). -/
def Obligations.OtherEncodingsAreNotTheGroup : Prop :=
  ∀ (ps : List Byte), (∀ b ∈ ps, b ∈ validPrefixBytes) →
    (∀ (b1 b2 : Byte) (rest : List Byte), ¬VexHeader b1 b2 →
      decode (ps ++ 0xC4#8 :: b1 :: b2 :: rest) = .notThisGroup) ∧
    (∀ (b1 b2 op : Byte) (rest : List Byte), ¬OpcodeByte op →
      decode (ps ++ 0xC4#8 :: b1 :: b2 :: op :: rest) = .notThisGroup) ∧
    (∀ (p0 p1 p2 : Byte) (rest : List Byte), p0.extractLsb' 2 2 = 0#2 → p1.getLsbD 2 = true → ¬EvexHeader p0 p1 →
      decode (ps ++ 0x62#8 :: p0 :: p1 :: p2 :: rest) = .notThisGroup) ∧
    (∀ (p0 p1 p2 op : Byte) (rest : List Byte), EvexHeader p0 p1 → ¬OpcodeByte op →
      decode (ps ++ 0x62#8 :: p0 :: p1 :: p2 :: op :: rest) = .notThisGroup)

/-- An instruction longer than 15 bytes is `#GP(0)`, before `#UD` for zeroing without a mask and before
the enables (R85, R169 (b), R173 item 3). -/
def Obligations.OverlongIsGeneralProtection : Prop :=
  ∀ (i : Instr) (rest : List Byte) (s : State), 15 < i.len →
    (∀ a b, (formOf i).src3 = .mem a b → a.wellFormed = true) →
    decode (encode i ++ rest) = .gp ∧ exec i s = raise .gp s ∧
    (s.is32 = false → s.fetch = encode i ++ rest → step s = raise .gp s)

/-- The vector length of an EVEX form and its rounding control: `b` = 1 in a register form is 512 bits
with `L'L` as `RC`; otherwise `L'L` = 00, 01, 10 is 128, 256, 512 bits and 11 is `#UD` (R69, R70). -/
def Obligations.EvexLengthAndRounding : Prop :=
  ∀ (ps : List Byte) (p0 p1 p2 op modrm : Byte) (bs : List Byte), (∀ b ∈ ps, b ∈ validPrefixBytes) →
    EvexHeader p0 p1 → OpcodeByte op → ¬(p2.getLsbD 7 = true ∧ p2.extractLsb' 0 3 = 0#3) →
    let bytes := ps ++ 0x62#8 :: p0 :: p1 :: p2 :: op :: modrm :: bs
    let ll := p2.extractLsb' 5 2
    let isLength (rest : List Byte) : Prop :=
      (ll = 0#2 → ∃ i, decode bytes = .form i rest ∧ (formOf i).sae = false ∧ (lanesOf (formOf i).vl, bitsOf (formOf i).vl) = (2, 128)) ∧
      (ll = 1#2 → ∃ i, decode bytes = .form i rest ∧ (formOf i).sae = false ∧ (lanesOf (formOf i).vl, bitsOf (formOf i).vl) = (4, 256)) ∧
      (ll = 2#2 → ∃ i, decode bytes = .form i rest ∧ (formOf i).sae = false ∧ (lanesOf (formOf i).vl, bitsOf (formOf i).vl) = (8, 512)) ∧
      (ll = 3#2 → decode bytes = .ud)
    (modrm.extractLsb' 6 2 = 3#2 → ps.length ≤ 9 →
      (p2.getLsbD 4 = true → ∃ i, decode bytes = .form i bs ∧ (formOf i).sae = true ∧
        (lanesOf (formOf i).vl, bitsOf (formOf i).vl) = (8, 512) ∧
        ∀ s, (formOf i).roundMode s = if ll = 0#2 then .nearestEven else if ll = 1#2 then .down
          else if ll = 2#2 then .up else .towardZero) ∧
      (p2.getLsbD 4 = false → isLength bs)) ∧
    (modrm.extractLsb' 6 2 ≠ 3#2 → ∀ (a : MemAddr) (rest : List Byte),
      takeMem (modrm.extractLsb' 6 2) (modrm.extractLsb' 0 3) (~~~ p0.extractLsb' 5 1) (~~~ p0.extractLsb' 6 1) bs =
        some (a, rest) → ps.length + 6 + a.len ≤ 15 → isLength rest)

/-- The mnemonic, length, register numbers, mask, zeroing, rounding mode and broadcast come from the fields that R65,
R68 to R73 name, in register forms, with embedded rounding too, and in memory forms, whose base, index, scale
and displacement come from the fields of R75, R76 and R78, in both encodings. -/
def Obligations.OperandFieldsDecode : Prop :=
  ∀ (ps : List Byte) (op modrm : Byte) (bs rest : List Byte), (∀ b ∈ ps, b ∈ validPrefixBytes) → OpcodeByte op →
    let mnem : Mnem := if op = 0x9C#8 then .f132 else if op = 0xAC#8 then .f213 else .f231
    let mod := modrm.extractLsb' 6 2
    let reg := modrm.extractLsb' 3 3
    let rm := modrm.extractLsb' 0 3
    (∀ (b1 b2 : Byte) (src3 : Src3), VexHeader b1 b2 →
      (mod = 3#2 ∧ bs = rest ∧ ps.length + 5 ≤ 15 ∧ src3 = .reg (0#1 ++ (~~~ b1.extractLsb' 5 1) ++ rm)) ∨
        (mod ≠ 3#2 ∧ ∃ a, MemoryBytes mod rm (~~~ b1.extractLsb' 5 1) (~~~ b1.extractLsb' 6 1) bs a rest ∧
          ps.length + 5 + a.len ≤ 15 ∧ src3 = .mem a false) →
      ∃ i, decode (ps ++ 0xC4#8 :: b1 :: b2 :: op :: modrm :: bs) = .form i rest ∧
        (formOf i).mnem = mnem ∧ (formOf i).evex = false ∧
        (formOf i).vl = (if b2.getLsbD 2 then .v256 else .v128) ∧
        (formOf i).dest = 0#1 ++ (~~~ b1.extractLsb' 7 1) ++ reg ∧
        (formOf i).src2 = 0#1 ++ (~~~ b2.extractLsb' 3 4) ∧ (formOf i).src3 = src3) ∧
    (∀ (p0 p1 p2 : Byte) (src3 : Src3) (vl : VecLen), EvexHeader p0 p1 → ¬(p2.getLsbD 7 = true ∧ p2.extractLsb' 0 3 = 0#3) →
      let ll := p2.extractLsb' 5 2
      let r3 := (~~~ p0.extractLsb' 6 1) ++ (~~~ p0.extractLsb' 5 1) ++ rm
      let isLength : Prop := (ll = 0#2 ∧ vl = .v128) ∨ (ll = 1#2 ∧ vl = .v256) ∨ (ll = 2#2 ∧ vl = .v512)
      (mod = 3#2 ∧ bs = rest ∧ ps.length + 6 ≤ 15 ∧ p2.getLsbD 4 = false ∧ isLength ∧ src3 = .reg r3) ∨
        (mod = 3#2 ∧ bs = rest ∧ ps.length + 6 ≤ 15 ∧ p2.getLsbD 4 = true ∧ vl = .v512 ∧ src3 = .regRound r3
          (if ll = 0#2 then .nearestEven else if ll = 1#2 then .down else if ll = 2#2 then .up else .towardZero)) ∨
        (mod ≠ 3#2 ∧ isLength ∧ ∃ a, MemoryBytes mod rm (~~~ p0.extractLsb' 5 1) (~~~ p0.extractLsb' 6 1) bs a rest ∧
          ps.length + 6 + a.len ≤ 15 ∧ src3 = .mem a (p2.getLsbD 4)) →
      ∃ i, decode (ps ++ 0x62#8 :: p0 :: p1 :: p2 :: op :: modrm :: bs) = .form i rest ∧
        (formOf i).mnem = mnem ∧ (formOf i).evex = true ∧ (formOf i).vl = vl ∧
        (formOf i).dest = (~~~ p0.extractLsb' 4 1) ++ (~~~ p0.extractLsb' 7 1) ++ reg ∧
        (formOf i).src2 = (~~~ p2.extractLsb' 3 1) ++ (~~~ p1.extractLsb' 3 4) ∧ (formOf i).src3 = src3 ∧
        (formOf i).mask = p2.extractLsb' 0 3 ∧ (formOf i).zeroing = p2.getLsbD 7)

/-- Words written out from the spec's encodings decode to the instructions the spec says they are
(R133, R134, R137, R145, R150, R152, R153). -/
def Obligations.SampleWordsDecode : Prop :=
  decode [0xC4#8, 0xE2#8, 0xE9#8, 0xAC#8, 0xCB#8] =
    .form (.vfnmadd213pdVex128 ⟨[], 1#4, 2#4, .reg 3#4⟩) [] ∧
  decode [0xC4#8, 0xE2#8, 0xE9#8, 0xBC#8, 0x08#8] =
    .form (.vfnmadd231pdVex128 ⟨[], 1#4, 2#4, .mem (.base 0#4 .none)⟩) [] ∧
  decode [0xC4#8, 0xE2#8, 0xED#8, 0xBC#8, 0xCB#8] =
    .form (.vfnmadd231pdVex256 ⟨[], 1#4, 2#4, .reg 3#4⟩) [] ∧
  decode [0x62#8, 0xF2#8, 0xED#8, 0x08#8, 0x9C#8, 0xCB#8] =
    .form (.vfnmadd132pdEvex128 ⟨[], 1#5, 2#5, 0#3, false, .reg 3#5⟩) [] ∧
  decode [0x62#8, 0xF2#8, 0xED#8, 0x25#8, 0xBC#8, 0x48#8, 0x01#8] =
    .form (.vfnmadd231pdEvex256 ⟨[], 1#5, 18#5, 5#3, false, .mem (.base 0#4 (.disp8 1#8)) false⟩) [] ∧
  decode [0x62#8, 0x02#8, 0xED#8, 0xC7#8, 0xAC#8, 0xCD#8] =
    .form (.vfnmadd213pdEvex512 ⟨[], 25#5, 18#5, 7#3, true, .reg 29#5⟩) [] ∧
  decode [0x62#8, 0xF2#8, 0xED#8, 0x78#8, 0xBC#8, 0xCB#8] =
    .form (.vfnmadd231pdEvex512 ⟨[], 1#5, 2#5, 0#3, false, .regRound 3#5 .towardZero⟩) []

/-! ## The machine -/

/-- Where the bytes at `pc` decode to an instruction, a step is exactly that instruction's execution:
nothing else happens around it (R84, R197). -/
def Obligations.StepRunsDecodedInstruction : Prop :=
  ∀ (s : State) (i : Instr) (rest : List Byte), s.is32 = false → decode s.fetch = .form i rest → step s = exec i s

/-- An instruction placed at `pc` is what the next step runs, and placing it changes no other byte of the
program text (R44, R60). The model's choice: that a program is placed from outside (log entry 9), and that a
fetch goes on over the top of the address space (log entry 8; R28 and D16 do not model such a fetch). -/
def Obligations.StepRunsPlacedInstruction : Prop :=
  ∀ (s : State) (i : Instr), i.wellFormed = true → s.is32 = false → Memory.wf s.text →
    step (s.placeAtPc (encode i)) = exec i (s.placeAtPc (encode i)) ∧
    ∀ x, (∀ j, j < i.len → (s.pc.toNat + j) % 2 ^ 64 ≠ x) →
      Memory.read (s.placeAtPc (encode i)).text x = Memory.read s.text x

/-- In 64-bit mode, on a configuration that keeps the relation of R7's defaults, a step refuses only
bytes that are not a form of the group (R84, R199). -/
def Obligations.StepRefusesOnlyOtherBytes : Prop :=
  ∀ (s : State) (r : Refusal), s.mode = .long64 → s.cfg.consistent = true → step s = .refused r →
    r = .notThisGroup s.pc ∧ decode s.fetch = .notThisGroup

/-- The refusals, each by name: the decoder in a 32-bit mode (R81); 16-bit addressing in a 32-bit mode (R81);
a vector register, a general register or a vector length that does not exist in this mode or
configuration (R20, R27, R81). The model's choice: log entries 12, 13 and 20. -/
def Obligations.RefusalsByName : Prop :=
  (∀ s : State, s.mode = .prot32 ∨ s.mode = .compat32 → step s = .refused .decode32) ∧
  (∀ (i : Instr) (s : State), i.wellFormed = true → ¬NotEnabled i s → s.cr0.getLsbD 3 = false →
    let is32 : Prop := s.mode = .prot32 ∨ s.mode = .compat32
    ((∃ r, ((formOf i).dest = r ∨ (formOf i).src2 = r ∨ (formOf i).src3 = .reg r ∨ ∃ rc, (formOf i).src3 = .regRound r rc) ∧
        (if is32 then 8 else s.cfg.nvec.count) ≤ r.toNat) →
      exec i s = .refused .noSuchRegister) ∧
    (is32 → (∃ a b, (formOf i).src3 = .mem a b ∧ ((∃ r d, a = .base r d ∧ 8 ≤ r.toNat) ∨
        (∃ sc x r d, a = .sib sc x r d ∧ (8 ≤ x.toNat ∨ 8 ≤ r.toNat)) ∨ ∃ sc x d, a = .sibNoBase sc x d ∧ 8 ≤ x.toNat)) →
      exec i s = .refused .noSuchRegister) ∧
    (s.cfg.maxvl.bits < bitsOf (formOf i).vl → exec i s = .refused .noSuchRegister) ∧
    ((formOf i).named s = true → is32 → (∃ a b, (formOf i).src3 = .mem a b) →
      LegacyPrefix.addrSize ∈ (formOf i).pfx → exec i s = .refused .addr16))

/-- Every step, and every execution, keeps the invariant of the state: both memories canonical, no bit
above `MAXVL` or `KW`, no register that does not exist, reserved `MXCSR` bits 0 (R20, R22, R23, R25, R28). -/
def Obligations.ExecutionKeepsInvariant : Prop :=
  ∀ s t : State, s.Inv → (step s = .next t → t.Inv) ∧ ∀ i : Instr, exec i s = .next t → t.Inv

/-- The state after reset meets the invariant. The reset state is the model's choice: it takes the values
of log entries 1 to 5, and R190 leaves the values after reset unspecified. -/
def Obligations.ResetMeetsInvariant : Prop := State.reset.Inv

/-- The reset state holds the values of the table of R35, and its configuration every default of R7, under which
`MAXVL` and `NVEC` follow `AVX512F`. The model's choice: to take that table (log entry 1; R190 leaves the values after
reset unspecified), and to reset with nothing mapped and no program text (log entries 9 and 16). -/
def Obligations.ResetHoldsPowerUpTable : Prop :=
  (∀ i : Fin 32, State.reset.v[i] = 0#512) ∧ (∀ i : Fin 8, State.reset.k[i] = 0#64) ∧
  (∀ i : Fin 16, i.val ≠ 2 → State.reset.g[i] = 0#64) ∧ State.reset.mxcsr = 0x00001F80#32 ∧
  State.reset.pc = 0x0000FFF0#64 ∧ State.reset.segs.cs.base = 0xFFFF0000#32 ∧ State.reset.mode = .real ∧
  State.reset.cr0 = 0x60000010#64 ∧ State.reset.cr4 = 0#64 ∧ State.reset.xcr0 = 1#64 ∧
  State.reset.fsBase = 0#64 ∧ State.reset.gsBase = 0#64 ∧ State.reset.mem = [] ∧ State.reset.text = [] ∧
  State.reset.cfg = Config.defaultFor true ∧
  ∀ avx512f : Bool,
    let c := Config.defaultFor avx512f
    c.fma = true ∧ c.avx512f = avx512f ∧ c.avx512vl = true ∧ c.maxvl.bits = (if avx512f then 512 else 256) ∧
    c.nvec.count = (if avx512f then 32 else 16) ∧ c.kw.bits = 64 ∧
    nanRoles c.nanOrder = [.factor1, .factor2, .addend] ∧ c.invalidOnInfZeroQNaN = false ∧
    c.faultSuppression = false ∧ c.alignmentCheck = false ∧ c.regions = []

/-- In the reset state every form raises `#UD`, executed or fetched at the reset `pc` (R190, R35; the
values are those of log entry 1). -/
def Obligations.EveryFormUndefinedAtReset : Prop :=
  ∀ i : Instr, i.wellFormed = true →
    exec i State.reset = raise .ud State.reset ∧
    step (State.reset.placeAtPc (encode i)) = raise .ud (State.reset.placeAtPc (encode i))

/-- The frame of R34, for all fifteen forms: completion writes the destination register, `MXCSR` flags
(by OR) and `pc`; a fault writes at most `MXCSR` flags; nothing else changes. -/
def Obligations.ExecutionFrame : Prop :=
  ∀ (i : Instr) (s : State),
    (∀ t, exec i s = .next t → Frame (formOf i).dest s t ∧ t.pc = s.pcAfter i.len ∧
      ∃ f : Flags, t.mxcsr = s.mxcsr ||| f.bits) ∧
    (∀ e a, exec i s = .fault (.raised e a) → ∃ f : Flags, a = { s with mxcsr := s.mxcsr ||| f.bits })

/-- Exceptions are precise: a step that faults leaves `pc`, every register and every byte as they were,
and only a SIMD floating-point exception (`#XM`, or `#UD` with `CR4.OSXMMEXCPT` = 0) may have set flags
of `MXCSR` (R174, R175). -/
def Obligations.FaultsArePrecise : Prop :=
  ∀ (s : State) (e : Exception) (a : State), step s = .fault (.raised e a) →
    a = { s with mxcsr := a.mxcsr } ∧ a.mxcsr &&& ~~~mxcsrFlagBits = s.mxcsr &&& ~~~mxcsrFlagBits ∧
    s.mxcsr &&& a.mxcsr = s.mxcsr ∧
    (a ≠ s → e = .xm ∧ s.cr4.getLsbD 10 = true ∨ e = .ud ∧ s.cr4.getLsbD 10 = false)

/-! ## Results and completion -/

/-- The three VEX.128 forms complete with their two lanes, unless a flag is unmasked (R130, R131, R132,
R133, R134). -/
def Obligations.Vex128FormsComplete : Prop :=
  ∀ (o : VexOps) (s : State) (s3 : VReg), s.vexReady = true →
    let d := o.dest.setWidth 5
    let D := laneOf (s.readV d)
    let S2 := laneOf (s.readV (o.src2.setWidth 5))
    let S3 := laneOf s3
    (OperandsRead (.vfnmadd132pdVex128 o) s s3 → CompletesUnlessUnmasked (exec (.vfnmadd132pdVex128 o) s) s d 2 o.len
      (fun _ => true) false fun j => fnmaddMxcsr s (D j) (S3 j) (S2 j)) ∧
    (OperandsRead (.vfnmadd213pdVex128 o) s s3 → CompletesUnlessUnmasked (exec (.vfnmadd213pdVex128 o) s) s d 2 o.len
      (fun _ => true) false fun j => fnmaddMxcsr s (S2 j) (D j) (S3 j)) ∧
    (OperandsRead (.vfnmadd231pdVex128 o) s s3 → CompletesUnlessUnmasked (exec (.vfnmadd231pdVex128 o) s) s d 2 o.len
      (fun _ => true) false fun j => fnmaddMxcsr s (S2 j) (S3 j) (D j))

/-- The three VEX.256 forms complete with their four lanes, unless a flag is unmasked (R130, R131, R135,
R136, R137). -/
def Obligations.Vex256FormsComplete : Prop :=
  ∀ (o : VexOps) (s : State) (s3 : VReg), s.vexReady = true →
    let d := o.dest.setWidth 5
    let D := laneOf (s.readV d)
    let S2 := laneOf (s.readV (o.src2.setWidth 5))
    let S3 := laneOf s3
    (OperandsRead (.vfnmadd132pdVex256 o) s s3 → CompletesUnlessUnmasked (exec (.vfnmadd132pdVex256 o) s) s d 4 o.len
      (fun _ => true) false fun j => fnmaddMxcsr s (D j) (S3 j) (S2 j)) ∧
    (OperandsRead (.vfnmadd213pdVex256 o) s s3 → CompletesUnlessUnmasked (exec (.vfnmadd213pdVex256 o) s) s d 4 o.len
      (fun _ => true) false fun j => fnmaddMxcsr s (S2 j) (D j) (S3 j)) ∧
    (OperandsRead (.vfnmadd231pdVex256 o) s s3 → CompletesUnlessUnmasked (exec (.vfnmadd231pdVex256 o) s) s d 4 o.len
      (fun _ => true) false fun j => fnmaddMxcsr s (S2 j) (S3 j) (D j))

/-- The three EVEX.128 forms complete with their two lanes under the write mask, unless a flag of an
active lane is unmasked (R140, R143, R144, R145, R146, R147). -/
def Obligations.Evex128FormsComplete : Prop :=
  ∀ (o : EvexOps EvexSrc) (s : State) (s3 : VReg), s.evexReady .v128 = true →
    let D := laneOf (s.readV o.dest)
    let S2 := laneOf (s.readV o.src2)
    let S3 := laneOf s3
    let len := o.lenWith EvexSrc.len
    (OperandsRead (.vfnmadd132pdEvex128 o) s s3 → CompletesUnlessUnmasked (exec (.vfnmadd132pdEvex128 o) s) s o.dest 2 len
      (activeUnder s o.mask) o.zeroing fun j => fnmaddMxcsr s (D j) (S3 j) (S2 j)) ∧
    (OperandsRead (.vfnmadd213pdEvex128 o) s s3 → CompletesUnlessUnmasked (exec (.vfnmadd213pdEvex128 o) s) s o.dest 2 len
      (activeUnder s o.mask) o.zeroing fun j => fnmaddMxcsr s (S2 j) (D j) (S3 j)) ∧
    (OperandsRead (.vfnmadd231pdEvex128 o) s s3 → CompletesUnlessUnmasked (exec (.vfnmadd231pdEvex128 o) s) s o.dest 2 len
      (activeUnder s o.mask) o.zeroing fun j => fnmaddMxcsr s (S2 j) (S3 j) (D j))

/-- The three EVEX.256 forms complete with their four lanes under the write mask, unless a flag of an
active lane is unmasked (R140, R143, R144, R148, R149, R150). -/
def Obligations.Evex256FormsComplete : Prop :=
  ∀ (o : EvexOps EvexSrc) (s : State) (s3 : VReg), s.evexReady .v256 = true →
    let D := laneOf (s.readV o.dest)
    let S2 := laneOf (s.readV o.src2)
    let S3 := laneOf s3
    let len := o.lenWith EvexSrc.len
    (OperandsRead (.vfnmadd132pdEvex256 o) s s3 → CompletesUnlessUnmasked (exec (.vfnmadd132pdEvex256 o) s) s o.dest 4 len
      (activeUnder s o.mask) o.zeroing fun j => fnmaddMxcsr s (D j) (S3 j) (S2 j)) ∧
    (OperandsRead (.vfnmadd213pdEvex256 o) s s3 → CompletesUnlessUnmasked (exec (.vfnmadd213pdEvex256 o) s) s o.dest 4 len
      (activeUnder s o.mask) o.zeroing fun j => fnmaddMxcsr s (S2 j) (D j) (S3 j)) ∧
    (OperandsRead (.vfnmadd231pdEvex256 o) s s3 → CompletesUnlessUnmasked (exec (.vfnmadd231pdEvex256 o) s) s o.dest 4 len
      (activeUnder s o.mask) o.zeroing fun j => fnmaddMxcsr s (S2 j) (S3 j) (D j))

/-- The three EVEX.512 forms without embedded rounding complete with their eight lanes under the write
mask, unless a flag of an active lane is unmasked (R140, R143, R144, R151, R152, R153). -/
def Obligations.Evex512FormsComplete : Prop :=
  ∀ (o : EvexOps EvexSrc512) (s : State) (s3 : VReg), s.evexReady .v512 = true →
    (∀ r rc, o.src3 ≠ .regRound r rc) →
    let D := laneOf (s.readV o.dest)
    let S2 := laneOf (s.readV o.src2)
    let S3 := laneOf s3
    let len := o.lenWith EvexSrc512.len
    (OperandsRead (.vfnmadd132pdEvex512 o) s s3 → CompletesUnlessUnmasked (exec (.vfnmadd132pdEvex512 o) s) s o.dest 8 len
      (activeUnder s o.mask) o.zeroing fun j => fnmaddMxcsr s (D j) (S3 j) (S2 j)) ∧
    (OperandsRead (.vfnmadd213pdEvex512 o) s s3 → CompletesUnlessUnmasked (exec (.vfnmadd213pdEvex512 o) s) s o.dest 8 len
      (activeUnder s o.mask) o.zeroing fun j => fnmaddMxcsr s (S2 j) (D j) (S3 j)) ∧
    (OperandsRead (.vfnmadd231pdEvex512 o) s s3 → CompletesUnlessUnmasked (exec (.vfnmadd231pdEvex512 o) s) s o.dest 8 len
      (activeUnder s o.mask) o.zeroing fun j => fnmaddMxcsr s (S2 j) (S3 j) (D j))

/-- Embedded rounding suppresses all exceptions: the three EVEX.512 forms complete whatever the masks
of `MXCSR` are, write no flag, and their active lanes hold the masked results under `EVEX.RC`, with DAZ
and FTZ of `MXCSR` (R155). -/
def Obligations.EmbeddedRoundingSuppresses : Prop :=
  ∀ (o : EvexOps EvexSrc512) (s : State) (r : BitVec 5) (rc : RoundMode), s.evexReady .v512 = true →
    o.src3 = .regRound r rc →
    let D := laneOf (s.readV o.dest)
    let S2 := laneOf (s.readV o.src2)
    let S3 := laneOf (s.readV r)
    let len := o.lenWith EvexSrc512.len
    (OperandsRead (.vfnmadd132pdEvex512 o) s (s.readV r) → ∃ t, exec (.vfnmadd132pdEvex512 o) s = .next t ∧
      Completed s t o.dest 8 len (activeUnder s o.mask) o.zeroing (fun j => fnmaddSae s rc (D j) (S3 j) (S2 j)) .none) ∧
    (OperandsRead (.vfnmadd213pdEvex512 o) s (s.readV r) → ∃ t, exec (.vfnmadd213pdEvex512 o) s = .next t ∧
      Completed s t o.dest 8 len (activeUnder s o.mask) o.zeroing (fun j => fnmaddSae s rc (S2 j) (D j) (S3 j)) .none) ∧
    (OperandsRead (.vfnmadd231pdEvex512 o) s (s.readV r) → ∃ t, exec (.vfnmadd231pdEvex512 o) s = .next t ∧
      Completed s t o.dest 8 len (activeUnder s o.mask) o.zeroing (fun j => fnmaddSae s rc (S2 j) (S3 j) (D j)) .none)

/-- An EVEX form whose mask bits are all 0 completes without a flag: under merging the lanes keep their
values, under zeroing the whole destination is 0, and the bits above the vector length are cleared in
both (R154 (a) and (b), R89). -/
def Obligations.AllZeroMaskCompletes : Prop :=
  ∀ (i : Instr) (s : State) (s3 : VReg), (formOf i).evex = true → Enabled i s → OperandsRead i s s3 →
    (formOf i).mask ≠ 0#3 → (∀ j, j < lanesOf (formOf i).vl → (s.readK (formOf i).mask).getLsbD j = false) →
    ∃ t, exec i s = .next t ∧ t.mxcsr = s.mxcsr ∧ t.pc = s.pcAfter i.len ∧ Frame (formOf i).dest s t ∧
      (∀ j, j < lanesOf (formOf i).vl → (formOf i).zeroing = false →
        laneOf (t.readV (formOf i).dest) j = laneOf (s.readV (formOf i).dest) j) ∧
      (∀ j, lanesOf (formOf i).vl ≤ j → j < 8 → laneOf (t.readV (formOf i).dest) j = 0#64) ∧
      ((formOf i).zeroing = true → t.readV (formOf i).dest = 0#512)

/-! ## Operand 3 in memory -/

/-- What operand 3 reads as: the register; or lane `j` is the 8 bytes at `lin + 8j`, low byte first, for
every lane that is read; or the broadcast element in every lane (R45, R142). -/
def Obligations.ThirdOperandValue : Prop :=
  ∀ (i : Instr) (s : State) (s3 : VReg), (formOf i).thirdSource s = .ok s3 →
    (∀ r, (formOf i).src3 = .reg r → s3 = s.readV r) ∧
    (∀ r rc, (formOf i).src3 = .regRound r rc → s3 = s.readV r) ∧
    (∀ a, (formOf i).src3 = .mem a false → ∀ j, j < lanesOf (formOf i).vl → ∀ k, k < 8 →
      (formOf i).accesses s false (8 * j + k) →
      Memory.read s.mem ((formOf i).operandAddr s a false (8 * j + k)).toNat =
        some ((laneOf s3 j).extractLsb' (8 * k) 8)) ∧
    (∀ a, (formOf i).src3 = .mem a true → ∀ j, j < lanesOf (formOf i).vl → ∀ k, k < 8 →
      (formOf i).accesses s true k →
      Memory.read s.mem ((formOf i).operandAddr s a true k).toNat = some ((laneOf s3 j).extractLsb' (8 * k) 8))

/-- When operand 3 can be read: a memory form whose accessed bytes are all readable reads it, unless an
alignment check applies; no other byte matters, so a fault of a suppressed lane does not happen, and
without `cfg.FaultSuppression` any unreadable byte faults whatever the mask is (R47, R142). -/
def Obligations.MemoryFaultsFollowAccess : Prop :=
  ∀ (i : Instr) (s : State) (a : MemAddr) (b : Bool), (formOf i).src3 = .mem a b → s.cfg.alignmentCheck = false →
    ((∃ s3, (formOf i).thirdSource s = .ok s3) ↔
      ∀ j, j < (formOf i).operandBytes b → (formOf i).accesses s b j → (formOf i).byteReadable s a b j)

/-- What the answers of `cfg.Mem` other than bytes do (R52), each leaving the state as it is: `#GP(0)` or `#SS(0)` chosen
by the platform; and `#PF` with the lowest address that faults and the code of R170 (P, W/R = 0, U/S, RSVD,
I/D = 0), also for a byte outside the map. The model's choice: the form in which `cfg.Mem` is held (log entry 16)
and that a platform's fault stands before a `#PF` of the same operand (log entry 17). -/
def Obligations.MemoryFaultReport : Prop :=
  ∀ (i : Instr) (s : State) (a : MemAddr) (b : Bool) (j : Nat), Enabled i s → (formOf i).src3 = .mem a b →
    j < (formOf i).operandBytes b → (formOf i).accesses s b j →
    let n := (formOf i).operandBytes b
    let addr := (formOf i).operandAddr s a b
    let allAccessed (ok : Nat → Prop) : Prop := ∀ l, l < n → (formOf i).accesses s b l → ok l
    let reports (present reserved : Bool) : Prop :=
      ∃ code : BitVec 32, exec i s = raise (.pf code (addr j)) s ∧ (Exception.pf code (addr j)).vector = 14 ∧
        code.getLsbD 0 = present ∧ code.getLsbD 1 = false ∧ code.getLsbD 2 = (s.cpl == 3#2) ∧
        code.getLsbD 3 = reserved ∧ code.getLsbD 4 = false
    (allAccessed (fun l => s.segmentOk (operandSeg s (formOf i).pfx a) ((formOf i).effAddr s a b) l = true) →
      allAccessed (fun l => (addr l).toNat < (addr j).toNat → s.platformFault n (addr l) = none) →
      (s.denialAt n (addr j) = some .generalProtection → exec i s = raise .gp s) ∧
      (s.denialAt n (addr j) = some .stackFault → exec i s = raise .ss s)) ∧
    (allAccessed (fun l => (formOf i).byteAddressable s a b l) →
      allAccessed (fun l => (addr l).toNat < (addr j).toNat → (formOf i).byteReadable s a b l) →
      (∀ present reserved, s.denialAt n (addr j) = some (.pageFault present reserved) → reports present reserved) ∧
      (s.denialAt n (addr j) = none → Memory.read s.mem (addr j).toNat = none → reports false false))

/-- A memory operand any byte of which is at a non-canonical address raises `#SS(0)` if the segment is
SS and `#GP(0)` otherwise, in 64-bit mode, and no state changes (R51). -/
def Obligations.NonCanonicalOperandFaults : Prop :=
  (Exception.ss).errorCode = some 0#32 ∧ (Exception.gp).errorCode = some 0#32 ∧
  ∀ (i : Instr) (s : State) (a : MemAddr) (b : Bool) (j : Nat), s.mode = .long64 → Enabled i s →
    (formOf i).src3 = .mem a b → j < (formOf i).operandBytes b → (formOf i).accesses s b j →
    ¬CanonicalAddr s.cfg.linearBits ((formOf i).operandAddr s a b j) →
    exec i s = raise (if operandSeg s (formOf i).pfx a = .ss then .ss else .gp) s

/-- Outside the limit, or, but for SS, in a segment that cannot be read, a memory operand of a 32-bit
mode raises `#SS(0)` or `#GP(0)` by its segment (R168, R169 (a); log entry 21). -/
def Obligations.SegmentLimitFaults : Prop :=
  ∀ (i : Instr) (s : State) (a : MemAddr) (b : Bool) (j : Nat), s.is32 = true → Enabled i s →
    (formOf i).src3 = .mem a b → j < (formOf i).operandBytes b → (formOf i).accesses s b j →
    let seg := operandSeg s (formOf i).pfx a
    let offset := (((formOf i).effAddr s a b).toNat + j) % 2 ^ 32
    ((s.segs.get seg).limit.toNat < offset → exec i s = raise (if seg = .ss then .ss else .gp) s) ∧
    (seg ≠ .ss → (s.segs.get seg).readable = false → exec i s = raise .gp s)

/-- `#AC(0)`: never with the default `cfg.AlignmentCheck` = false; with it true, a readable operand whose
linear address is not a multiple of its size raises it exactly when `CR0.AM` = 1, `EFLAGS.AC` = 1 and
`CPL` = 3 (R171). That this holds under `cfg.FaultSuppression` too, also where the mask leaves no byte to be
accessed and R142 reads nothing, is the model's choice (log entry 18, DEDUCED). -/
def Obligations.AlignmentCheckFaults : Prop :=
  (Exception.ac).vector = 17 ∧ (Exception.ac).errorCode = some 0#32 ∧ Config.default.alignmentCheck = false ∧
  ∀ (i : Instr) (s : State),
    (∀ t, exec i s = .fault (.raised .ac t) → s.cfg.alignmentCheck = true) ∧
    (∀ (a : MemAddr) (b : Bool), Enabled i s → (formOf i).src3 = .mem a b → s.cfg.alignmentCheck = true →
      (∀ j, j < (formOf i).operandBytes b → (formOf i).accesses s b j → (formOf i).byteReadable s a b j) →
      (s.cr0.getLsbD 18 = true ∧ s.eflagsAC = true ∧ s.cpl = 3#2 ∧
          ((formOf i).operandAddr s a b 0).toNat % (formOf i).operandBytes b ≠ 0 ↔
        exec i s = raise .ac s))

/-- The segment of a memory operand: the last override, else the default, SS for base `rsp` or `rbp` and
DS otherwise (R75, R76, R82, D24). In 64-bit mode the ES, CS, SS and DS overrides change nothing (R61, R168): that an FS
or GS override still counts before a later one of these is the model's choice (log entry 14, PRESUMED). -/
def Obligations.OperandSegment : Prop :=
  ∀ (s : State) (p q : List LegacyPrefix) (r : SegReg) (a : MemAddr),
    (s.is32 = false → (r = .fs ∨ r = .gs) → .seg .fs ∉ q → .seg .gs ∉ q → operandSeg s (p ++ .seg r :: q) a = r) ∧
    (s.is32 = false → .seg .fs ∉ q → .seg .gs ∉ q → operandSeg s q a = defaultSeg a) ∧
    (s.is32 = true → (∀ x, .seg x ∉ q) → operandSeg s (p ++ .seg r :: q) a = r ∧ operandSeg s q a = defaultSeg a) ∧
    (∀ b d, a = .base b d → defaultSeg a = if b = 5#4 then .ss else .ds) ∧
    (∀ sc x b d, a = .sib sc x b d → defaultSeg a = if b = 4#4 ∨ b = 5#4 then .ss else .ds) ∧
    (∀ sc x d, a = .sibNoBase sc x d → defaultSeg a = .ds) ∧ (∀ d, a = .ripRel d → defaultSeg a = .ds)

/-- The linear address of a byte of the operand: `ea` plus the FS or GS base in 64-bit mode, modulo 2^64;
base plus `ea` modulo 2^32 in a 32-bit mode (R42, R43). -/
def Obligations.LinearAddressOfOperand : Prop :=
  ∀ (s : State) (seg : SegReg) (ea : Word) (j : Nat),
    (s.is32 = false → (s.linAddr seg ea j).toNat =
      ((if seg = .fs then s.fsBase.toNat else if seg = .gs then s.gsBase.toNat else 0) + ea.toNat + j) % 2 ^ 64) ∧
    (s.is32 = true → (s.linAddr seg ea j).toNat = ((s.segs.get seg).base.toNat + ea.toNat + j) % 2 ^ 32)

/-- The scaling of a disp8: not scaled in a VEX form, times 16, 32 or 64 by vector length in an EVEX
form, times 8 under broadcast; a disp32 is never scaled, in any addressing form (R79). -/
def Obligations.DisplacementScaling : Prop :=
  ∀ (i : Instr) (s : State) (sc : BitVec 2) (x b : BitVec 4) (d8 : BitVec 8) (d32 : BitVec 32) (bcst : Bool),
    s.is32 = false → LegacyPrefix.addrSize ∉ (formOf i).pfx →
    let n : Nat := if (formOf i).evex = false then 1 else if bcst then 8 else
      match (formOf i).vl with
      | .v128 => 16
      | .v256 => 32
      | .v512 => 64
    (formOf i).effAddr s (.base b (.disp8 d8)) bcst = s.readG b + BitVec.ofInt 64 (d8.toInt * n) ∧
    (formOf i).effAddr s (.base b (.disp32 d32)) bcst = s.readG b + BitVec.ofInt 64 d32.toInt ∧
    (formOf i).effAddr s (.sib sc x b (.disp8 d8)) bcst =
      (formOf i).effAddr s (.sib sc x b .none) bcst + BitVec.ofInt 64 (d8.toInt * n) ∧
    (formOf i).effAddr s (.sib sc x b (.disp32 d32)) bcst =
      (formOf i).effAddr s (.sib sc x b .none) bcst + BitVec.ofInt 64 d32.toInt ∧
    (formOf i).effAddr s (.sibNoBase sc x d32) bcst =
      (formOf i).effAddr s (.sibNoBase sc x 0#32) bcst + BitVec.ofInt 64 d32.toInt ∧
    (formOf i).effAddr s (.ripRel d32) bcst =
      (formOf i).effAddr s (.ripRel 0#32) bcst + BitVec.ofInt 64 d32.toInt

/-- The effective address as an integer: base, index times 1, 2, 4 or 8, displacement, or the address of
the next instruction, summed modulo 2^64, or 2^32 with a 32-bit address size (R58, R75, R76, R77, R80). -/
def Obligations.EffectiveAddressSum : Prop :=
  ∀ (i : Instr) (s : State) (a : MemAddr) (bcst : Bool),
    let n := dispScale (formOf i).evex (formOf i).vl bcst
    let index (sc : BitVec 2) (x : BitVec 4) : Int := if x = 4#4 then 0 else (s.readG x).toNat * 2 ^ sc.toNat
    let sum : Int :=
      match a with
      | .base b d => (s.readG b).toNat + dispInt n d
      | .sib sc x b d => (s.readG b).toNat + index sc x + dispInt n d
      | .sibNoBase sc x d => index sc x + d.toInt
      | .ripRel d => if s.is32 then d.toInt else s.pc.toNat + i.len + d.toInt
    (((formOf i).effAddr s a bcst).toNat : Int) =
      sum % (if s.is32 = true ∨ LegacyPrefix.addrSize ∈ (formOf i).pfx then 2 ^ 32 else 2 ^ 64)

/-! ## Exceptions -/

/-- `#UD` before any operand is read, under R166 (a), (b), (c), (e) or (f), for every form; otherwise a
well-formed instruction raises `#UD` only for an unmasked SIMD floating-point exception with
`CR4.OSXMMEXCPT` = 0 (R166 (i)). -/
def Obligations.UndefinedOpcodeConditions : Prop :=
  ∀ (i : Instr) (s : State), i.wellFormed = true →
    (NotEnabled i s → exec i s = raise .ud s) ∧
    (¬NotEnabled i s → ∀ t, exec i s = .fault (.raised .ud t) → s.cr4.getLsbD 10 = false ∧
      ∃ F : Flags, F.unmasked (mxcsrMasks s.mxcsr) = true ∧ t = { s with mxcsr := s.mxcsr ||| F.bits })

/-- `#NM`, vector 7, no error code: raised exactly when `CR0.TS` = 1 and the `#UD` conditions are false,
before any operand is read (R167). -/
def Obligations.DeviceNotAvailable : Prop :=
  (Exception.nm).vector = 7 ∧ (Exception.nm).errorCode = none ∧
  ∀ (i : Instr) (s : State), i.wellFormed = true →
    (¬NotEnabled i s ∧ s.cr0.getLsbD 3 = true ↔ exec i s = raise .nm s)

/-- The unmasked response in its two stages: an unmasked IE or DE sets only the operand flags, else an
unmasked OE, UE or PE sets all flags; the SIMD exception is `#XM` (vector 19, no error code) when
`CR4.OSXMMEXCPT` = 1 and `#UD` when it is 0; nothing but `MXCSR` flags changes; under embedded rounding
the form completes instead (R162, R163). -/
def Obligations.UnmaskedResponse : Prop :=
  (Exception.xm).vector = 19 ∧ (Exception.xm).errorCode = none ∧
  ∀ (i : Instr) (s : State) (s3 : VReg), Enabled i s → OperandsRead i s s3 →
    ((formOf i).sae = true → ∃ t, exec i s = .next t) ∧ ((formOf i).sae = false →
    let F := activeFlags (lanesOf (formOf i).vl) ((formOf i).active s) ((formOf i).computeLane s s3)
    let Fpre : Flags := ⟨F.ie, F.de, false, false, false⟩
    let Fpost : Flags := ⟨false, false, F.oe, F.ue, F.pe⟩
    let simd : Exception := if s.cr4.getLsbD 10 then .xm else .ud
    (Fpre.unmasked (mxcsrMasks s.mxcsr) = true →
      exec i s = raise simd { s with mxcsr := s.mxcsr ||| Fpre.bits }) ∧
    (Fpre.unmasked (mxcsrMasks s.mxcsr) = false → Fpost.unmasked (mxcsrMasks s.mxcsr) = true →
      exec i s = raise simd { s with mxcsr := s.mxcsr ||| F.bits }))

/-- Under `CleanEntry`, with the feature flags set, no form raises `#UD` by its enables or `#NM`; with
`DefaultMXCSR` too none raises `#XM` or `#UD` at all, and a register form completes (R191, R192). -/
def Obligations.CleanEntryExecutes : Prop :=
  ∀ (i : Instr) (s : State), i.wellFormed = true → s.cleanEntry = true → s.cfg.consistent = true →
    s.cfg.fma = true → s.cfg.avx512f = true → s.cfg.avx512vl = true →
    ¬NotEnabled i s ∧ (∀ t, exec i s ≠ .fault (.raised .nm t)) ∧
    (s.defaultMXCSR = true →
      (∀ t, exec i s ≠ .fault (.raised .xm t)) ∧ (∀ t, exec i s ≠ .fault (.raised .ud t)) ∧
      ((∀ a b, (formOf i).src3 ≠ .mem a b) → ∃ t, exec i s = .next t))

/-! ## What an instruction does not depend on -/

/-- Flags already set never change a result or a trap: setting flags of `MXCSR` beforehand only leaves
them set afterwards, and no form writes a control bit (R194). -/
def Obligations.FlagsNeverFeedBack : Prop :=
  ∀ (i : Instr) (s : State) (x : BitVec 32), x &&& ~~~0x3F#32 = 0#32 →
    exec i { s with mxcsr := s.mxcsr ||| x } = mapOut (fun t => { t with mxcsr := t.mxcsr ||| x }) (exec i s) ∧
    ∀ t, exec i s = .next t → t.mxcsr &&& ~~~0x3B#32 = s.mxcsr &&& ~~~0x3B#32

/-- Bits `MAXVL-1:VL` of the registers are never read: two states that agree below the vector length
give the same destination, flags and faults; and those bits of the destination become 0 (R22). -/
def Obligations.UpperBitsNeverRead : Prop :=
  ∀ (i : Instr) (s : State) (v' : Vector VReg 32),
    (∀ r : Fin 32, ∀ j, j < lanesOf (formOf i).vl → laneOf v'[r] j = laneOf s.v[r] j) →
    (∀ t, exec i s = .next t →
      (∀ j, lanesOf (formOf i).vl ≤ j → j < 8 → laneOf (t.readV (formOf i).dest) j = 0#64) ∧
      ∃ t', exec i { s with v := v' } = .next t' ∧
        t'.readV (formOf i).dest = t.readV (formOf i).dest ∧ t'.mxcsr = t.mxcsr ∧ t'.pc = t.pc) ∧
    (∀ e t, exec i s = .fault (.raised e t) → exec i { s with v := v' } = .fault (.raised e { t with v := v' }))

/-- Only EVEX forms read an opmask register, and only its bits `KL-1:0`; no form writes one (R24). -/
def Obligations.OpmaskHighBitsNeverRead : Prop :=
  ∀ (i : Instr) (s : State) (k' : Vector Word 8),
    ((formOf i).evex = true → ∀ r : Fin 8, ∀ j, j < lanesOf (formOf i).vl → k'[r].getLsbD j = s.k[r].getLsbD j) →
    exec i { s with k := k' } = mapOut (fun t => { t with k := k' }) (exec i s)

/-- A register form reads no general register, no segment, no memory and no privilege level: changing
them changes nothing in what it does (R27, R47, R179). -/
def Obligations.RegisterFormsReadNoMemory : Prop :=
  ∀ (i : Instr) (s : State) (g : Vector Word 16) (fs gs : Word) (segs : Segments) (mem : List Host.Cell)
    (ac : Bool) (cpl : BitVec 2), (∀ a b, (formOf i).src3 ≠ .mem a b) →
    let u (t : State) : State :=
      { t with g := g, fsBase := fs, gsBase := gs, segs := segs, mem := mem, eflagsAC := ac, cpl := cpl }
    exec i (u s) = mapOut u (exec i s)

/-- The forms execute the same at every privilege level: only `#AC` and the permissions inside the memory
oracle, with the U/S bit of a `#PF` code, read `CPL` (R179). -/
def Obligations.PrivilegeIndependent : Prop :=
  ∀ (i : Instr) (s : State) (cpl : BitVec 2), s.cfg.alignmentCheck = false →
    (∀ r ∈ s.cfg.regions, r.levels.getLsbD cpl.toNat = r.levels.getLsbD s.cpl.toNat) →
    ((∀ code addr t, exec i s ≠ .fault (.raised (.pf code addr) t)) →
      exec i { s with cpl := cpl } = mapOut (fun t => { t with cpl := cpl }) (exec i s)) ∧
    (∀ code addr t, exec i s = .fault (.raised (.pf code addr) t) → ∃ code',
      exec i { s with cpl := cpl } = .fault (.raised (.pf code' addr) { t with cpl := cpl }) ∧
        code' &&& ~~~4#32 = code &&& ~~~4#32)

/-- The VEX and the unmasked EVEX encoding of one operation have the same effect, but for `pc`, which
moves on by one byte more (R90). A RIP-relative or disp8 operand is left out: its address depends on the
encoding (R77, R79). -/
def Obligations.VexAndEvexAgree : Prop :=
  ∀ (m : Mnem) (o : VexOps) (src : EvexSrc) (s : State),
    (∃ r, o.src3 = .reg r ∧ src = .reg (r.setWidth 5)) ∨
      (∃ a, o.src3 = .mem a ∧ src = .mem a false ∧ (∀ d, a ≠ .ripRel d) ∧
        (∀ b d, a ≠ .base b (.disp8 d)) ∧ ∀ sc x b d, a ≠ .sib sc x b (.disp8 d)) →
    o.wellFormed = true → o.len < 15 →
    s.vexReady = true →
    let o' : EvexOps EvexSrc := ⟨o.pfx, o.dest.setWidth 5, o.src2.setWidth 5, 0#3, false, src⟩
    let agree (iv ie : Instr) : Prop :=
      (∀ t, exec iv s = .next t → exec ie s = .next { t with pc := s.pcAfter (o.len + 1) }) ∧
      (∀ f, exec iv s = .fault f → exec ie s = .fault f) ∧ (∀ r, exec iv s = .refused r → exec ie s = .refused r)
    (s.evexReady .v128 = true → agree (vexInstr m 0#1 o) (evexInstr128 m o')) ∧
    (s.evexReady .v256 = true → agree (vexInstr m 1#1 o) (evexInstr256 m o'))

/-! ## Lane numerics -/

/-- DAZ: each denormal input is replaced by the zero of its sign before anything else and does not count
as a denormal; without DAZ nothing is replaced (R105). -/
def Obligations.DenormalsAreZeros : Prop :=
  ∀ (cfg : Config) (x y z : Lane) (rc : RoundMode) (ftz : Bool) (m : Masks),
    let c (v : Lane) : Lane := if isDenormal v then v &&& 0x8000000000000000#64 else v
    fnmadd64 cfg x y z rc true ftz m = fnmadd64 cfg (c x) (c y) (c z) rc false ftz m ∧
    (fnmadd64 cfg x y z rc true ftz m).flags.de = false ∧
    fnmadd64 cfg x y z rc false ftz m = fnmaddCore cfg x y z rc ftz m

/-- A NaN operand: the result is the first NaN in the order of `cfg.NaNOrder` (by default `x`, `y`, `z`),
quieted, sign and payload kept; IE exactly for an SNaN, or, where `cfg.InvalidOnInfZeroQNaN` says so, for infinity
times zero with a QNaN addend; and no other flag (R106, R107). -/
def Obligations.NaNOperandResult : Prop :=
  ∀ (cfg : Config) (x y z n : Lane) (rc : RoundMode) (daz ftz : Bool) (m : Masks) (before after : List Lane),
    (nanRoles cfg.nanOrder).map (laneInput x y z) = before ++ n :: after → isNaN n = true →
    (∀ v ∈ before, isNaN v = false) →
    (fnmadd64 cfg x y z rc daz ftz m).value = some (n ||| 0x0008000000000000#64) ∧
    ((fnmadd64 cfg x y z rc daz ftz m).flags.ie = true ↔
      isSNaN x = true ∨ isSNaN y = true ∨ isSNaN z = true ∨ cfg.invalidOnInfZeroQNaN = true ∧ isQNaN z = true ∧
        (isInf x = true ∧ isZero (dazReplace daz y) = true ∨ isZero (dazReplace daz x) = true ∧ isInf y = true)) ∧
    (fnmadd64 cfg x y z rc daz ftz m).flags.de = false ∧ (fnmadd64 cfg x y z rc daz ftz m).flags.oe = false ∧
    (fnmadd64 cfg x y z rc daz ftz m).flags.ue = false ∧ (fnmadd64 cfg x y z rc daz ftz m).flags.pe = false ∧
    (nanRoles Config.default.nanOrder).map (laneInput x y z) = [x, y, z]

/-- Invalid operations: infinity times zero, or infinity minus infinity, of operands that are no NaN
gives the QNaN indefinite with IE alone; with a QNaN addend infinity times zero gives that QNaN, and IE
as `cfg.InvalidOnInfZeroQNaN` says, default false (R107). -/
def Obligations.InvalidOperationResult : Prop :=
  Config.default.invalidOnInfZeroQNaN = false ∧
  ∀ (cfg : Config) (x y z : Lane) (rc : RoundMode) (daz ftz : Bool) (m : Masks),
    isNaN x = false → isNaN y = false →
    (isNaN z = false → Invalid (dazReplace daz x) (dazReplace daz y) (dazReplace daz z) →
      fnmadd64 cfg x y z rc daz ftz m = ⟨some 0xFFF8000000000000#64, ⟨true, false, false, false, false⟩⟩) ∧
    (isQNaN z = true → (isInf x = true ∧ isZero (dazReplace daz y) = true ∨ isZero (dazReplace daz x) = true ∧ isInf y = true) →
      fnmadd64 cfg x y z rc daz ftz m = ⟨some z, ⟨cfg.invalidOnInfZeroQNaN, false, false, false, false⟩⟩)

/-- Infinite operands of a valid operation: an infinite factor gives the infinity of the negated
product's sign, else an infinite addend gives itself; no OE, UE or PE, and DE for a denormal operand (R108). -/
def Obligations.InfiniteOperandResult : Prop :=
  ∀ (cfg : Config) (x y z : Lane) (rc : RoundMode) (daz ftz : Bool) (m : Masks),
    isNaN x = false → isNaN y = false → isNaN z = false →
    ¬Invalid (dazReplace daz x) (dazReplace daz y) (dazReplace daz z) →
    ((isInf x = true ∨ isInf y = true) → fnmadd64 cfg x y z rc daz ftz m =
      ⟨some (if x.getLsbD 63 = y.getLsbD 63 then 0xFFF0000000000000#64 else 0x7FF0000000000000#64),
        ⟨false, !daz && anyDenormal x y z, false, false, false⟩⟩) ∧
    (isInf x = false → isInf y = false → isInf z = true → fnmadd64 cfg x y z rc daz ftz m =
      ⟨some z, ⟨false, !daz && anyDenormal x y z, false, false, false⟩⟩)

/-- DE is set exactly when DAZ is off, an operand is denormal, none is a NaN and the operation is not
invalid (R106, R107, R109). That this holds for an exact zero result too is the model's choice (log entry 19,
DEDUCED): R110 says that no flag is set there, which the model reads as no further flag. -/
def Obligations.DenormalOperandFlag : Prop :=
  ∀ (cfg : Config) (x y z : Lane) (rc : RoundMode) (daz ftz : Bool) (m : Masks),
    (fnmadd64 cfg x y z rc daz ftz m).flags.de = true ↔
      daz = false ∧ (isDenormal x = true ∨ isDenormal y = true ∨ isDenormal z = true) ∧
        isNaN x = false ∧ isNaN y = false ∧ isNaN z = false ∧ ¬Invalid x y z

/-- The zero of an exact zero result, by the table of R110. That the DE of a denormal operand (R109) stays
set is the model's choice (log entry 19, DEDUCED): R110 says that no flag is set, which the model reads as no
further flag. -/
def Obligations.ExactZeroResult : Prop :=
  ∀ (cfg : Config) (x y z : Lane) (rc : RoundMode) (daz ftz : Bool) (m : Masks),
    let x' := dazReplace daz x
    let y' := dazReplace daz y
    let z' := dazReplace daz z
    let negative := !(x.getLsbD 63 ^^ y.getLsbD 63)
    ExactlyEquals x' y' z' 0 →
    (fnmadd64 cfg x y z rc daz ftz m).flags = ⟨false, !daz && anyDenormal x y z, false, false, false⟩ ∧
    (fnmadd64 cfg x y z rc daz ftz m).value = some (
      if isZero x' = true ∨ isZero y' = true then
        if negative = z.getLsbD 63 then (if negative then 0x8000000000000000#64 else 0#64)
        else (if rc = .down then 0x8000000000000000#64 else 0#64)
      else (if rc = .down then 0x8000000000000000#64 else 0#64))

/-- A result in the normal range is the sign, exponent and fraction of the first rounding of R111, with
PE when it is inexact. -/
def Obligations.NormalResultIsRounded : Prop :=
  ∀ (cfg : Config) (x y z : Lane) (rc : RoundMode) (daz ftz : Bool) (m : Masks) (r e : Int) (sig : Nat) (inexact : Bool),
    ExactlyEquals (dazReplace daz x) (dazReplace daz y) (dazReplace daz z) r → r ≠ 0 →
    FirstRounding rc (decide (r < 0)) r.natAbs sig e inexact → -1022 ≤ e → e < 1024 →
    ∃ v, fnmadd64 cfg x y z rc daz ftz m = ⟨some v, ⟨false, !daz && anyDenormal x y z, false, false, inexact⟩⟩ ∧
      v.getLsbD 63 = decide (r < 0) ∧ ((fpExp v : Nat) : Int) = e + 1023 ∧ fpFrac v + 2 ^ 52 = sig

/-- Overflow, `R >= 2^1024`: masked, OE and PE with the result of the table of R112; unmasked, no result,
OE, and PE only if inexact, and the lane traps. -/
def Obligations.OverflowResponse : Prop :=
  ∀ (cfg : Config) (x y z : Lane) (rc : RoundMode) (daz ftz : Bool) (m : Masks) (r e : Int) (sig : Nat) (inexact : Bool),
    ExactlyEquals (dazReplace daz x) (dazReplace daz y) (dazReplace daz z) r → r ≠ 0 →
    FirstRounding rc (decide (r < 0)) r.natAbs sig e inexact → 1024 ≤ e →
    (m.om = true → fnmadd64 cfg x y z rc daz ftz m =
      ⟨some (match rc with
        | .nearestEven => if 0 < r then 0x7FF0000000000000#64 else 0xFFF0000000000000#64
        | .down => if 0 < r then 0x7FEFFFFFFFFFFFFF#64 else 0xFFF0000000000000#64
        | .up => if 0 < r then 0x7FF0000000000000#64 else 0xFFEFFFFFFFFFFFFF#64
        | .towardZero => if 0 < r then 0x7FEFFFFFFFFFFFFF#64 else 0xFFEFFFFFFFFFFFFF#64),
        ⟨false, !daz && anyDenormal x y z, true, false, true⟩⟩) ∧
    (m.om = false → fnmadd64 cfg x y z rc daz ftz m =
      ⟨none, ⟨false, !daz && anyDenormal x y z, true, false, inexact⟩⟩ ∧
      (fnmadd64 cfg x y z rc daz ftz m).flags.unmasked m = true)

/-- A tiny result, `R < 2^-1022`: unmasked, no result, UE, PE if inexact, and the lane traps; masked with FTZ, the zero of
the sign with UE and PE; masked without FTZ, the value rounded at the exponent of denormals, with UE and
PE exactly if that is inexact (R113, R114). -/
def Obligations.TinyResultResponse : Prop :=
  ∀ (cfg : Config) (x y z : Lane) (rc : RoundMode) (daz ftz : Bool) (m : Masks) (r e : Int) (sig : Nat) (inexact : Bool),
    ExactlyEquals (dazReplace daz x) (dazReplace daz y) (dazReplace daz z) r → r ≠ 0 →
    FirstRounding rc (decide (r < 0)) r.natAbs sig e inexact → e < -1022 →
    let de := !daz && anyDenormal x y z
    let negZero : Lane := if r < 0 then 0x8000000000000000#64 else 0#64
    (m.um = false → fnmadd64 cfg x y z rc daz ftz m = ⟨none, ⟨false, de, false, true, inexact⟩⟩ ∧
      (fnmadd64 cfg x y z rc daz ftz m).flags.unmasked m = true) ∧
    (m.um = true → ftz = true → fnmadd64 cfg x y z rc daz ftz m = ⟨some negZero, ⟨false, de, false, true, true⟩⟩) ∧
    (m.um = true → ftz = false → ∃ m' : Nat, IsRounding rc (decide (r < 0)) r.natAbs (2 ^ 1074) m' ∧ m' ≤ 2 ^ 52 ∧
      fnmadd64 cfg x y z rc daz ftz m = ⟨some (negZero ||| BitVec.ofNat 64 m'),
        ⟨false, de, false, decide (m' * 2 ^ 1074 ≠ r.natAbs), decide (m' * 2 ^ 1074 ≠ r.natAbs)⟩⟩)

/-- PE is set exactly when the returned result differs from the exact `r`, and never for a NaN, an
infinite operand or an exact zero (R115). -/
def Obligations.PrecisionFlagMeansInexact : Prop :=
  ∀ (cfg : Config) (x y z : Lane) (rc : RoundMode) (daz ftz : Bool) (m : Masks) (v : Lane),
    (fnmadd64 cfg x y z rc daz ftz m).value = some v →
    (∀ r, ExactlyEquals (dazReplace daz x) (dazReplace daz y) (dazReplace daz z) r →
      ((fnmadd64 cfg x y z rc daz ftz m).flags.pe = true ↔ ¬(isFinite v = true ∧ fpVal v * 2 ^ 1074 = r)) ∧
      (r = 0 → (fnmadd64 cfg x y z rc daz ftz m).flags.pe = false)) ∧
    ((isFinite x = false ∨ isFinite y = false ∨ isFinite z = false) →
      (fnmadd64 cfg x y z rc daz ftz m).flags.pe = false)

/-- A finite result is correctly rounded: no other finite value is nearer under nearest-even, a tie goes
to the value whose last fraction bit is 0, and a directed mode gives the finite value next to `r` on its
side; all over the whole format, normal and denormal (R103, R111, R113). Flush to zero is the one exception:
with FTZ a result with UE is the zero of the sign of `r` (R114). -/
def Obligations.FiniteResultsAreCorrectlyRounded : Prop :=
  ∀ (cfg : Config) (x y z : Lane) (rc : RoundMode) (daz ftz : Bool) (m : Masks) (v w : Lane) (r : Int),
    ExactlyEquals (dazReplace daz x) (dazReplace daz y) (dazReplace daz z) r →
    (fnmadd64 cfg x y z rc daz ftz m).value = some v → isFinite v = true → isFinite w = true →
    let V := fpVal v * 2 ^ 1074
    let W := fpVal w * 2 ^ 1074
    if ftz = true ∧ (fnmadd64 cfg x y z rc daz ftz m).flags.ue = true then
      v = if r < 0 then 0x8000000000000000#64 else 0#64
    else
      match rc with
      | .nearestEven => (V - r).natAbs ≤ (W - r).natAbs ∧ ((V - r).natAbs = (W - r).natAbs → V = W ∨ fpFrac v % 2 = 0)
      | .down => V ≤ r ∧ (W ≤ r → W ≤ V)
      | .up => r ≤ V ∧ (r ≤ W → V ≤ W)
      | .towardZero => V.natAbs ≤ r.natAbs ∧ 0 ≤ V * r ∧ (W.natAbs ≤ r.natAbs → W.natAbs ≤ V.natAbs)

/-- Which flags stand together: IE excludes all others, OE and UE exclude each other and come with PE
when masked, ZE is never set; IE and DE depend on the operands alone (R116). -/
def Obligations.FlagCombinations : Prop :=
  ∀ (cfg : Config) (x y z : Lane) (rc rc' : RoundMode) (daz ftz ftz' : Bool) (m m' : Masks),
    let f := (fnmadd64 cfg x y z rc daz ftz m).flags
    let f' := (fnmadd64 cfg x y z rc' daz ftz' m').flags
    (f.ie = true → f.de = false ∧ f.oe = false ∧ f.ue = false ∧ f.pe = false) ∧
    (f.oe = true → f.ue = false ∧ (m.om = true → f.pe = true)) ∧ (f.ue = true → m.um = true → f.pe = true) ∧
    f.bits.getLsbD 2 = false ∧ f.ie = f'.ie ∧ f.de = f'.de

/-- Where no operand is a NaN the factors commute, and the signs of both can be flipped (R117). -/
def Obligations.FactorsCommute : Prop :=
  ∀ (cfg : Config) (x y z : Lane) (rc : RoundMode) (daz ftz : Bool) (m : Masks),
    isNaN x = false → isNaN y = false → isNaN z = false →
    fnmadd64 cfg x y z rc daz ftz m = fnmadd64 cfg y x z rc daz ftz m ∧
    fnmadd64 cfg x y z rc daz ftz m = fnmadd64 cfg (flipSign x) (flipSign y) z rc daz ftz m
end

