-- ==== Sys2Proof/Laws/Decode.lean ====
section
/-! SUPPORT. The parts of decoding and encoding, each read back from what the other wrote: prefixes, payload bytes,
ModRM, the memory operand. -/

namespace Sys2Proof

/-! ## Prefixes -/

@[simp] theorem legacyPrefixOf_byte (p : LegacyPrefix) : legacyPrefixOf p.byte = some p := by
  rcases p with ⟨_ | _ | _ | _ | _ | _⟩ | _ <;> rfl

theorem byte_of_legacyPrefixOf {b : Byte} {p : LegacyPrefix} (h : legacyPrefixOf b = some p) : p.byte = b := by
  revert p
  revert b
  decide

/-- Valid prefixes are consumed in order (R61, R84 step 1). -/
theorem decodePrefixes_valid (ps : List LegacyPrefix) : ∀ (acc : List LegacyPrefix) (bad : Bool) (bs : List Byte),
    decodePrefixes acc bad (ps.map LegacyPrefix.byte ++ bs) = decodePrefixes (acc ++ ps) bad bs := by
  induction ps with
  | nil => intro acc bad bs; simp
  | cons p ps ih =>
    intro acc bad bs
    rw [List.map_cons, List.cons_append, decodePrefixes, legacyPrefixOf_byte]
    simp only
    rw [ih, List.append_assoc]; rfl

theorem decodePrefixes_vex (ps : List LegacyPrefix) (bad : Bool) (bs : List Byte) :
    decodePrefixes ps bad (0xC4#8 :: bs) = if bad then .ud else decodeVex ps bs := by
  rw [decodePrefixes, show legacyPrefixOf 0xC4#8 = none by decide, show isForbiddenPrefix 0xC4#8 = false by decide]
  simp

theorem decodePrefixes_evex (ps : List LegacyPrefix) (bad : Bool) (bs : List Byte) :
    decodePrefixes ps bad (0x62#8 :: bs) = if bad then .ud else decodeEvex ps bs := by
  rw [decodePrefixes, show legacyPrefixOf 0x62#8 = none by decide, show isForbiddenPrefix 0x62#8 = false by decide]
  simp

/-- Bytes that start with valid prefixes and `C4H` are decoded as VEX (R84 step 2). -/
theorem decode_vex (ps : List LegacyPrefix) (bs : List Byte) :
    decode (ps.map LegacyPrefix.byte ++ 0xC4#8 :: bs) = decodeVex ps bs := by
  rw [decode, decodePrefixes_valid, decodePrefixes_vex]; simp

/-- Bytes that start with valid prefixes and `62H` are decoded as EVEX (R84 step 2). -/
theorem decode_evex (ps : List LegacyPrefix) (bs : List Byte) :
    decode (ps.map LegacyPrefix.byte ++ 0x62#8 :: bs) = decodeEvex ps bs := by
  rw [decode, decodePrefixes_valid, decodePrefixes_evex]; simp

/-! ## Fields -/

@[simp] theorem mnemOfOpcode_opcode (m : Mnem) : mnemOfOpcode m.opcode = some m := by cases m <;> rfl

@[simp] theorem RoundMode.ofCode_code (rc : RoundMode) : RoundMode.ofCode rc.code = rc := by cases rc <;> rfl

@[simp] theorem RoundMode.code_ofCode (c : BitVec 2) : (RoundMode.ofCode c).code = c := by revert c; decide

theorem extBit_append_lowField (r : BitVec 4) : extBit r ++ lowField r = r := by revert r; decide

theorem regBits_append (r : BitVec 5) :
    r.extractLsb' 4 1 ++ r.extractLsb' 3 1 ++ r.extractLsb' 0 3 = r := by revert r; decide

theorem modrm_mod (m : BitVec 2) (g r : BitVec 3) : (m ++ g ++ r).extractLsb' 6 2 = m := by revert m g r; decide
theorem modrm_reg (m : BitVec 2) (g r : BitVec 3) : (m ++ g ++ r).extractLsb' 3 3 = g := by revert m g r; decide
theorem modrm_rm (m : BitVec 2) (g r : BitVec 3) : (m ++ g ++ r).extractLsb' 0 3 = r := by revert m g r; decide

theorem bytesOf32_join (d : BitVec 32) :
    d.extractLsb' 24 8 ++ d.extractLsb' 16 8 ++ d.extractLsb' 8 8 ++ d.extractLsb' 0 8 = d := by
  apply BitVec.eq_of_getLsbD_eq
  intro i hi
  simp only [BitVec.getLsbD_append, BitVec.getLsbD_extractLsb']
  by_cases h1 : i < 8
  · simp [h1]
  · by_cases h2 : i < 16
    · simp [h1, show i - 8 < 8 by omega, show 8 + (i - 8) = i by omega]
    · by_cases h3 : i < 24
      · simp [h1, show ¬ i - 8 < 8 by omega, show i - 8 - 8 < 8 by omega, show 16 + (i - 8 - 8) = i by omega]
      · simp [h1, show ¬ i - 8 < 8 by omega, show ¬ i - 8 - 8 < 8 by omega, show i - 8 - 8 - 8 < 8 by omega,
          show 24 + (i - 8 - 8 - 8) = i by omega]

/-! ## The memory operand -/

@[simp] theorem takeDisp32_bytes (d : BitVec 32) (rest : List Byte) :
    takeDisp32 (bytesOf32 d ++ rest) = some (d, rest) := by
  simp only [bytesOf32, List.cons_append, List.nil_append, takeDisp32, bytesOf32_join]

@[simp] theorem takeDisp_bytes (d : Disp) (rest : List Byte) : takeDisp d.mod (d.bytes ++ rest) = some (d, rest) := by
  cases d with
  | none => rfl
  | disp8 d => rfl
  | disp32 d =>
    show takeDisp 2#2 (bytesOf32 d ++ rest) = _
    unfold takeDisp
    rw [if_neg (by decide), if_neg (by decide), takeDisp32_bytes]; rfl

theorem Disp.mod_ne (d : Disp) : d.mod ≠ 3#2 := by cases d <;> simp [Disp.mod]

theorem Disp.mod_eq_zero {d : Disp} (h : d.mod = 0#2) : d = .none := by
  cases d with
  | none => rfl
  | disp8 d => exact absurd h (by simp [Disp.mod])
  | disp32 d => exact absurd h (by simp [Disp.mod])

theorem MemAddr.mod_ne (a : MemAddr) : a.mod ≠ 3#2 := by
  cases a with
  | base b d => exact d.mod_ne
  | sib s i b d => exact d.mod_ne
  | sibNoBase s i d => simp [MemAddr.mod]
  | ripRel d => simp [MemAddr.mod]

theorem sib_scale (s : BitVec 2) (i b : BitVec 3) : (s ++ i ++ b).extractLsb' 6 2 = s := modrm_mod s i b
theorem sib_index (s : BitVec 2) (i b : BitVec 3) : (s ++ i ++ b).extractLsb' 3 3 = i := modrm_reg s i b
theorem sib_base (s : BitVec 2) (i b : BitVec 3) : (s ++ i ++ b).extractLsb' 0 3 = b := modrm_rm s i b

/-- The memory operand is read back from its bytes (R75 to R78). -/
theorem takeMem_tail {a : MemAddr} (h : a.wellFormed = true) (rest : List Byte) :
    takeMem a.mod a.rm a.bx a.xx (a.tail ++ rest) = some (a, rest) := by
  cases a with
  | base b d =>
    simp only [MemAddr.wellFormed, Bool.and_eq_true, Bool.or_eq_true, bne_iff_ne, ne_eq] at h
    have h2 : ¬(lowField b = 5#3 ∧ d.mod = 0#2) := by
      rintro ⟨h1, h2⟩
      rcases h.2 with h | h
      · exact h h1
      · exact h (Disp.mod_eq_zero h2)
    show takeMem d.mod (lowField b) (extBit b) 0#1 (d.bytes ++ rest) = _
    unfold takeMem
    rw [if_neg h.1, if_neg h2, takeDisp_bytes, Option.map_some, extBit_append_lowField]
  | sib s i b d =>
    simp only [MemAddr.wellFormed, Bool.or_eq_true, bne_iff_ne, ne_eq] at h
    have h2 : ¬(lowField b = 5#3 ∧ d.mod = 0#2) := by
      rintro ⟨h1, h2⟩
      rcases h with h | h
      · exact h h1
      · exact h (Disp.mod_eq_zero h2)
    show takeMem d.mod 4#3 (extBit b) (extBit i) ((s ++ lowField i ++ lowField b) :: (d.bytes ++ rest)) = _
    unfold takeMem
    simp only [if_true, sib_scale, sib_index, sib_base]
    rw [if_neg h2, takeDisp_bytes, Option.map_some, extBit_append_lowField, extBit_append_lowField]
  | sibNoBase s i d =>
    show takeMem 0#2 4#3 0#1 (extBit i) ((s ++ lowField i ++ 5#3) :: (bytesOf32 d ++ rest)) = _
    unfold takeMem
    simp only [if_true, sib_scale, sib_index, sib_base]
    rw [if_pos ⟨trivial, trivial⟩, takeDisp32_bytes, Option.map_some, extBit_append_lowField]
  | ripRel d =>
    show takeMem 0#2 5#3 0#1 0#1 (bytesOf32 d ++ rest) = _
    unfold takeMem
    rw [if_neg (by decide), if_pos ⟨rfl, rfl⟩, takeDisp32_bytes, Option.map_some]

/-- A disp32 is four bytes, low byte first (R78). -/
theorem takeDisp32_eq_some_iff {bs rest : List Byte} {d : BitVec 32} :
    takeDisp32 bs = some (d, rest) ↔ Machine.DispBytes 2#2 bs (.disp32 d) rest := by
  constructor
  · intro h
    unfold takeDisp32 at h
    split at h
    · cases h; exact .inr (.inr ⟨rfl, _, _, _, _, rfl, rfl⟩)
    · cases h
  · rintro (⟨h, _⟩ | ⟨h, _⟩ | ⟨_, b0, b1, b2, b3, h, rfl⟩)
    · cases h
    · cases h
    · cases h; rfl

/-- The displacement that `mod` announces, as R75 and R78 say. -/
theorem takeDisp_eq_some_iff {mod : BitVec 2} (hm : mod ≠ 3#2) {bs rest : List Byte} {d : Disp} :
    takeDisp mod bs = some (d, rest) ↔ Machine.DispBytes mod bs d rest := by
  have : mod = 0#2 ∨ mod = 1#2 ∨ mod = 2#2 := by revert hm; revert mod; decide
  rcases this with rfl | rfl | rfl
  · simp [takeDisp, Machine.DispBytes, eq_comm]
  · cases bs <;> simp [takeDisp, Machine.DispBytes, eq_comm]
  · constructor
    · intro h
      simp only [takeDisp, show (2#2 : BitVec 2) ≠ 0#2 by decide, show (2#2 : BitVec 2) ≠ 1#2 by decide, if_false,
        Option.map_eq_some_iff] at h
      obtain ⟨⟨d', r'⟩, h1, h2⟩ := h
      cases h2
      exact takeDisp32_eq_some_iff.1 h1
    · rintro (⟨h, _⟩ | ⟨h, _⟩ | ⟨_, b0, b1, b2, b3, rfl, rfl⟩)
      · cases h
      · cases h
      · rfl

/-- The memory operand after ModRM, as R75 and R76 say. -/
theorem takeMem_eq_some_iff {mod : BitVec 2} (hm : mod ≠ 3#2) {rm : BitVec 3} {bx xx : BitVec 1}
    {bs rest : List Byte} {a : MemAddr} :
    takeMem mod rm bx xx bs = some (a, rest) ↔ Machine.MemoryBytes mod rm bx xx bs a rest := by
  unfold takeMem Machine.MemoryBytes
  by_cases h4 : rm = 4#3
  · subst h4
    cases bs with
    | nil => simp
    | cons sib bs =>
      by_cases h5 : sib.extractLsb' 0 3 = 5#3 ∧ mod = 0#2
      · simp [h5, takeDisp32_eq_some_iff, @eq_comm _ a]
      · simp [h5, takeDisp_eq_some_iff hm, @eq_comm _ a]; tauto
  · by_cases h5 : rm = 5#3 ∧ mod = 0#2
    · simp [h5, takeDisp32_eq_some_iff, @eq_comm _ a]
    · simp [h4, h5, takeDisp_eq_some_iff hm, @eq_comm _ a]; tauto

/-! ## The payload bytes -/

section vex
variable (r x b l : BitVec 1) (v : BitVec 4)

theorem vex1_map : ((~~~r) ++ (~~~x) ++ (~~~b) ++ 2#5).extractLsb' 0 5 = 2#5 := by revert r x b; decide
theorem vex1_r : ~~~((~~~r) ++ (~~~x) ++ (~~~b) ++ 2#5).extractLsb' 7 1 = r := by revert r x b; decide
theorem vex1_x : ~~~((~~~r) ++ (~~~x) ++ (~~~b) ++ 2#5).extractLsb' 6 1 = x := by revert r x b; decide
theorem vex1_b : ~~~((~~~r) ++ (~~~x) ++ (~~~b) ++ 2#5).extractLsb' 5 1 = b := by revert r x b; decide
theorem vex2_w : (1#1 ++ (~~~v) ++ l ++ 1#2).extractLsb' 7 1 = 1#1 := by revert v l; decide
theorem vex2_pp : (1#1 ++ (~~~v) ++ l ++ 1#2).extractLsb' 0 2 = 1#2 := by revert v l; decide
theorem vex2_v : ~~~(1#1 ++ (~~~v) ++ l ++ 1#2).extractLsb' 3 4 = v := by revert v l; decide
theorem vex2_l : (1#1 ++ (~~~v) ++ l ++ 1#2).extractLsb' 2 1 = l := by revert v l; decide

end vex

section evex
variable (r x b r' l v' : BitVec 1) (v : BitVec 4) (ll : BitVec 2) (z : Bool) (aaa : BitVec 3)

theorem evex0_reserved : ((~~~r) ++ (~~~x) ++ (~~~b) ++ (~~~r') ++ 2#4).extractLsb' 2 2 = 0#2 := by revert r x b r'; decide
theorem evex0_map : ((~~~r) ++ (~~~x) ++ (~~~b) ++ (~~~r') ++ 2#4).extractLsb' 0 2 = 2#2 := by revert r x b r'; decide
theorem evex0_r : ~~~((~~~r) ++ (~~~x) ++ (~~~b) ++ (~~~r') ++ 2#4).extractLsb' 7 1 = r := by revert r x b r'; decide
theorem evex0_x : ~~~((~~~r) ++ (~~~x) ++ (~~~b) ++ (~~~r') ++ 2#4).extractLsb' 6 1 = x := by revert r x b r'; decide
theorem evex0_b : ~~~((~~~r) ++ (~~~x) ++ (~~~b) ++ (~~~r') ++ 2#4).extractLsb' 5 1 = b := by revert r x b r'; decide
theorem evex0_r' : ~~~((~~~r) ++ (~~~x) ++ (~~~b) ++ (~~~r') ++ 2#4).extractLsb' 4 1 = r' := by revert r x b r'; decide
theorem evex1_fixed : (1#1 ++ (~~~v) ++ 5#3).extractLsb' 2 1 = 1#1 := by revert v; decide
theorem evex1_w : (1#1 ++ (~~~v) ++ 5#3).extractLsb' 7 1 = 1#1 := by revert v; decide
theorem evex1_pp : (1#1 ++ (~~~v) ++ 5#3).extractLsb' 0 2 = 1#2 := by revert v; decide
theorem evex1_v : ~~~(1#1 ++ (~~~v) ++ 5#3).extractLsb' 3 4 = v := by revert v; decide
theorem evex2_aaa : (BitVec.ofBool z ++ ll ++ b ++ (~~~v') ++ aaa).extractLsb' 0 3 = aaa := by revert z ll b v' aaa; decide
theorem evex2_z : (BitVec.ofBool z ++ ll ++ b ++ (~~~v') ++ aaa).getLsbD 7 = z := by revert z ll b v' aaa; decide
theorem evex2_b : (BitVec.ofBool z ++ ll ++ b ++ (~~~v') ++ aaa).getLsbD 4 = b.getLsbD 0 := by revert z ll b v' aaa; decide
theorem evex2_ll : (BitVec.ofBool z ++ ll ++ b ++ (~~~v') ++ aaa).extractLsb' 5 2 = ll := by revert z ll b v' aaa; decide
theorem evex2_v' : ~~~(BitVec.ofBool z ++ ll ++ b ++ (~~~v') ++ aaa).extractLsb' 3 1 = v' := by revert z ll b v' aaa; decide

end evex

end Sys2Proof
end

