-- ==== Sys2Proof/Laws/Memory.lean ====
section
/-! SUPPORT. Memory laws: reading after writing, the canonical form, fetching what was placed, and what a
read of an operand can do. -/

namespace Sys2Proof.Machine

/-! ## The canonical form and reading after writing -/

theorem Memory.wf_nil : Memory.wf [] := ⟨List.Pairwise.nil, by simp⟩

@[simp] theorem Memory.read_nil (a : Nat) : Memory.read [] a = none := rfl

theorem Memory.read_cons (c : Host.Cell) (m : Memory) (a : Nat) :
    Memory.read (c :: m) a = if c.1 = a then some c.2 else Memory.read m a := rfl

theorem Memory.wf_tail {c : Host.Cell} {m : Memory} (h : Memory.wf (c :: m)) : Memory.wf m :=
  ⟨(List.pairwise_cons.1 h.1).2, fun d hd => h.2 d (List.mem_cons_of_mem _ hd)⟩

theorem Memory.mem_write {m : Memory} {a : Nat} {b : Byte} {c : Host.Cell} (h : c ∈ Memory.write m a b) :
    c = (a, b) ∨ c ∈ m := by
  induction m with
  | nil => simpa [Memory.write] using h
  | cons d m ih =>
    unfold Memory.write at h
    split at h
    · simpa using h
    · split at h
      · rcases List.mem_cons.1 h with h | h
        · exact .inl h
        · exact .inr (List.mem_cons_of_mem _ h)
      · rcases List.mem_cons.1 h with h | h
        · exact .inr (h ▸ List.mem_cons_self)
        · exact (ih h).imp id (List.mem_cons_of_mem _)

/-- A write keeps the canonical form. -/
theorem Memory.wf_write {m : Memory} {a : Nat} (b : Byte) (h : Memory.wf m) (ha : a < 2 ^ 64) :
    Memory.wf (Memory.write m a b) := by
  refine ⟨?_, fun c hc => ?_⟩
  · induction m with
    | nil => exact List.pairwise_singleton _ _
    | cons d m ih =>
      have hd := List.pairwise_cons.1 h.1
      unfold Memory.write
      split
      · rename_i hlt
        refine List.pairwise_cons.2 ⟨fun e he => ?_, h.1⟩
        rcases List.mem_cons.1 he with rfl | he
        · exact hlt
        · exact Nat.lt_trans hlt (hd.1 e he)
      · split
        · rename_i heq
          exact List.pairwise_cons.2 ⟨fun e he => heq ▸ hd.1 e he, hd.2⟩
        · refine List.pairwise_cons.2 ⟨fun e he => ?_, ih (Memory.wf_tail h)⟩
          rcases Memory.mem_write he with rfl | he
          · omega
          · exact hd.1 e he
  · rcases Memory.mem_write hc with rfl | hc
    · exact ha
    · exact h.2 c hc

/-- Loading bytes keeps the canonical form. -/
theorem Memory.wf_load (bs : List Byte) : ∀ {m : Memory} (a : Nat), Memory.wf m → Memory.wf (Memory.load m a bs) := by
  induction bs with
  | nil => exact fun _ h => h
  | cons b bs ih => exact fun a h => ih (a + 1) (Memory.wf_write b h (Nat.mod_lt _ (by decide)))

theorem Memory.read_write_same (m : Memory) (a : Nat) (b : Byte) : Memory.read (Memory.write m a b) a = some b := by
  induction m with
  | nil => simp [Memory.write, Memory.read]
  | cons c m ih =>
    unfold Memory.write
    split
    · simp [Memory.read]
    · split
      · simp [Memory.read]
      · rename_i h1 h2
        simp [Memory.read, Ne.symm h2, ih]

theorem Memory.read_write_other (m : Memory) {a x : Nat} (b : Byte) (h : x ≠ a) :
    Memory.read (Memory.write m a b) x = Memory.read m x := by
  induction m with
  | nil => simp [Memory.write, Memory.read, Ne.symm h]
  | cons c m ih =>
    unfold Memory.write
    split
    · simp [Memory.read, Ne.symm h]
    · split
      · rename_i h1 h2
        simp [Memory.read, Ne.symm h, ← h2]
      · simp [Memory.read, ih]

/-- An address that no loaded byte goes to reads as before. -/
theorem Memory.read_load_other (bs : List Byte) : ∀ (m : Memory) (a : Nat) {x : Nat},
    (∀ j, j < bs.length → (a + j) % 2 ^ 64 ≠ x) → Memory.read (Memory.load m a bs) x = Memory.read m x := by
  induction bs with
  | nil => intro m a x _; rfl
  | cons b bs ih =>
    intro m a x h
    rw [Memory.load, ih _ _ fun j hj => ?_]
    · exact Memory.read_write_other _ _ (Ne.symm (h 0 (by simp)))
    · have := h (j + 1) (by simpa using hj)
      rwa [show a + 1 + j = a + (j + 1) by omega]

/-- The `j`-th loaded byte is read at its address. -/
theorem Memory.read_load (bs : List Byte) : ∀ (m : Memory) (a : Nat) {j : Nat}, bs.length ≤ 2 ^ 64 →
    (hj : j < bs.length) → Memory.read (Memory.load m a bs) ((a + j) % 2 ^ 64) = some bs[j] := by
  induction bs with
  | nil => intro m a j _ hj; simp at hj
  | cons b bs ih =>
    intro m a j hl hj
    simp only [List.length_cons] at hl hj
    cases j with
    | zero =>
      rw [Memory.load, Memory.read_load_other]
      · exact Memory.read_write_same _ _ _
      · intro i hi; omega
    | succ j =>
      have := ih (m.write (a % 2 ^ 64) b) (a + 1) (j := j) (by omega) (by omega)
      rw [Memory.load, show a + (j + 1) = a + 1 + j by omega]
      simpa using this

/-! ## Fetching -/

/-- In a canonical memory below `a`, nothing is read. -/
theorem Memory.read_eq_none_of_lt {c : Host.Cell} {m : Memory} (h : Memory.wf (c :: m)) {a : Nat} (ha : a < c.1) :
    Memory.read (c :: m) a = none := by
  have : ∀ m : Memory, (∀ d ∈ m, a < d.1) → Memory.read m a = none := by
    intro m
    induction m with
    | nil => intro _; rfl
    | cons d m ih =>
      intro hm
      have hd := hm d List.mem_cons_self
      rw [Memory.read_cons, if_neg (by omega), ih fun e he => hm e (List.mem_cons_of_mem _ he)]
  refine this _ fun d hd => ?_
  rcases List.mem_cons.1 hd with rfl | hd
  · exact ha
  · exact Nat.lt_trans ha ((List.pairwise_cons.1 h.1).1 d hd)

/-- What `bytesFrom` gives: the byte at `a`, then the bytes from `a + 1`, as long as they are listed. -/
theorem bytesFrom_eq (m : Memory) : ∀ a, Memory.wf m →
    bytesFrom a m = match Memory.read m a with
      | some b => b :: bytesFrom (a + 1) m
      | none => [] := by
  induction m with
  | nil => intro a _; rfl
  | cons c m ih =>
    intro a h
    have hc := (List.pairwise_cons.1 h.1).1
    have skip : ∀ x, c.1 < x → bytesFrom x (c :: m) = bytesFrom x m := by
      intro x hx
      rw [bytesFrom, if_neg (by omega), if_pos hx]
    by_cases h1 : c.1 = a
    · rw [bytesFrom, if_pos h1, Memory.read_cons, if_pos h1, skip _ (by omega)]
    · by_cases h2 : c.1 < a
      · rw [skip _ h2, Memory.read_cons, if_neg h1, ih a (Memory.wf_tail h)]
        cases Memory.read m a with
        | none => rfl
        | some b => simp only [skip (a + 1) (by omega)]
      · rw [bytesFrom, if_neg h1, if_neg h2, Memory.read_eq_none_of_lt h (by omega)]

/-- Bytes listed at consecutive addresses are what `bytesFrom` starts with. -/
theorem bytesFrom_of_reads {m : Memory} (hm : Memory.wf m) (bs : List Byte) : ∀ (a : Nat),
    (∀ j (hj : j < bs.length), Memory.read m (a + j) = some bs[j]) →
    bytesFrom a m = bs ++ bytesFrom (a + bs.length) m := by
  induction bs with
  | nil => intro a _; simp
  | cons b bs ih =>
    intro a h
    have h0 := h 0 (by simp)
    simp only [Nat.add_zero, List.getElem_cons_zero] at h0
    rw [bytesFrom_eq m a hm, h0, ih (a + 1) fun j hj => ?_]
    · rw [List.length_cons, show a + 1 + bs.length = a + (bs.length + 1) by omega, List.cons_append]
    · have := h (j + 1) (by simpa using hj)
      rw [List.getElem_cons_succ] at this
      rwa [show a + 1 + j = a + (j + 1) by omega]

theorem Memory.read_ge {m : Memory} (hm : Memory.wf m) {a : Nat} (ha : 2 ^ 64 ≤ a) : Memory.read m a = none := by
  induction m with
  | nil => rfl
  | cons c m ih =>
    have := hm.2 c List.mem_cons_self
    rw [Memory.read_cons, if_neg (by omega), ih (Memory.wf_tail hm)]

/-- What is placed at `pc` is what is fetched first (at most 2^64 bytes, over the wrap too). -/
theorem State.fetch_placeAtPc (s : State) (bs : List Byte) (h : Memory.wf s.text) (hl : bs.length ≤ 2 ^ 64) :
    ∃ rest, (s.placeAtPc bs).fetch = bs ++ rest := by
  have hwf : Memory.wf (s.placeAtPc bs).text := Memory.wf_load bs _ h
  have hpc : s.pc.toNat < 2 ^ 64 := s.pc.isLt
  have hread : ∀ j (hj : j < bs.length), Memory.read (s.placeAtPc bs).text ((s.pc.toNat + j) % 2 ^ 64) = some bs[j] :=
    fun j hj => Memory.read_load bs s.text s.pc.toNat hl hj
  have hpc' : (s.placeAtPc bs).pc = s.pc := rfl
  unfold State.fetch
  rw [hpc']
  generalize (s.placeAtPc bs).text = t at hwf hread ⊢
  by_cases hfit : s.pc.toNat + bs.length ≤ 2 ^ 64
  · have h1 := bytesFrom_of_reads hwf bs s.pc.toNat fun j hj => by
      have := hread j hj
      rwa [Nat.mod_eq_of_lt (by omega)] at this
    split <;> rw [h1]
    · exact ⟨_, List.append_assoc _ _ _⟩
    · exact ⟨_, rfl⟩
  · let k := 2 ^ 64 - s.pc.toNat
    have hk : k = 2 ^ 64 - s.pc.toNat := rfl
    have hlen : (bs.take k).length = k := by rw [List.length_take]; omega
    have h1 := bytesFrom_of_reads hwf (bs.take k) s.pc.toNat fun j hj => by
      have hj' : j < k := by omega
      have := hread j (by omega)
      rw [Nat.mod_eq_of_lt (by omega)] at this
      simpa using this
    have h2 : bytesFrom (s.pc.toNat + (bs.take k).length) t = [] := by
      rw [bytesFrom_eq t _ hwf, Memory.read_ge hwf (by omega)]
    have h3 := bytesFrom_of_reads hwf (bs.drop k) 0 fun j hj => by
      rw [List.length_drop] at hj
      have := hread (k + j) (by omega)
      rw [show s.pc.toNat + (k + j) = j + 2 ^ 64 by omega, Nat.add_mod_right, Nat.mod_eq_of_lt (by omega)] at this
      simpa using this
    rw [h2, List.append_nil] at h1
    rw [h1, if_pos (by omega), h3]
    exact ⟨_, by rw [← List.append_assoc, List.take_append_drop]⟩

/-! ## Reading an operand -/

/-- What a read of an operand can do: fault as the checks say, or give the bytes. -/
theorem State.memRead_cases (s : State) (seg : SegReg) (ea : Word) (n : Nat) (need : Nat → Bool) :
    (∃ e, s.memFault seg ea n need = some e ∧ s.memRead seg ea n need = .error e) ∨
    (s.memFault seg ea n need = none ∧ s.memRead seg ea n need =
      .ok (packBytes ((List.range n).map fun j => if need j then s.memByte seg ea j else 0#8))) := by
  unfold State.memRead
  cases h : s.memFault seg ea n need with
  | none => exact .inr ⟨rfl, rfl⟩
  | some e => exact .inl ⟨e, rfl, rfl⟩

/-- What `lowestFault` answers, if it answers: a member at which `f` answers, and none lower. -/
theorem lowestFault_some {f : Word → Option Exception} {l : List Word} {a : Word} {e : Exception}
    (h : lowestFault f l = some (a, e)) :
    a ∈ l ∧ f a = some e ∧ ∀ b ∈ l, b.toNat < a.toNat → f b = none := by
  induction l generalizing a e with
  | nil => cases h
  | cons x l ih =>
    unfold lowestFault at h
    cases hx : f x with
    | none =>
      rw [hx] at h
      obtain ⟨h1, h2, h3⟩ := ih h
      refine ⟨List.mem_cons_of_mem _ h1, h2, fun b hb hlt => ?_⟩
      rcases List.mem_cons.1 hb with rfl | hb
      · exact hx
      · exact h3 b hb hlt
    | some ex =>
      rw [hx] at h
      cases hr : lowestFault f l with
      | none =>
        rw [hr] at h
        cases h
        have hl : ∀ b ∈ l, f b = none := by
          clear ih
          induction l with
          | nil => simp
          | cons y l ih =>
            unfold lowestFault at hr
            cases hy : f y with
            | none => rw [hy] at hr; simpa [hy] using ih hr
            | some e' =>
              rw [hy] at hr
              cases h' : lowestFault f l with
              | none => rw [h'] at hr; cases hr
              | some p => rw [h'] at hr; simp only at hr; split at hr <;> cases hr
        refine ⟨List.mem_cons_self, hx, fun b hb hlt => ?_⟩
        rcases List.mem_cons.1 hb with rfl | hb
        · exact absurd hlt (Nat.lt_irrefl _)
        · exact hl b hb
      | some p =>
        obtain ⟨c, e'⟩ := p
        rw [hr] at h
        obtain ⟨h1, h2, h3⟩ := ih hr
        by_cases hc : c.toNat < x.toNat
        · simp only [hc, if_true, Option.some.injEq, Prod.mk.injEq] at h
          obtain ⟨rfl, rfl⟩ := h
          refine ⟨List.mem_cons_of_mem _ h1, h2, fun b hb hlt => ?_⟩
          rcases List.mem_cons.1 hb with rfl | hb
          · omega
          · exact h3 b hb hlt
        · simp only [hc, if_false, Option.some.injEq, Prod.mk.injEq] at h
          obtain ⟨rfl, rfl⟩ := h
          refine ⟨List.mem_cons_self, hx, fun b hb hlt => ?_⟩
          rcases List.mem_cons.1 hb with rfl | hb
          · exact absurd hlt (Nat.lt_irrefl _)
          · exact h3 b hb (by omega)

/-- `lowestFault` answers unless `f` answers at no member. -/
theorem lowestFault_none_iff {f : Word → Option Exception} {l : List Word} :
    lowestFault f l = none ↔ ∀ a ∈ l, f a = none := by
  induction l with
  | nil => simp [lowestFault]
  | cons x l ih =>
    unfold lowestFault
    cases hx : f x with
    | none => simp [hx, ih]
    | some e =>
      cases h : lowestFault f l with
      | none => simp [hx]
      | some p => simp only [List.mem_cons, forall_eq_or_imp, hx, reduceCtorEq, false_and, iff_false]; split <;> simp

/-- The member at which `f` answers and below which it does not is what `lowestFault` finds. -/
theorem lowestFault_eq {f : Word → Option Exception} {l : List Word} {a : Word} {e : Exception} (ha : a ∈ l)
    (he : f a = some e) (hl : ∀ b ∈ l, b.toNat < a.toNat → f b = none) : lowestFault f l = some (a, e) := by
  cases h : lowestFault f l with
  | none => rw [lowestFault_none_iff.1 h a ha] at he; cases he
  | some p =>
    obtain ⟨c, e'⟩ := p
    obtain ⟨h1, h2, h3⟩ := lowestFault_some h
    have h4 : ¬c.toNat < a.toNat := fun hc => by rw [hl c h1 hc] at h2; cases h2
    have h5 : ¬a.toNat < c.toNat := fun hc => by rw [h3 a ha hc] at he; cases he
    obtain rfl : c = a := BitVec.eq_of_toNat_eq (by omega)
    rw [he] at h2
    cases h2
    rfl

/-- The addresses of the accessed bytes of an operand. -/
theorem State.mem_accessed {s : State} {seg : SegReg} {ea : Word} {n : Nat} {need : Nat → Bool} {a : Word} :
    a ∈ ((List.range n).filter need).map (s.linAddr seg ea) ↔ ∃ j, j < n ∧ need j = true ∧ s.linAddr seg ea j = a := by
  simp only [List.mem_map, List.mem_filter, List.mem_range, and_assoc]

/-- What the checks of an operand answer, in the order of R173 items 7 to 9: the fault of the segment, the
platform's fault at the lowest address that has one, the page fault at the lowest address that has one,
the alignment check, or nothing. -/
theorem State.memFault_cases (s : State) (seg : SegReg) (ea : Word) (n : Nat) (need : Nat → Bool) :
    (s.memFault seg ea n need = some (segmentFault seg) ∧ ∃ j, j < n ∧ need j = true ∧ s.segmentOk seg ea j = false) ∨
    ((∀ j, j < n → need j = true → s.segmentOk seg ea j = true) ∧
      ((∃ j e, j < n ∧ need j = true ∧ s.memFault seg ea n need = some e ∧ s.platformFault n (s.linAddr seg ea j) = some e ∧
          ∀ l, l < n → need l = true → (s.linAddr seg ea l).toNat < (s.linAddr seg ea j).toNat →
            s.platformFault n (s.linAddr seg ea l) = none) ∨
      ((∀ j, j < n → need j = true → s.platformFault n (s.linAddr seg ea j) = none) ∧
        ((∃ j e, j < n ∧ need j = true ∧ s.memFault seg ea n need = some e ∧ s.pageFault n (s.linAddr seg ea j) = some e ∧
            ∀ l, l < n → need l = true → (s.linAddr seg ea l).toNat < (s.linAddr seg ea j).toNat →
              s.pageFault n (s.linAddr seg ea l) = none) ∨
        ((∀ j, j < n → need j = true → s.pageFault n (s.linAddr seg ea j) = none) ∧
          s.memFault seg ea n need = if s.misaligned seg ea n then some .ac else none))))) := by
  unfold State.memFault
  by_cases h1 : (((List.range n).filter need).any fun j => !s.segmentOk seg ea j) = true
  · simp only [h1, if_true]
    simp only [List.any_eq_true, List.mem_filter, List.mem_range, Bool.not_eq_eq_eq_not, Bool.not_true] at h1
    obtain ⟨j, ⟨hj, hn⟩, hs⟩ := h1
    exact .inl ⟨trivial, j, hj, hn, hs⟩
  · simp only [h1, Bool.false_eq_true, if_false]
    simp only [List.any_eq_true, List.mem_filter, List.mem_range, Bool.not_eq_eq_eq_not, Bool.not_true, not_exists,
      not_and] at h1
    refine .inr ⟨fun j hj hn => by simpa using h1 j ⟨hj, hn⟩, ?_⟩
    have all {f : Word → Option Exception} (h : lowestFault f (((List.range n).filter need).map (s.linAddr seg ea)) = none) :
        ∀ j, j < n → need j = true → f (s.linAddr seg ea j) = none :=
      fun j hj hn => lowestFault_none_iff.1 h _ (State.mem_accessed.2 ⟨j, hj, hn, rfl⟩)
    have low {f : Word → Option Exception} {a : Word} {e : Exception}
        (h : lowestFault f (((List.range n).filter need).map (s.linAddr seg ea)) = some (a, e)) :
        ∃ j, j < n ∧ need j = true ∧ f (s.linAddr seg ea j) = some e ∧
          ∀ l, l < n → need l = true → (s.linAddr seg ea l).toNat < (s.linAddr seg ea j).toNat →
            f (s.linAddr seg ea l) = none := by
      obtain ⟨ha, he, hl⟩ := lowestFault_some h
      obtain ⟨j, hj, hn, rfl⟩ := State.mem_accessed.1 ha
      exact ⟨j, hj, hn, he, fun l hl' hn' hlt => hl _ (State.mem_accessed.2 ⟨l, hl', hn', rfl⟩) hlt⟩
    cases h2 : lowestFault (s.platformFault n) (((List.range n).filter need).map (s.linAddr seg ea)) with
    | some p =>
      obtain ⟨j, hj, hn, he, hl⟩ := low h2
      exact .inl ⟨j, p.2, hj, hn, rfl, he, hl⟩
    | none =>
      refine .inr ⟨all h2, ?_⟩
      cases h3 : lowestFault (s.pageFault n) (((List.range n).filter need).map (s.linAddr seg ea)) with
      | some p =>
        obtain ⟨j, hj, hn, he, hl⟩ := low h3
        exact .inl ⟨j, p.2, hj, hn, rfl, he, hl⟩
      | none => exact .inr ⟨all h3, rfl⟩

/-- When the checks of an operand find nothing. -/
theorem State.memFault_none_iff (s : State) (seg : SegReg) (ea : Word) (n : Nat) (need : Nat → Bool) :
    s.memFault seg ea n need = none ↔
      (∀ j, j < n → need j = true → s.segmentOk seg ea j = true ∧
        s.platformFault n (s.linAddr seg ea j) = none ∧ s.pageFault n (s.linAddr seg ea j) = none) ∧
      s.misaligned seg ea n = false := by
  rcases s.memFault_cases seg ea n need with ⟨h, j, hj, hn, hs⟩ | ⟨hs, ⟨j, e, hj, hn, h, hp, _⟩ | ⟨hp, ⟨j, e, hj, hn, h, hq, _⟩ | ⟨hq, h⟩⟩⟩
  · rw [h]
    exact ⟨fun h => (by cases h), fun h => by have := (h.1 j hj hn).1; rw [hs] at this; cases this⟩
  · rw [h]
    exact ⟨fun h => (by cases h), fun h => by have := (h.1 j hj hn).2.1; rw [hp] at this; cases this⟩
  · rw [h]
    exact ⟨fun h => (by cases h), fun h => by have := (h.1 j hj hn).2.2; rw [hq] at this; cases this⟩
  · rw [h]
    cases s.misaligned seg ea n with
    | false => simpa using fun j hj hn => ⟨hs j hj hn, hp j hj hn, hq j hj hn⟩
    | true => simp

theorem State.platformFault_cases {s : State} {n : Nat} {a : Word} {e : Exception} (h : s.platformFault n a = some e) :
    e = .gp ∨ e = .ss := by
  unfold State.platformFault at h
  split at h <;> first | exact .inl (Option.some.inj h).symm | exact .inr (Option.some.inj h).symm | cases h

theorem State.pageFault_cases {s : State} {n : Nat} {a : Word} {e : Exception} (h : s.pageFault n a = some e) :
    ∃ present reserved, e = .pf (s.pfCode present reserved) a := by
  have key : s.unmappedFault a = some e → ∃ present reserved, e = .pf (s.pfCode present reserved) a := by
    unfold State.unmappedFault
    cases Memory.read s.mem a.toNat with
    | none => intro h; exact ⟨_, _, (Option.some.inj h).symm⟩
    | some b => intro h; cases h
  unfold State.pageFault at h
  split at h
  · exact ⟨_, _, (Option.some.inj h).symm⟩
  · exact key h
  · exact key h
  · exact key h

/-- No check of an operand answers `#UD`, `#NM` or `#XM` (R172). -/
theorem State.memFault_kind {s : State} {seg : SegReg} {ea : Word} {n : Nat} {need : Nat → Bool} {e : Exception}
    (h : s.memFault seg ea n need = some e) : e ≠ .ud ∧ e ≠ .nm ∧ e ≠ .xm := by
  rcases s.memFault_cases seg ea n need with ⟨h', _⟩ | ⟨_, ⟨j, e', _, _, h', hp, _⟩ | ⟨_, ⟨j, e', _, _, h', hq, _⟩ | ⟨_, h'⟩⟩⟩
  · rw [h] at h'; cases h'; unfold segmentFault; split <;> simp
  · rw [h] at h'; cases h'
    rcases State.platformFault_cases hp with rfl | rfl <;> simp
  · rw [h] at h'; cases h'
    obtain ⟨_, _, rfl⟩ := State.pageFault_cases hq; simp
  · rw [h] at h'; split at h' <;> cases h'; simp

/-- A byte whose page checks pass is mapped. -/
theorem State.read_isSome_of_pageFault_none {s : State} {n : Nat} {a : Word} (hp : s.pageFault n a = none) :
    ∃ b, Memory.read s.mem a.toNat = some b := by
  have key : s.unmappedFault a = none → ∃ b, Memory.read s.mem a.toNat = some b := by
    unfold State.unmappedFault
    cases Memory.read s.mem a.toNat with
    | none => intro h; cases h
    | some b => intro _; exact ⟨b, rfl⟩
  unfold State.pageFault at hp
  split at hp
  · cases hp
  · exact key hp
  · exact key hp
  · exact key hp

/-- Byte `j` of the little-endian value (R44). -/
theorem packBytes_byte (bs : List Byte) : ∀ (j : Nat), (hj : j < bs.length) → bs.length ≤ 64 →
    (packBytes bs).extractLsb' (8 * j) 8 = bs[j] := by
  induction bs with
  | nil => intro j hj _; simp at hj
  | cons b bs ih =>
    intro j hj hl
    simp only [List.length_cons] at hj hl
    apply BitVec.eq_of_getLsbD_eq
    intro i hi
    rw [BitVec.getLsbD_extractLsb']
    simp only [packBytes, BitVec.getLsbD_or, BitVec.getLsbD_setWidth, BitVec.getLsbD_shiftLeft, hi, decide_true,
      Bool.true_and]
    cases j with
    | zero =>
      simp only [List.getElem_cons_zero, Nat.mul_zero, Nat.zero_add, hi, decide_true, Bool.not_true, Bool.and_false,
        Bool.false_and, Bool.or_false]
      simp; omega
    | succ j =>
      have := ih j (by omega) (by omega)
      rw [List.getElem_cons_succ, ← this, BitVec.getLsbD_extractLsb']
      have h1 : ¬ 8 * (j + 1) + i < 8 := by omega
      have h2 : 8 * (j + 1) + i < 512 := by omega
      have h3 : 8 * (j + 1) + i - 8 = 8 * j + i := by omega
      simp only [h1, h2, h3, hi, decide_true, decide_false, Bool.not_false, Bool.true_and]
      rw [BitVec.getLsbD_of_ge _ _ (by omega)]
      simp

/-- Reading an operand whose checks pass gives each accessed byte its value (R42, R44, R45). -/
theorem State.memRead_byte {s : State} {seg : SegReg} {ea : Word} {n : Nat} {need : Nat → Bool} {x : VReg}
    (h : s.memRead seg ea n need = .ok x) (hn : n ≤ 64) {j : Nat} (hj : j < n) (hb : need j = true) :
    Memory.read s.mem (s.linAddr seg ea j).toNat = some (x.extractLsb' (8 * j) 8) := by
  rcases s.memRead_cases seg ea n need with ⟨e, _, h'⟩ | ⟨hf, h'⟩
  · rw [h] at h'; cases h'
  · rw [h] at h'
    obtain rfl := Except.ok.inj h'
    rw [packBytes_byte _ j (by simpa using hj) (by simpa using hn)]
    have hc := ((s.memFault_none_iff seg ea n need).1 hf).1 j hj hb
    obtain ⟨b, hb'⟩ := State.read_isSome_of_pageFault_none hc.2.2
    simp [hb, State.memByte, hb']

end Sys2Proof.Machine
end

