-- ==== Sys2Proof/Laws/Numerics.lean ====
section
/-! SUPPORT. What the lane function can answer, in the order of 40_lane_numerics.md R104. -/

namespace Sys2Proof.Machine

/-- Rounding, by the exponent of the first rounding (R111 to R113). -/
theorem roundOut_eq (rc : RoundMode) (neg : Bool) (a : Nat) (de ftz : Bool) (m : Masks) :
    roundOut rc neg a de ftz m =
      if 1024 ≤ (roundUnbounded rc neg a).2.1 then overflowOut rc neg (roundUnbounded rc neg a).2.2 de m
      else if (roundUnbounded rc neg a).2.1 < -1022 then tinyOut rc neg a (roundUnbounded rc neg a).2.2 de ftz m
      else ⟨some (fpPack neg ((roundUnbounded rc neg a).2.1 + 1023).toNat ((roundUnbounded rc neg a).1 - 2 ^ 52)),
        ⟨false, de, false, false, (roundUnbounded rc neg a).2.2⟩⟩ := rfl

/-- A lane without a result carries an unmasked OE or UE (R112, R113). -/
theorem roundOut_none {rc : RoundMode} {neg : Bool} {a : Nat} {de ftz : Bool} {m : Masks}
    (h : (roundOut rc neg a de ftz m).value = none) :
    ((roundOut rc neg a de ftz m).flags.oe = true ∧ m.om = false) ∨
      ((roundOut rc neg a de ftz m).flags.ue = true ∧ m.um = false) := by
  rw [roundOut_eq] at h ⊢
  generalize roundUnbounded rc neg a = p at h ⊢
  by_cases h1 : 1024 ≤ p.2.1
  · simp only [h1, if_true, overflowOut] at h ⊢
    cases hm : m.om <;> simp [hm] at h ⊢
  · by_cases h2 : p.2.1 < -1022
    · simp only [h1, if_false, h2, if_true, tinyOut] at h ⊢
      cases hm : m.um
      · simp
      · cases ftz <;> simp [hm] at h
    · simp only [h1, if_false, h2] at h
      cases h

/-- The lane function by the cases of R104: a NaN, an invalid operation, an infinite operand, an exact
zero, or a rounding. -/
theorem fnmaddCore_cases (cfg : Config) (x y z : Lane) (rc : RoundMode) (ftz : Bool) (m : Masks) :
    (∃ n, firstNaN cfg.nanOrder x y z = some n ∧ fnmaddCore cfg x y z rc ftz m = nanOut cfg x y z n) ∨
    (firstNaN cfg.nanOrder x y z = none ∧ (infTimesZero x y || infMinusInf x y z) = true ∧
      fnmaddCore cfg x y z rc ftz m = ⟨some qnanIndefinite, ⟨true, false, false, false, false⟩⟩) ∨
    (firstNaN cfg.nanOrder x y z = none ∧ (infTimesZero x y || infMinusInf x y z) = false ∧
      ((isInf x || isInf y) = true ∧ fnmaddCore cfg x y z rc ftz m =
          ⟨some (fpInf (productSign x y)), ⟨false, isDenormal x || isDenormal y || isDenormal z, false, false, false⟩⟩ ∨
        (isInf x || isInf y) = false ∧ isInf z = true ∧ fnmaddCore cfg x y z rc ftz m =
          ⟨some z, ⟨false, isDenormal x || isDenormal y || isDenormal z, false, false, false⟩⟩ ∨
        (isInf x || isInf y) = false ∧ isInf z = false ∧ exactResult x y z = 0 ∧ fnmaddCore cfg x y z rc ftz m =
          ⟨some (exactZero rc x y z), ⟨false, isDenormal x || isDenormal y || isDenormal z, false, false, false⟩⟩ ∨
        (isInf x || isInf y) = false ∧ isInf z = false ∧ exactResult x y z ≠ 0 ∧ fnmaddCore cfg x y z rc ftz m =
          roundOut rc (decide (exactResult x y z < 0)) (exactResult x y z).natAbs
            (isDenormal x || isDenormal y || isDenormal z) ftz m)) := by
  unfold fnmaddCore
  cases firstNaN cfg.nanOrder x y z with
  | some n => exact .inl ⟨n, rfl, rfl⟩
  | none =>
    refine .inr ?_
    cases h1 : (infTimesZero x y || infMinusInf x y z) with
    | true => exact .inl ⟨rfl, rfl, rfl⟩
    | false =>
      refine .inr ⟨rfl, rfl, ?_⟩
      cases h2 : (isInf x || isInf y) with
      | true => exact .inl ⟨rfl, rfl⟩
      | false =>
        cases h3 : isInf z with
        | true => exact .inr (.inl ⟨rfl, rfl, rfl⟩)
        | false =>
          by_cases h4 : exactResult x y z = 0
          · exact .inr (.inr (.inl ⟨rfl, rfl, h4, by simp [h4]⟩))
          · exact .inr (.inr (.inr ⟨rfl, rfl, h4, by simp [h4]⟩))

/-- A lane without a result carries an unmasked flag, so the instruction traps (R112, R113, R162). -/
theorem fnmadd64_none {cfg : Config} {x y z : Lane} {rc : RoundMode} {daz ftz : Bool} {m : Masks}
    (h : (fnmadd64 cfg x y z rc daz ftz m).value = none) : (fnmadd64 cfg x y z rc daz ftz m).flags.unmasked m = true := by
  unfold fnmadd64 at h ⊢
  generalize dazReplace daz x = x at h ⊢
  generalize dazReplace daz y = y at h ⊢
  generalize dazReplace daz z = z at h ⊢
  rcases fnmaddCore_cases cfg x y z rc ftz m with ⟨n, _, hc⟩ | ⟨_, _, hc⟩ | ⟨_, _, ⟨_, hc⟩ | ⟨_, _, hc⟩ | ⟨_, _, _, hc⟩ | ⟨_, _, _, hc⟩⟩
  · rw [hc] at h; cases h
  · rw [hc] at h; cases h
  · rw [hc] at h; cases h
  · rw [hc] at h; cases h
  · rw [hc] at h; cases h
  · rw [hc] at h ⊢
    unfold Flags.unmasked
    rcases roundOut_none h with ⟨h1, h2⟩ | ⟨h1, h2⟩ <;> simp [h1, h2]

/-- A flag set is masked when each of its parts is. -/
theorem Flags.union_unmasked (a b : Flags) (m : Masks) : (a.union b).unmasked m = (a.unmasked m || b.unmasked m) := by
  obtain ⟨a1, a2, a3, a4, a5⟩ := a
  obtain ⟨b1, b2, b3, b4, b5⟩ := b
  obtain ⟨m1, m2, m3, m4, m5⟩ := m
  simp only [Flags.union, Flags.unmasked]
  cases m1 <;> cases m2 <;> cases m3 <;> cases m4 <;> cases m5 <;> simp <;>
    cases a1 <;> cases a2 <;> cases a3 <;> cases a4 <;> cases a5 <;> simp

theorem Flags.unionAll_unmasked (fs : List Flags) (m : Masks) :
    (Flags.unionAll fs).unmasked m = false ↔ ∀ f ∈ fs, f.unmasked m = false := by
  induction fs with
  | nil => simp [Flags.unionAll, Flags.none, Flags.unmasked]
  | cons f fs ih => simp [Flags.unionAll, Flags.union_unmasked, ih]

/-- With every exception masked, no flag is unmasked (R155, R161). -/
theorem Flags.unmasked_all (f : Flags) : f.unmasked .all = false := by simp [Flags.unmasked, Masks.all]

/-! ## The classes of a string and DAZ (R101, R105) -/

/-- Zero by exponent and fraction (R101). -/
theorem isZero_iff (v : Lane) : isZero v = true ↔ fpExp v = 0 ∧ fpFrac v = 0 := by
  unfold isZero fpClass; split <;> [split; (split <;> [skip; (split <;> [skip; split])])] <;> simp_all

/-- Denormal by exponent and fraction (R101). -/
theorem isDenormal_iff (v : Lane) : isDenormal v = true ↔ fpExp v = 0 ∧ fpFrac v ≠ 0 := by
  unfold isDenormal fpClass; split <;> [split; (split <;> [skip; (split <;> [skip; split])])] <;> simp_all

theorem fpExp_lt (v : Lane) : fpExp v < 2048 := (v.extractLsb' 52 11).isLt

/-- Infinity by exponent and fraction (R101). -/
theorem isInf_iff (v : Lane) : isInf v = true ↔ fpExp v = 2047 ∧ fpFrac v = 0 := by
  have := fpExp_lt v
  unfold isInf fpClass; split <;> [split; (split <;> [skip; (split <;> [skip; split])])] <;> simp_all <;> omega

/-- NaN by exponent and fraction (R101). -/
theorem isNaN_iff (v : Lane) : isNaN v = true ↔ fpExp v = 2047 ∧ fpFrac v ≠ 0 := by
  have := fpExp_lt v
  unfold isNaN isSNaN isQNaN fpClass; split <;> [split; (split <;> [skip; (split <;> [skip; split])])] <;> simp_all <;> omega

theorem fpExp_fpZero (n) : fpExp (fpZero n) = 0 := by cases n <;> decide

theorem fpFrac_fpZero (n) : fpFrac (fpZero n) = 0 := by cases n <;> decide

theorem fpSign_fpZero (n) : fpSign (fpZero n) = n := by cases n <;> decide

/-- DAZ changes only a denormal (R105). -/
theorem dazReplace_of_not_denormal (v : Lane) (h : isDenormal v = false) (d) : dazReplace d v = v := by simp [dazReplace, h]

/-- DAZ leaves infinities and NaNs (R105). -/
theorem dazReplace_of_exp_max (d) (v : Lane) (h : fpExp v = 2047) : dazReplace d v = v := dazReplace_of_not_denormal v (by
  cases hd : isDenormal v; rfl; have := (isDenormal_iff v).1 hd; omega) d

/-- DAZ keeps the sign (R105). -/
theorem fpSign_dazReplace (d) (v : Lane) : fpSign (dazReplace d v) = fpSign v := by unfold dazReplace; split; exact fpSign_fpZero _; rfl

theorem fpExp_dazReplace (d) (v : Lane) : fpExp (dazReplace d v) = fpExp v := by
  unfold dazReplace; split
  · rename_i h; simp only [Bool.and_eq_true] at h; rw [fpExp_fpZero, ((isDenormal_iff v).1 h.2).1]
  · rfl

theorem isNaN_dazReplace (d) (v : Lane) : isNaN (dazReplace d v) = isNaN v := by
  by_cases h : fpExp v = 2047
  · rw [dazReplace_of_exp_max d v h]
  · have a : isNaN v = false := by cases hh : isNaN v; rfl; exact absurd ((isNaN_iff v).1 hh).1 h
    have b : isNaN (dazReplace d v) = false := by cases hh : isNaN (dazReplace d v); rfl; exact absurd (fpExp_dazReplace d v ▸ ((isNaN_iff _).1 hh).1) h
    rw [a, b]

theorem isInf_dazReplace (d) (v : Lane) : isInf (dazReplace d v) = isInf v := by
  by_cases h : fpExp v = 2047
  · rw [dazReplace_of_exp_max d v h]
  · have a : isInf v = false := by cases hh : isInf v; rfl; exact absurd ((isInf_iff v).1 hh).1 h
    have b : isInf (dazReplace d v) = false := by cases hh : isInf (dazReplace d v); rfl; exact absurd (fpExp_dazReplace d v ▸ ((isInf_iff _).1 hh).1) h
    rw [a, b]

/-- No denormal is left under DAZ (R105). -/
theorem isDenormal_dazReplace (d) (v : Lane) : isDenormal (dazReplace d v) = (!d && isDenormal v) := by
  cases d
  · simp [dazReplace]
  · unfold dazReplace
    cases h : isDenormal v
    · simp [h]
    · simp only [Bool.and_self, if_true]
      cases hh : isDenormal (fpZero (fpSign v)); rfl
      exact absurd (fpFrac_fpZero _) ((isDenormal_iff _).1 hh).2

/-- No lane input supplies a NaN exactly when none is one (R106). -/
theorem firstNaN_eq_none (o) (x y z : Lane) : firstNaN o x y z = none ↔ isNaN x = false ∧ isNaN y = false ∧ isNaN z = false := by
  unfold firstNaN
  rw [List.find?_eq_none]
  cases o <;> simp [nanRoles, laneInput] <;> tauto

/-- Rounding passes DE on and never sets IE (R111 to R113). -/
theorem roundOut_flags (rc neg a de ftz m) : (roundOut rc neg a de ftz m).flags.de = de ∧ (roundOut rc neg a de ftz m).flags.ie = false := by
  rw [roundOut_eq]; unfold overflowOut tinyOut
  repeat' split
  all_goals exact ⟨rfl, rfl⟩

/-- The three fields of a packed string (R100). -/
theorem fpPack_fields (neg : Bool) (e f : Nat) (he : e < 2048) (hf : f < 2 ^ 52) : fpSign (fpPack neg e f) = neg ∧ fpExp (fpPack neg e f) = e ∧ fpFrac (fpPack neg e f) = f := by
  unfold fpSign fpExp fpFrac fpPack
  refine ⟨?_, ?_, ?_⟩
  · simp only [BitVec.getLsbD_append]; simp
  · have : (BitVec.ofBool neg ++ BitVec.ofNat 11 e ++ BitVec.ofNat 52 f).extractLsb' 52 11 = BitVec.ofNat 11 e := by
      apply BitVec.eq_of_getLsbD_eq
      intro i hi
      simp only [BitVec.getLsbD_append, BitVec.getLsbD_extractLsb', hi, decide_true, Bool.true_and]; simp [hi]
    rw [this, BitVec.toNat_ofNat]; exact Nat.mod_eq_of_lt he
  · have : (BitVec.ofBool neg ++ BitVec.ofNat 11 e ++ BitVec.ofNat 52 f).extractLsb' 0 52 = BitVec.ofNat 52 f := by
      apply BitVec.eq_of_getLsbD_eq
      intro i hi
      simp only [BitVec.getLsbD_append, BitVec.getLsbD_extractLsb', hi, decide_true, Bool.true_and]; simp [hi]
    rw [this, BitVec.toNat_ofNat]; exact Nat.mod_eq_of_lt hf

end Sys2Proof.Machine
end

