-- ==== Sys2Proof/Laws/State.lean ====
section
/-! SUPPORT. One lemma per field per update of the state, all true by unfolding. -/

namespace Sys2Proof.Machine

variable (s : State)

/-! ## orMxcsr -/

@[simp] theorem State.orMxcsr_v (b : BitVec 32) : (s.orMxcsr b).v = s.v := rfl
@[simp] theorem State.orMxcsr_k (b : BitVec 32) : (s.orMxcsr b).k = s.k := rfl
@[simp] theorem State.orMxcsr_g (b : BitVec 32) : (s.orMxcsr b).g = s.g := rfl
@[simp] theorem State.orMxcsr_mxcsr (b : BitVec 32) : (s.orMxcsr b).mxcsr = s.mxcsr ||| b := rfl
@[simp] theorem State.orMxcsr_pc (b : BitVec 32) : (s.orMxcsr b).pc = s.pc := rfl
@[simp] theorem State.orMxcsr_fsBase (b : BitVec 32) : (s.orMxcsr b).fsBase = s.fsBase := rfl
@[simp] theorem State.orMxcsr_gsBase (b : BitVec 32) : (s.orMxcsr b).gsBase = s.gsBase := rfl
@[simp] theorem State.orMxcsr_segs (b : BitVec 32) : (s.orMxcsr b).segs = s.segs := rfl
@[simp] theorem State.orMxcsr_mode (b : BitVec 32) : (s.orMxcsr b).mode = s.mode := rfl
@[simp] theorem State.orMxcsr_cr0 (b : BitVec 32) : (s.orMxcsr b).cr0 = s.cr0 := rfl
@[simp] theorem State.orMxcsr_cr4 (b : BitVec 32) : (s.orMxcsr b).cr4 = s.cr4 := rfl
@[simp] theorem State.orMxcsr_xcr0 (b : BitVec 32) : (s.orMxcsr b).xcr0 = s.xcr0 := rfl
@[simp] theorem State.orMxcsr_eflagsAC (b : BitVec 32) : (s.orMxcsr b).eflagsAC = s.eflagsAC := rfl
@[simp] theorem State.orMxcsr_cpl (b : BitVec 32) : (s.orMxcsr b).cpl = s.cpl := rfl
@[simp] theorem State.orMxcsr_mem (b : BitVec 32) : (s.orMxcsr b).mem = s.mem := rfl
@[simp] theorem State.orMxcsr_text (b : BitVec 32) : (s.orMxcsr b).text = s.text := rfl
@[simp] theorem State.orMxcsr_cfg (b : BitVec 32) : (s.orMxcsr b).cfg = s.cfg := rfl

/-! ## writeV -/

@[simp] theorem State.writeV_v (i : BitVec 5) (x : VReg) : (s.writeV i x).v = s.v.set i.toNat (fitMaxVL s.cfg.maxvl x) i.isLt := rfl
@[simp] theorem State.writeV_k (i : BitVec 5) (x : VReg) : (s.writeV i x).k = s.k := rfl
@[simp] theorem State.writeV_g (i : BitVec 5) (x : VReg) : (s.writeV i x).g = s.g := rfl
@[simp] theorem State.writeV_mxcsr (i : BitVec 5) (x : VReg) : (s.writeV i x).mxcsr = s.mxcsr := rfl
@[simp] theorem State.writeV_pc (i : BitVec 5) (x : VReg) : (s.writeV i x).pc = s.pc := rfl
@[simp] theorem State.writeV_fsBase (i : BitVec 5) (x : VReg) : (s.writeV i x).fsBase = s.fsBase := rfl
@[simp] theorem State.writeV_gsBase (i : BitVec 5) (x : VReg) : (s.writeV i x).gsBase = s.gsBase := rfl
@[simp] theorem State.writeV_segs (i : BitVec 5) (x : VReg) : (s.writeV i x).segs = s.segs := rfl
@[simp] theorem State.writeV_mode (i : BitVec 5) (x : VReg) : (s.writeV i x).mode = s.mode := rfl
@[simp] theorem State.writeV_cr0 (i : BitVec 5) (x : VReg) : (s.writeV i x).cr0 = s.cr0 := rfl
@[simp] theorem State.writeV_cr4 (i : BitVec 5) (x : VReg) : (s.writeV i x).cr4 = s.cr4 := rfl
@[simp] theorem State.writeV_xcr0 (i : BitVec 5) (x : VReg) : (s.writeV i x).xcr0 = s.xcr0 := rfl
@[simp] theorem State.writeV_eflagsAC (i : BitVec 5) (x : VReg) : (s.writeV i x).eflagsAC = s.eflagsAC := rfl
@[simp] theorem State.writeV_cpl (i : BitVec 5) (x : VReg) : (s.writeV i x).cpl = s.cpl := rfl
@[simp] theorem State.writeV_mem (i : BitVec 5) (x : VReg) : (s.writeV i x).mem = s.mem := rfl
@[simp] theorem State.writeV_text (i : BitVec 5) (x : VReg) : (s.writeV i x).text = s.text := rfl
@[simp] theorem State.writeV_cfg (i : BitVec 5) (x : VReg) : (s.writeV i x).cfg = s.cfg := rfl

/-! ## advance -/

@[simp] theorem State.advance_v (n : Nat) : (s.advance n).v = s.v := rfl
@[simp] theorem State.advance_k (n : Nat) : (s.advance n).k = s.k := rfl
@[simp] theorem State.advance_g (n : Nat) : (s.advance n).g = s.g := rfl
@[simp] theorem State.advance_mxcsr (n : Nat) : (s.advance n).mxcsr = s.mxcsr := rfl
@[simp] theorem State.advance_pc (n : Nat) : (s.advance n).pc = s.pcAfter n := rfl
@[simp] theorem State.advance_fsBase (n : Nat) : (s.advance n).fsBase = s.fsBase := rfl
@[simp] theorem State.advance_gsBase (n : Nat) : (s.advance n).gsBase = s.gsBase := rfl
@[simp] theorem State.advance_segs (n : Nat) : (s.advance n).segs = s.segs := rfl
@[simp] theorem State.advance_mode (n : Nat) : (s.advance n).mode = s.mode := rfl
@[simp] theorem State.advance_cr0 (n : Nat) : (s.advance n).cr0 = s.cr0 := rfl
@[simp] theorem State.advance_cr4 (n : Nat) : (s.advance n).cr4 = s.cr4 := rfl
@[simp] theorem State.advance_xcr0 (n : Nat) : (s.advance n).xcr0 = s.xcr0 := rfl
@[simp] theorem State.advance_eflagsAC (n : Nat) : (s.advance n).eflagsAC = s.eflagsAC := rfl
@[simp] theorem State.advance_cpl (n : Nat) : (s.advance n).cpl = s.cpl := rfl
@[simp] theorem State.advance_mem (n : Nat) : (s.advance n).mem = s.mem := rfl
@[simp] theorem State.advance_text (n : Nat) : (s.advance n).text = s.text := rfl
@[simp] theorem State.advance_cfg (n : Nat) : (s.advance n).cfg = s.cfg := rfl

/-! ## placeAtPc -/

@[simp] theorem State.placeAtPc_v (bs : List Byte) : (s.placeAtPc bs).v = s.v := rfl
@[simp] theorem State.placeAtPc_k (bs : List Byte) : (s.placeAtPc bs).k = s.k := rfl
@[simp] theorem State.placeAtPc_g (bs : List Byte) : (s.placeAtPc bs).g = s.g := rfl
@[simp] theorem State.placeAtPc_mxcsr (bs : List Byte) : (s.placeAtPc bs).mxcsr = s.mxcsr := rfl
@[simp] theorem State.placeAtPc_pc (bs : List Byte) : (s.placeAtPc bs).pc = s.pc := rfl
@[simp] theorem State.placeAtPc_fsBase (bs : List Byte) : (s.placeAtPc bs).fsBase = s.fsBase := rfl
@[simp] theorem State.placeAtPc_gsBase (bs : List Byte) : (s.placeAtPc bs).gsBase = s.gsBase := rfl
@[simp] theorem State.placeAtPc_segs (bs : List Byte) : (s.placeAtPc bs).segs = s.segs := rfl
@[simp] theorem State.placeAtPc_mode (bs : List Byte) : (s.placeAtPc bs).mode = s.mode := rfl
@[simp] theorem State.placeAtPc_cr0 (bs : List Byte) : (s.placeAtPc bs).cr0 = s.cr0 := rfl
@[simp] theorem State.placeAtPc_cr4 (bs : List Byte) : (s.placeAtPc bs).cr4 = s.cr4 := rfl
@[simp] theorem State.placeAtPc_xcr0 (bs : List Byte) : (s.placeAtPc bs).xcr0 = s.xcr0 := rfl
@[simp] theorem State.placeAtPc_eflagsAC (bs : List Byte) : (s.placeAtPc bs).eflagsAC = s.eflagsAC := rfl
@[simp] theorem State.placeAtPc_cpl (bs : List Byte) : (s.placeAtPc bs).cpl = s.cpl := rfl
@[simp] theorem State.placeAtPc_mem (bs : List Byte) : (s.placeAtPc bs).mem = s.mem := rfl
@[simp] theorem State.placeAtPc_text (bs : List Byte) : (s.placeAtPc bs).text = Memory.load s.text s.pc.toNat bs := rfl
@[simp] theorem State.placeAtPc_cfg (bs : List Byte) : (s.placeAtPc bs).cfg = s.cfg := rfl

/-! ## Readers that an update leaves alone -/

@[simp] theorem State.orMxcsr_is32 (b : BitVec 32) : (s.orMxcsr b).is32 = s.is32 := rfl
@[simp] theorem State.orMxcsr_isLegacy (b : BitVec 32) : (s.orMxcsr b).isLegacy = s.isLegacy := rfl
@[simp] theorem State.orMxcsr_osxsave (b : BitVec 32) : (s.orMxcsr b).osxsave = s.osxsave := rfl
@[simp] theorem State.orMxcsr_ts (b : BitVec 32) : (s.orMxcsr b).ts = s.ts := rfl
@[simp] theorem State.orMxcsr_readK (b : BitVec 32) (j : BitVec 3) : (s.orMxcsr b).readK j = s.readK j := rfl
@[simp] theorem State.orMxcsr_readV (b : BitVec 32) (j : BitVec 5) : (s.orMxcsr b).readV j = s.readV j := rfl
@[simp] theorem State.orMxcsr_readG (b : BitVec 32) (j : BitVec 4) : (s.orMxcsr b).readG j = s.readG j := rfl
@[simp] theorem State.orMxcsr_pcAfter (b : BitVec 32) (l : Nat) : (s.orMxcsr b).pcAfter l = s.pcAfter l := rfl
@[simp] theorem State.writeV_is32 (i : BitVec 5) (x : VReg) : (s.writeV i x).is32 = s.is32 := rfl
@[simp] theorem State.writeV_isLegacy (i : BitVec 5) (x : VReg) : (s.writeV i x).isLegacy = s.isLegacy := rfl
@[simp] theorem State.writeV_osxsave (i : BitVec 5) (x : VReg) : (s.writeV i x).osxsave = s.osxsave := rfl
@[simp] theorem State.writeV_ts (i : BitVec 5) (x : VReg) : (s.writeV i x).ts = s.ts := rfl
@[simp] theorem State.writeV_readK (i : BitVec 5) (x : VReg) (j : BitVec 3) : (s.writeV i x).readK j = s.readK j := rfl
@[simp] theorem State.writeV_readG (i : BitVec 5) (x : VReg) (j : BitVec 4) : (s.writeV i x).readG j = s.readG j := rfl
@[simp] theorem State.writeV_pcAfter (i : BitVec 5) (x : VReg) (l : Nat) : (s.writeV i x).pcAfter l = s.pcAfter l := rfl
@[simp] theorem State.advance_is32 (n : Nat) : (s.advance n).is32 = s.is32 := rfl
@[simp] theorem State.advance_isLegacy (n : Nat) : (s.advance n).isLegacy = s.isLegacy := rfl
@[simp] theorem State.advance_osxsave (n : Nat) : (s.advance n).osxsave = s.osxsave := rfl
@[simp] theorem State.advance_ts (n : Nat) : (s.advance n).ts = s.ts := rfl
@[simp] theorem State.advance_readK (n : Nat) (j : BitVec 3) : (s.advance n).readK j = s.readK j := rfl
@[simp] theorem State.advance_readV (n : Nat) (j : BitVec 5) : (s.advance n).readV j = s.readV j := rfl
@[simp] theorem State.advance_readG (n : Nat) (j : BitVec 4) : (s.advance n).readG j = s.readG j := rfl
@[simp] theorem State.placeAtPc_is32 (bs : List Byte) : (s.placeAtPc bs).is32 = s.is32 := rfl
@[simp] theorem State.placeAtPc_isLegacy (bs : List Byte) : (s.placeAtPc bs).isLegacy = s.isLegacy := rfl
@[simp] theorem State.placeAtPc_osxsave (bs : List Byte) : (s.placeAtPc bs).osxsave = s.osxsave := rfl
@[simp] theorem State.placeAtPc_ts (bs : List Byte) : (s.placeAtPc bs).ts = s.ts := rfl
@[simp] theorem State.placeAtPc_readK (bs : List Byte) (j : BitVec 3) : (s.placeAtPc bs).readK j = s.readK j := rfl
@[simp] theorem State.placeAtPc_readV (bs : List Byte) (j : BitVec 5) : (s.placeAtPc bs).readV j = s.readV j := rfl
@[simp] theorem State.placeAtPc_readG (bs : List Byte) (j : BitVec 4) : (s.placeAtPc bs).readG j = s.readG j := rfl
@[simp] theorem State.placeAtPc_pcAfter (bs : List Byte) (l : Nat) : (s.placeAtPc bs).pcAfter l = s.pcAfter l := rfl

end Sys2Proof.Machine
end

