-- ==== Sys2Proof/Laws/Vector.lean ====
section
/-! SUPPORT. Vector laws: lanes of a packed vector, and reading a vector register after a write. -/

namespace Sys2Proof.Machine

theorem laneOf_getLsbD (x : VReg) (j i : Nat) : (laneOf x j).getLsbD i = (decide (i < 64) && x.getLsbD (64 * j + i)) := by
  unfold laneOf; rw [BitVec.getLsbD_extractLsb']

theorem packLanes_getLsbD (ls : List Lane) : ∀ i, i < 512 →
    (packLanes ls).getLsbD i = (ls.getD (i / 64) 0#64).getLsbD (i % 64) := by
  induction ls with
  | nil => intro i _; simp [packLanes]
  | cons l ls ih =>
    intro i hi
    simp only [packLanes, BitVec.getLsbD_or, BitVec.getLsbD_setWidth, BitVec.getLsbD_shiftLeft, hi, decide_true,
      Bool.true_and]
    by_cases h : i < 64
    · rw [Nat.div_eq_of_lt h, Nat.mod_eq_of_lt h]; simp [h]
    · rw [BitVec.getLsbD_of_ge l i (by omega), ih (i - 64) (by omega)]
      obtain ⟨k, rfl⟩ : ∃ k, i = k + 64 := ⟨i - 64, by omega⟩
      simp

/-- Lane `j` of a packed vector is the `j`-th lane, or 0 beyond the last (R22). -/
theorem laneOf_packLanes (ls : List Lane) {j : Nat} (hj : j < 8) : laneOf (packLanes ls) j = ls.getD j 0#64 := by
  apply BitVec.eq_of_getLsbD_eq
  intro i hi
  rw [laneOf_getLsbD, packLanes_getLsbD _ _ (by omega), show (64 * j + i) / 64 = j by omega,
    show (64 * j + i) % 64 = i by omega]
  simp [hi]

theorem fitMaxVL_getLsbD (w : MaxVL) (x : VReg) (i : Nat) :
    (fitMaxVL w x).getLsbD i = (decide (i < w.bits) && x.getLsbD i) := by
  cases w with
  | w256 =>
    simp only [fitMaxVL, BitVec.getLsbD_setWidth, MaxVL.bits]
    by_cases h : i < 256
    · simp [h]; omega
    · simp [h]
  | w512 =>
    simp only [fitMaxVL, MaxVL.bits]
    by_cases h : i < 512
    · simp [h]
    · simp [h, BitVec.getLsbD_of_ge x i (by omega)]

@[simp] theorem fitMaxVL_fitMaxVL (w : MaxVL) (x : VReg) : fitMaxVL w (fitMaxVL w x) = fitMaxVL w x := by
  apply BitVec.eq_of_getLsbD_eq
  intro i _
  simp only [fitMaxVL_getLsbD]
  simp

/-- A vector of `n` lanes fits a register of at least that length (R22). -/
theorem fitMaxVL_packLanes {w : MaxVL} {ls : List Lane} (h : 64 * ls.length ≤ w.bits) :
    fitMaxVL w (packLanes ls) = packLanes ls := by
  apply BitVec.eq_of_getLsbD_eq
  intro i hi
  rw [fitMaxVL_getLsbD]
  by_cases hb : i < w.bits
  · simp [hb]
  · rw [packLanes_getLsbD _ _ hi]
    simp [hb, List.getD_eq_getElem?_getD, List.getElem?_eq_none (show ls.length ≤ i / 64 by omega)]

/-- Two vectors agree when their eight lanes do. -/
theorem eq_of_lanes {x y : VReg} (h : ∀ j, j < 8 → laneOf x j = laneOf y j) : x = y := by
  apply BitVec.eq_of_getLsbD_eq
  intro i hi
  have := congrArg (fun l => BitVec.getLsbD l (i % 64)) (h (i / 64) (by omega))
  simp only [laneOf_getLsbD] at this
  rw [show 64 * (i / 64) + i % 64 = i by omega] at this
  simpa [Nat.mod_lt] using this

@[simp] theorem State.readV_writeV_same (s : State) (i : BitVec 5) (x : VReg) :
    (s.writeV i x).readV i = fitMaxVL s.cfg.maxvl x := by
  simp [State.readV, State.writeV]

theorem State.readV_writeV_other (s : State) {i j : BitVec 5} (x : VReg) (h : j ≠ i) :
    (s.writeV i x).readV j = s.readV j := by
  have : i.toNat ≠ j.toNat := fun e => h (BitVec.eq_of_toNat_eq e.symm)
  simp [State.readV, State.writeV, this]

end Sys2Proof.Machine
end

