-- ==== Sys2Proof/Laws/Exec.lean ====
section
/-! SUPPORT. What an instruction can do, said once: `exec` runs the form of its row, and a run ends in one of four ways. -/

namespace Sys2Proof.Machine

/-- Every arm of `exec` runs the form of its row. -/
theorem exec_eq_run (i : Instr) (s : State) : exec i s = (formOf i).run s := by cases i <;> rfl

@[simp] theorem formOf_bytes (i : Instr) : (formOf i).bytes = i.len := by cases i <;> rfl

/-! ## Flags -/

@[simp] theorem Flags.union_none (f : Flags) : f.union .none = f := by cases f; simp [Flags.union, Flags.none]
@[simp] theorem Flags.none_union (f : Flags) : Flags.none.union f = f := by cases f; simp [Flags.union, Flags.none]
@[simp] theorem Flags.unmasked_none (m : Masks) : Flags.none.unmasked m = false := rfl
@[simp] theorem Flags.bits_none : Flags.none.bits = 0#32 := rfl
@[simp] theorem Flags.pre_none : Flags.none.pre = .none := rfl
@[simp] theorem Flags.post_none : Flags.none.post = .none := rfl

/-- A set of flags is unmasked when a flag of its first or of its second stage is (R162). -/
theorem Flags.unmasked_eq (f : Flags) (m : Masks) : f.unmasked m = (f.pre.unmasked m || f.post.unmasked m) := by
  obtain ⟨a, b, c, d, e⟩ := f
  simp [Flags.unmasked, Flags.pre, Flags.post, Bool.or_assoc]

/-- The flags stand on the five flag bits of `MXCSR` only. -/
theorem Flags.bits_and (f : Flags) : f.bits &&& ~~~mxcsrFlagBits = 0#32 := by
  obtain ⟨a, b, c, d, e⟩ := f
  cases a <;> cases b <;> cases c <;> cases d <;> cases e <;> decide

theorem or_bits_control (m : BitVec 32) (f : Flags) :
    (m ||| f.bits) &&& ~~~mxcsrFlagBits = m &&& ~~~mxcsrFlagBits := by
  have h := f.bits_and
  apply BitVec.eq_of_getLsbD_eq
  intro i hi
  have := congrArg (fun x => BitVec.getLsbD x i) h
  simp only [BitVec.getLsbD_and, BitVec.getLsbD_or, BitVec.getLsbD_zero] at this ⊢
  rw [Bool.and_or_distrib_right, this, Bool.or_false]

theorem or_bits_sticky (m b : BitVec 32) : m &&& (m ||| b) = m := by
  apply BitVec.eq_of_getLsbD_eq
  intro i hi
  simp only [BitVec.getLsbD_and, BitVec.getLsbD_or]
  cases m.getLsbD i <;> simp

/-! ## The lanes -/

@[simp] theorem Form.lanes_length (f : Form) (s : State) (s3 : VReg) : (f.lanes s s3).length = lanesOf f.vl := by
  simp [Form.lanes]

@[simp] theorem laneValues_length (ls : List LaneOut) : (laneValues ls).length = ls.length := by simp [laneValues]

theorem lanesOf_le (l : VecLen) : lanesOf l ≤ 8 := by cases l <;> decide

/-- Lane `j` of the packed values of a form. -/
theorem Form.laneOf_values (f : Form) (s : State) (s3 : VReg) {j : Nat} (hj : j < 8) :
    laneOf (packLanes (laneValues (f.lanes s s3))) j =
      if j < lanesOf f.vl then (f.lane s s3 j).value.getD 0#64 else 0#64 := by
  rw [laneOf_packLanes _ hj]
  simp only [laneValues, Form.lanes, List.map_map, List.getD_eq_getElem?_getD, List.getElem?_map]
  by_cases h : j < lanesOf f.vl
  · simp [h]
  · simp [h]

/-- The flags of a form are those of its active lanes (R143, R161). -/
theorem Form.laneFlags_eq (f : Form) (s : State) (s3 : VReg) :
    laneFlags (f.lanes s s3) = activeFlags (lanesOf f.vl) (f.active s) (f.computeLane s s3) := by
  simp only [laneFlags, Form.lanes, activeFlags, List.map_map]
  congr 1
  apply List.map_congr_left
  intro j _
  simp only [Function.comp, Form.lane]
  split <;> rfl

/-! ## Completion -/

section complete
variable (f : Form) (s : State) (vals : List Lane) (fl : Flags)

@[simp] theorem Form.complete_v : (f.complete s vals fl).v =
    s.v.set f.dest.toNat (fitMaxVL s.cfg.maxvl (packLanes vals)) f.dest.isLt := rfl
@[simp] theorem Form.complete_k : (f.complete s vals fl).k = s.k := rfl
@[simp] theorem Form.complete_g : (f.complete s vals fl).g = s.g := rfl
@[simp] theorem Form.complete_mxcsr : (f.complete s vals fl).mxcsr = s.mxcsr ||| fl.bits := rfl
@[simp] theorem Form.complete_pc : (f.complete s vals fl).pc = s.pcAfter f.bytes := rfl
@[simp] theorem Form.complete_mem : (f.complete s vals fl).mem = s.mem := rfl
@[simp] theorem Form.complete_text : (f.complete s vals fl).text = s.text := rfl
@[simp] theorem Form.complete_cfg : (f.complete s vals fl).cfg = s.cfg := rfl
@[simp] theorem Form.complete_is32 : (f.complete s vals fl).is32 = s.is32 := rfl

theorem Form.readV_complete : (f.complete s vals fl).readV f.dest = fitMaxVL s.cfg.maxvl (packLanes vals) := by
  simp [State.readV]

/-- What completion leaves alone (R34). -/
theorem Form.frame_complete : Frame f.dest s (f.complete s vals fl) where
  vector i hi := by
    rw [Form.complete_v]
    exact Vector.getElem_set_ne _ _ (Ne.symm hi)
  opmask := rfl
  general := rfl
  fsBase := rfl
  gsBase := rfl
  segs := rfl
  mode := rfl
  cr0 := rfl
  cr4 := rfl
  xcr0 := rfl
  eflagsAC := rfl
  cpl := rfl
  memory _ := rfl
  text _ := rfl
  cfg := rfl
  mxcsrControl := or_bits_control _ _
  mxcsrSticky := or_bits_sticky _ _

end complete

/-! ## The four ways a form can end -/

/-- A form faults before its operands, is refused, faults on its memory operand, or finishes (R131, R144, R173). -/
theorem Form.run_cases (f : Form) (s : State) :
    (∃ e, f.entryFault s = some e ∧ f.run s = raise e s) ∨
    (f.entryFault s = none ∧ f.named s = false ∧ f.run s = .refused .noSuchRegister) ∨
    (f.entryFault s = none ∧ f.named s = true ∧ f.addr16 s = true ∧ f.run s = .refused .addr16) ∨
    (∃ e, f.entryFault s = none ∧ f.nameable s = true ∧ f.thirdSource s = .error e ∧ f.run s = raise e s) ∨
    (∃ s3, f.entryFault s = none ∧ f.nameable s = true ∧ f.thirdSource s = .ok s3 ∧
      f.run s = f.finish s (f.lanes s s3)) := by
  unfold Form.run Form.nameable
  cases f.entryFault s with
  | some e => exact .inl ⟨e, rfl, rfl⟩
  | none =>
    cases f.named s with
    | false => exact .inr (.inl ⟨rfl, rfl, rfl⟩)
    | true =>
      cases f.addr16 s with
      | true => exact .inr (.inr (.inl ⟨rfl, rfl, rfl, rfl⟩))
      | false =>
        cases f.thirdSource s with
        | error e => exact .inr (.inr (.inr (.inl ⟨e, rfl, rfl, rfl, rfl⟩)))
        | ok s3 => exact .inr (.inr (.inr (.inr ⟨s3, rfl, rfl, rfl, rfl⟩)))

/-- How a form with all its operands ends: embedded rounding completes without flags, an unmasked
operand flag traps, an unmasked result flag traps, or the form completes (R155, R162). -/
theorem Form.finish_cases (f : Form) (s : State) (ls : List LaneOut) :
    (f.sae = true ∧ f.finish s ls = .next (f.complete s (laneValues ls) .none)) ∨
    (f.sae = false ∧ (laneFlags ls).pre.unmasked (mxcsrMasks s.mxcsr) = true ∧
      f.finish s ls = raise (simdException s) (s.orMxcsr (laneFlags ls).pre.bits)) ∨
    (f.sae = false ∧ (laneFlags ls).pre.unmasked (mxcsrMasks s.mxcsr) = false ∧
      (laneFlags ls).post.unmasked (mxcsrMasks s.mxcsr) = true ∧
      f.finish s ls = raise (simdException s) (s.orMxcsr (laneFlags ls).bits)) ∨
    (f.sae = false ∧ (laneFlags ls).unmasked (mxcsrMasks s.mxcsr) = false ∧
      f.finish s ls = .next (f.complete s (laneValues ls) (laneFlags ls))) := by
  unfold Form.finish
  cases f.sae with
  | true => exact .inl ⟨rfl, rfl⟩
  | false =>
    cases h1 : (laneFlags ls).pre.unmasked (mxcsrMasks s.mxcsr) with
    | true => exact .inr (.inl ⟨rfl, rfl, rfl⟩)
    | false =>
      cases h2 : (laneFlags ls).post.unmasked (mxcsrMasks s.mxcsr) with
      | true => exact .inr (.inr (.inl ⟨rfl, rfl, rfl, rfl⟩))
      | false =>
        refine .inr (.inr (.inr ⟨rfl, ?_, rfl⟩))
        rw [Flags.unmasked_eq, h1, h2]; rfl

/-- A form that answers a next state completed with all its lanes. -/
theorem Form.run_next {f : Form} {s t : State} (h : f.run s = .next t) :
    ∃ s3, f.entryFault s = none ∧ f.nameable s = true ∧ f.thirdSource s = .ok s3 ∧
      t = f.complete s (laneValues (f.lanes s s3)) (if f.sae then .none else laneFlags (f.lanes s s3)) ∧
      (f.sae = false → (laneFlags (f.lanes s s3)).unmasked (mxcsrMasks s.mxcsr) = false) := by
  rcases f.run_cases s with ⟨e, _, hr⟩ | ⟨_, _, hr⟩ | ⟨_, _, _, hr⟩ | ⟨e, _, _, _, hr⟩ | ⟨s3, h1, h2, h3, hr⟩
  · rw [hr] at h; cases h
  · rw [hr] at h; cases h
  · rw [hr] at h; cases h
  · rw [hr] at h; cases h
  · rw [hr] at h
    refine ⟨s3, h1, h2, h3, ?_⟩
    rcases f.finish_cases s (f.lanes s s3) with ⟨hs, hf⟩ | ⟨_, _, hf⟩ | ⟨_, _, _, hf⟩ | ⟨hs, hm, hf⟩
    · rw [hf] at h; cases h; simp [hs]
    · rw [hf] at h; cases h
    · rw [hf] at h; cases h
    · rw [hf] at h; cases h; simp [hs, hm]

/-- A form that faults leaves the state but for flags of `MXCSR`, and those only with `SimdFP` (R162, R174, R175). -/
theorem Form.run_fault {f : Form} {s a : State} {e : Exception} (h : f.run s = .fault (.raised e a)) :
    (a = s ∧ (f.entryFault s = some e ∨ f.thirdSource s = .error e)) ∨
    (e = simdException s ∧ f.sae = false ∧ ∃ fl : Flags, a = s.orMxcsr fl.bits) := by
  rcases f.run_cases s with ⟨e', he, hr⟩ | ⟨_, _, hr⟩ | ⟨_, _, _, hr⟩ | ⟨e', _, _, he, hr⟩ | ⟨s3, h1, h2, h3, hr⟩
  · rw [hr] at h; cases h; exact .inl ⟨rfl, .inl he⟩
  · rw [hr] at h; cases h
  · rw [hr] at h; cases h
  · rw [hr] at h; cases h; exact .inl ⟨rfl, .inr he⟩
  · rw [hr] at h
    rcases f.finish_cases s (f.lanes s s3) with ⟨hs, hf⟩ | ⟨hs, _, hf⟩ | ⟨hs, _, _, hf⟩ | ⟨hs, hm, hf⟩
    · rw [hf] at h; cases h
    · rw [hf] at h; cases h; exact .inr ⟨rfl, hs, _, rfl⟩
    · rw [hf] at h; cases h; exact .inr ⟨rfl, hs, _, rfl⟩
    · rw [hf] at h; cases h

/-! ## The checks before the operands -/

/-- Well-formed instructions pass the checks that the decoder has already made (log entry 27). -/
theorem wellFormed_checks {i : Instr} (h : i.wellFormed = true) :
    i.len ≤ 15 ∧ ¬((formOf i).zeroing = true ∧ (formOf i).mask = 0#3) := by
  cases i <;>
    simp only [Instr.wellFormed, VexOps.wellFormed, EvexOps.wellFormedWith, Bool.and_eq_true, decide_eq_true_eq,
      Bool.or_eq_true, Bool.not_eq_true', bne_iff_ne, ne_eq] at h
  all_goals first
    | exact ⟨h.1, by simp [formOf, vexForm]⟩
    | exact ⟨h.1.1, by
        rintro ⟨hz, hm⟩
        simp only [formOf, evexForm, evexForm512] at hz hm
        rcases h.2 with h2 | h2
        · rw [hz] at h2; cases h2
        · exact h2 hm⟩

/-- The entry checks of a well-formed instruction: enables, then `CR0.TS` (R166, R167). -/
theorem entryFault_of_wellFormed {i : Instr} (h : i.wellFormed = true) (s : State) :
    (formOf i).entryFault s =
      if (formOf i).enabled s = false then some .ud else if s.ts then some .nm else none := by
  obtain ⟨h1, h2⟩ := wellFormed_checks h
  unfold Form.entryFault
  rw [formOf_bytes, if_neg (by omega), if_neg h2]
  cases (formOf i).enabled s <;> simp

/-- The enables of a form, read from the bits of R32 and the feature flags (R166). -/
theorem enabled_eq_false_iff (i : Instr) (s : State) : (formOf i).enabled s = false ↔ NotEnabled i s := by
  have hx12 : s.xcrAvx = false ↔ s.xcr0.extractLsb' 1 2 ≠ 3#2 := by
    have e1 : s.xcr0.getLsbD 1 = (s.xcr0.extractLsb' 1 2).getLsbD 0 := by simp
    have e2 : s.xcr0.getLsbD 2 = (s.xcr0.extractLsb' 1 2).getLsbD 1 := by simp
    rw [State.xcrAvx, e1, e2]; generalize s.xcr0.extractLsb' 1 2 = q; revert q; decide
  have hx567 : s.xcrZmm = false ↔ s.xcr0.extractLsb' 5 3 ≠ 7#3 := by
    have e1 : s.xcr0.getLsbD 5 = (s.xcr0.extractLsb' 5 3).getLsbD 0 := by simp
    have e2 : s.xcr0.getLsbD 6 = (s.xcr0.extractLsb' 5 3).getLsbD 1 := by simp
    have e3 : s.xcr0.getLsbD 7 = (s.xcr0.extractLsb' 5 3).getLsbD 2 := by simp
    rw [State.xcrZmm, e1, e2, e3]; generalize s.xcr0.extractLsb' 5 3 = q; revert q; decide
  have hm : s.isLegacy = true ↔ (s.mode = .real ∨ s.mode = .v86) := by
    unfold State.isLegacy; cases s.mode <;> simp
  have hos : s.cr4.getLsbD 18 = s.osxsave := rfl
  unfold NotEnabled
  rw [← hx12, ← hx567, ← or_assoc, ← hm, hos]
  unfold Form.enabled Form.featuresOk
  obtain ⟨m, ev, vl, p, d, s2, s3, k, z, b⟩ := formOf i
  cases ev <;> cases vl <;> simp <;>
    cases s.isLegacy <;> cases s.osxsave <;> cases s.xcrAvx <;> cases s.xcrZmm <;> simp <;>
    cases s.cfg.avx512f <;> simp

/-- The entry checks of a well-formed instruction, in the words of R166 and R167. -/
theorem entryFault_eq_some_ud {i : Instr} {s : State} (h : i.wellFormed = true) (hn : NotEnabled i s) :
    (formOf i).entryFault s = some .ud := by
  rw [entryFault_of_wellFormed h, if_pos ((enabled_eq_false_iff i s).2 hn)]

theorem entryFault_of_enabled {i : Instr} {s : State} (h : i.wellFormed = true) (hn : ¬NotEnabled i s) :
    (formOf i).entryFault s = if s.ts then some .nm else none := by
  rw [entryFault_of_wellFormed h, if_neg fun hf => hn ((enabled_eq_false_iff i s).1 hf)]

/-! ## Operand 3 -/

theorem Form.addr16_of_not32 (f : Form) {s : State} (h : s.is32 = false) : f.addr16 s = false := by
  unfold Form.addr16; cases f.src3 <;> simp [h]

/-- Which bytes the memory form of operand 3 accesses, as its read is given them. -/
def Form.need (f : Form) (s : State) (bcst : Bool) (j : Nat) : Bool :=
  if bcst then f.needsElement s else f.needsByte s j

theorem Form.need_iff_accesses (f : Form) (s : State) (bcst : Bool) (j : Nat) :
    f.need s bcst j = true ↔ f.accesses s bcst j := by
  unfold Form.need Form.accesses Form.needsElement Form.needsByte Form.suppresses
  cases bcst <;> cases f.evex <;> cases s.cfg.faultSuppression <;> simp

/-- The faults of operand 3 are those of its one memory read (R47, R142). -/
theorem Form.thirdSource_mem (f : Form) (s : State) {a : MemAddr} {b : Bool} (h : f.src3 = .mem a b) :
    (∃ e, s.memFault (operandSeg s f.pfx a) (f.effAddr s a b) (f.operandBytes b) (f.need s b) = some e ∧
      f.thirdSource s = .error e) ∨
    (s.memFault (operandSeg s f.pfx a) (f.effAddr s a b) (f.operandBytes b) (f.need s b) = none ∧
      ∃ s3, f.thirdSource s = .ok s3) := by
  unfold Form.thirdSource Form.operandBytes Form.need
  rw [h]
  cases b with
  | false =>
    rcases s.memRead_cases (operandSeg s f.pfx a) (f.effAddr s a false) (bytesOf f.vl) (f.needsByte s) with
      ⟨e, h1, h2⟩ | ⟨h1, h2⟩
    · exact .inl ⟨e, h1, h2⟩
    · exact .inr ⟨h1, _, h2⟩
  | true =>
    rcases s.memRead_cases (operandSeg s f.pfx a) (f.effAddr s a true) 8 (fun _ => f.needsElement s) with
      ⟨e, h1, h2⟩ | ⟨h1, h2⟩
    · exact .inl ⟨e, h1, by simp only [h2]; rfl⟩
    · exact .inr ⟨h1, _, by simp only [h2]; rfl⟩

/-- A fault of operand 3 comes from a memory form's checks. -/
theorem Form.thirdSource_error {f : Form} {s : State} {e : Exception} (h : f.thirdSource s = .error e) :
    ∃ a b, f.src3 = .mem a b ∧
      s.memFault (operandSeg s f.pfx a) (f.effAddr s a b) (f.operandBytes b) (f.need s b) = some e := by
  cases hs : f.src3 with
  | reg r => unfold Form.thirdSource at h; rw [hs] at h; cases h
  | regRound r rc => unfold Form.thirdSource at h; rw [hs] at h; cases h
  | mem a b =>
    refine ⟨a, b, rfl, ?_⟩
    rcases f.thirdSource_mem s hs with ⟨e', h1, h2⟩ | ⟨_, _, h2⟩
    · rw [h] at h2; cases h2; exact h1
    · rw [h] at h2; cases h2

/-- Running a form that no check stops. -/
theorem run_of_enabled {i : Instr} {s : State} (h : Enabled i s) :
    (∃ e, (formOf i).thirdSource s = .error e ∧ exec i s = raise e s) ∨
    (∃ s3, (formOf i).thirdSource s = .ok s3 ∧ exec i s = (formOf i).finish s ((formOf i).lanes s s3)) := by
  obtain ⟨hw, hn, ht, hnm⟩ := h
  have he := entryFault_of_enabled hw hn
  have hts : s.ts = false := ht
  rw [hts] at he
  rw [exec_eq_run]
  rcases (formOf i).run_cases s with ⟨e, h1, _⟩ | ⟨_, h2, _⟩ | ⟨_, _, h2, _⟩ | ⟨e, _, _, h3, h4⟩ | ⟨s3, _, _, h3, h4⟩
  · rw [he] at h1; cases h1
  · unfold Form.nameable at hnm; rw [h2] at hnm; cases hnm
  · unfold Form.nameable at hnm; rw [h2] at hnm; simp at hnm
  · exact .inl ⟨e, h3, h4⟩
  · exact .inr ⟨s3, h3, h4⟩

/-! ## Completion with all its lanes -/

/-- The lanes of a form that exist fit its destination (R20, R22). -/
theorem Form.bits_le_of_nameable {f : Form} {s : State} (h : f.nameable s = true) : bitsOf f.vl ≤ s.cfg.maxvl.bits := by
  unfold Form.nameable Form.named at h
  simp only [Bool.and_eq_true, decide_eq_true_eq] at h
  exact h.1.2

/-- The destination of a form exists (R20). -/
theorem Form.dest_lt_of_nameable {f : Form} {s : State} (h : f.nameable s = true) :
    f.dest.toNat < s.cfg.nvec.count := by
  unfold Form.nameable Form.named State.vecCount at h
  simp only [Bool.and_eq_true, decide_eq_true_eq] at h
  have := h.1.1.1.1
  split at this
  · cases s.cfg.nvec <;> simp [NVec.count] <;> omega
  · exact this

/-- The new destination of a form, lane by lane. -/
theorem Form.laneOf_complete {f : Form} {s : State} (h : f.nameable s = true) (s3 : VReg) (fl : Flags) {j : Nat}
    (hj : j < 8) : laneOf ((f.complete s (laneValues (f.lanes s s3)) fl).readV f.dest) j =
      if j < lanesOf f.vl then (f.lane s s3 j).value.getD 0#64 else 0#64 := by
  rw [Form.readV_complete, fitMaxVL_packLanes, Form.laneOf_values f s s3 hj]
  rw [laneValues_length, Form.lanes_length]
  exact Form.bits_le_of_nameable h

/-- A lane that has no unmasked flag has a result. -/
theorem Form.computeLane_isSome {f : Form} {s : State} {s3 : VReg} {j : Nat}
    (h : ((f.computeLane s s3 j).flags).unmasked (f.masks s) = false) :
    ∃ v, (f.computeLane s s3 j).value = some v := by
  cases hv : (f.computeLane s s3 j).value with
  | some v => exact ⟨v, rfl⟩
  | none =>
    unfold Form.computeLane at hv h
    rw [fnmadd64_none hv] at h
    cases h

/-- A form whose active lanes have no unmasked flag completes with their results and flags. -/
theorem Form.completed {f : Form} {s : State} (h : f.nameable s = true) (s3 : VReg) (fl : Flags)
    (hl : ∀ j, j < lanesOf f.vl → f.active s j = true → ((f.computeLane s s3 j).flags).unmasked (f.masks s) = false) :
    Completed s (f.complete s (laneValues (f.lanes s s3)) fl) f.dest (lanesOf f.vl) f.bytes (f.active s) f.zeroing
      (f.computeLane s s3) fl where
  activeLanes j hj ha := by
    have h8 := lanesOf_le f.vl
    rw [Form.laneOf_complete h s3 fl (by omega), if_pos hj]
    obtain ⟨v, hv⟩ := Form.computeLane_isSome (hl j hj ha)
    unfold Form.lane
    rw [if_pos ha, hv]; rfl
  inactiveLanes j hj ha := by
    have h8 := lanesOf_le f.vl
    rw [Form.laneOf_complete h s3 fl (by omega), if_pos hj]
    unfold Form.lane
    rw [ha]; rfl
  upperLanes j hj h8 := by rw [Form.laneOf_complete h s3 fl h8, if_neg (by omega)]
  mxcsr := rfl
  pc := rfl
  frame := Form.frame_complete _ _ _ _

/-- No flag of the union is unmasked when none of an active lane is. -/
theorem activeFlags_unmasked {n : Nat} {active : Nat → Bool} {out : Nat → LaneOut} {m : Masks} :
    (activeFlags n active out).unmasked m = false ↔
      ∀ j, j < n → active j = true → ((out j).flags).unmasked m = false := by
  unfold activeFlags
  rw [Flags.unionAll_unmasked]
  constructor
  · intro h j hj ha
    have := h (if active j = true then (out j).flags else .none)
      (List.mem_map.2 ⟨j, List.mem_range.2 hj, rfl⟩)
    rwa [if_pos ha] at this
  · intro h f hf
    obtain ⟨j, hj, rfl⟩ := List.mem_map.1 hf
    cases ha : active j with
    | true => exact h j (List.mem_range.1 hj) ha
    | false => rfl

/-- An enabled instruction that reads its operands, without embedded rounding, completes unless a flag
of an active lane is unmasked (R131, R144, R161). -/
theorem completes_unless_unmasked {i : Instr} {s : State} {s3 : VReg} (he : Enabled i s) (ho : OperandsRead i s s3)
    (hs : (formOf i).sae = false) : CompletesUnlessUnmasked (exec i s) s (formOf i).dest (lanesOf (formOf i).vl)
      i.len ((formOf i).active s) (formOf i).zeroing ((formOf i).computeLane s s3) := by
  intro hu
  rcases run_of_enabled he with ⟨e, h1, _⟩ | ⟨s3', h1, h2⟩
  · rw [ho.2.2] at h1; cases h1
  · rw [ho.2.2] at h1; cases h1
    have hm : (formOf i).masks s = mxcsrMasks s.mxcsr := by unfold Form.masks; rw [hs]; rfl
    have hc := Form.completed he.2.2.2 s3 (laneFlags ((formOf i).lanes s s3)) (by
      rw [hm]; exact activeFlags_unmasked.1 hu)
    rw [formOf_bytes] at hc
    rw [← Form.laneFlags_eq] at hu ⊢
    refine ⟨_, ?_, hc⟩
    rw [h2]
    rcases (formOf i).finish_cases s ((formOf i).lanes s s3) with ⟨h, _⟩ | ⟨_, h, _⟩ | ⟨_, _, h, _⟩ | ⟨_, _, h⟩
    · rw [hs] at h; cases h
    · rw [Flags.unmasked_eq, h] at hu; cases hu
    · rw [Flags.unmasked_eq, h, Bool.or_true] at hu; cases hu
    · exact h

/-- An enabled instruction with embedded rounding completes, without a flag (R155). -/
theorem completes_under_sae {i : Instr} {s : State} {s3 : VReg} (he : Enabled i s) (ho : OperandsRead i s s3)
    (hs : (formOf i).sae = true) : ∃ t, exec i s = .next t ∧ Completed s t (formOf i).dest (lanesOf (formOf i).vl)
      i.len ((formOf i).active s) (formOf i).zeroing ((formOf i).computeLane s s3) .none := by
  rcases run_of_enabled he with ⟨e, h1, _⟩ | ⟨s3', h1, h2⟩
  · rw [ho.2.2] at h1; cases h1
  · rw [ho.2.2] at h1; cases h1
    have hm : (formOf i).masks s = .all := by unfold Form.masks; rw [hs]; rfl
    have hc := Form.completed he.2.2.2 s3 .none fun j _ _ => by rw [hm]; exact Flags.unmasked_all _
    rw [formOf_bytes] at hc
    refine ⟨_, ?_, hc⟩
    rw [h2]
    unfold Form.finish
    rw [hs]; rfl

/-- The lane of a form without embedded rounding is the lane function under `MXCSR` (R131 step 3, R141). -/
theorem Form.computeLane_eq {f : Form} (h : f.sae = false) (s : State) (s3 : VReg) (j : Nat) :
    f.computeLane s s3 j =
      match f.mnem with
      | .f132 => fnmaddMxcsr s (laneOf (s.readV f.dest) j) (laneOf s3 j) (laneOf (s.readV f.src2) j)
      | .f213 => fnmaddMxcsr s (laneOf (s.readV f.src2) j) (laneOf (s.readV f.dest) j) (laneOf s3 j)
      | .f231 => fnmaddMxcsr s (laneOf (s.readV f.src2) j) (laneOf s3 j) (laneOf (s.readV f.dest) j) := by
  have h1 : f.masks s = mxcsrMasks s.mxcsr := by unfold Form.masks; rw [h]; rfl
  have h2 : f.roundMode s = mxcsrRC s.mxcsr := by
    unfold Form.roundMode
    unfold Form.sae at h
    cases hs : f.src3 with
    | reg r => rfl
    | regRound r rc => rw [hs] at h; cases h
    | mem a b => rfl
  unfold Form.computeLane fnmaddMxcsr
  rw [h1, h2]
  cases f.mnem <;> rfl

/-- The statement of completion in the fields of one form. -/
theorem completes_as {i : Instr} {s : State} {s3 : VReg} {d : BitVec 5} {n len : Nat} {active : Nat → Bool} {z : Bool}
    {out : Nat → LaneOut} (he : Enabled i s) (ho : OperandsRead i s s3) (hs : (formOf i).sae = false)
    (hd : (formOf i).dest = d) (hn : lanesOf (formOf i).vl = n) (hl : i.len = len)
    (ha : ∀ j, (formOf i).active s j = active j) (hz : (formOf i).zeroing = z)
    (hout : ∀ j, (formOf i).computeLane s s3 j = out j) :
    CompletesUnlessUnmasked (exec i s) s d n len active z out := by
  have h := completes_unless_unmasked he ho hs
  rw [hd, hn, hl, hz, funext ha, funext hout] at h
  exact h

/-! ## Comparing two runs -/

/-- A form runs the same from a changed state, when its checks, its operand 3 and its finish do. -/
theorem Form.run_map {f : Form} {s : State} (u : State → State)
    (h1 : f.entryFault (u s) = f.entryFault s) (h2 : f.named (u s) = f.named s) (h3 : f.addr16 (u s) = f.addr16 s)
    (h4 : f.thirdSource (u s) = f.thirdSource s)
    (h5 : ∀ s3, f.thirdSource s = .ok s3 → f.finish (u s) (f.lanes (u s) s3) = mapOut u (f.finish s (f.lanes s s3))) :
    f.run (u s) = mapOut u (f.run s) := by
  unfold Form.run
  rw [h1]
  cases f.entryFault s with
  | some e => rfl
  | none =>
    simp only [h2, h3, h4]
    split
    · rfl
    · split
      · rfl
      · cases h : f.thirdSource s with
        | error e => rfl
        | ok s3 => exact h5 s3 h

/-- The lanes of a form depend on the low lanes of the registers, the mask bits of its lanes, the
configuration and the control bits of `MXCSR`. -/
theorem Form.lanes_congr {f : Form} {s u : State} {a b : VReg}
    (h1 : ∀ j, j < lanesOf f.vl → f.active u j = f.active s j)
    (hv : ∀ r j, j < lanesOf f.vl → laneOf (u.readV r) j = laneOf (s.readV r) j)
    (h3 : ∀ j, j < lanesOf f.vl → laneOf a j = laneOf b j) (hc : u.cfg = s.cfg)
    (hr : f.roundMode u = f.roundMode s) (hd : mxcsrDAZ u.mxcsr = mxcsrDAZ s.mxcsr)
    (hf : mxcsrFTZ u.mxcsr = mxcsrFTZ s.mxcsr) (hm : f.masks u = f.masks s) : f.lanes u a = f.lanes s b := by
  unfold Form.lanes
  apply List.map_congr_left
  intro j hj
  have hj := List.mem_range.1 hj
  unfold Form.lane Form.computeLane
  rw [h1 j hj, hv _ j hj, hv _ j hj, h3 j hj, hc, hr, hd, hf, hm]

end Sys2Proof.Machine
end

