-- ==== Sys2Proof/Laws/PerInstr.lean ====
section
/-! SUPPORT. The family `EncodesItsLength`: the encoder writes as many bytes as `len` of 30_encoding.md R85 says, one
lemma per constructor. -/

namespace Sys2Proof

theorem Disp.bytes_length (d : Disp) : d.bytes.length = d.len := by cases d <;> rfl

theorem MemAddr.tail_length (a : MemAddr) : a.tail.length = a.len := by
  cases a <;> simp [MemAddr.tail, MemAddr.len, Disp.bytes_length, bytesOf32, Nat.add_comm]

theorem encodeVex_length (m : Mnem) (l : BitVec 1) (o : VexOps) : (encodeVex m l o).length = o.len := by
  rcases o with ⟨pfx, d, s2, r | a⟩
  · simp [encodeVex, VexOps.len, VexSrc.len]
  · simp [encodeVex, VexOps.len, VexSrc.len, MemAddr.tail_length]; omega

theorem encodeEvex_length {σ : Type} (m : Mnem) (o : EvexOps σ) (e : EvexRm) :
    (encodeEvex m o e).length = o.pfx.length + 6 + e.tail.length := by
  simp [encodeEvex]; omega

theorem EvexSrc.tail_length (ll : BitVec 2) (e : EvexSrc) : (e.toRm ll).tail.length = e.len := by
  cases e with
  | reg r => rfl
  | mem a b => exact MemAddr.tail_length a

theorem EvexSrc512.tail_length (e : EvexSrc512) : e.toRm.tail.length = e.len := by
  cases e with
  | reg r => rfl
  | regRound r rc => rfl
  | mem a b => exact MemAddr.tail_length a

namespace Laws

def EncodesItsLength.Statement (i : Instr) : Prop := (encode i).length = i.len

theorem EncodesItsLength.vfnmadd132pdVex128 (o : VexOps) : EncodesItsLength.Statement (.vfnmadd132pdVex128 o) :=
  encodeVex_length _ _ _

theorem EncodesItsLength.vfnmadd213pdVex128 (o : VexOps) : EncodesItsLength.Statement (.vfnmadd213pdVex128 o) :=
  encodeVex_length _ _ _

theorem EncodesItsLength.vfnmadd231pdVex128 (o : VexOps) : EncodesItsLength.Statement (.vfnmadd231pdVex128 o) :=
  encodeVex_length _ _ _

theorem EncodesItsLength.vfnmadd132pdVex256 (o : VexOps) : EncodesItsLength.Statement (.vfnmadd132pdVex256 o) :=
  encodeVex_length _ _ _

theorem EncodesItsLength.vfnmadd213pdVex256 (o : VexOps) : EncodesItsLength.Statement (.vfnmadd213pdVex256 o) :=
  encodeVex_length _ _ _

theorem EncodesItsLength.vfnmadd231pdVex256 (o : VexOps) : EncodesItsLength.Statement (.vfnmadd231pdVex256 o) :=
  encodeVex_length _ _ _

theorem EncodesItsLength.vfnmadd132pdEvex128 (o : EvexOps EvexSrc) : EncodesItsLength.Statement (.vfnmadd132pdEvex128 o) :=
  (encodeEvex_length _ _ _).trans (by rw [EvexSrc.tail_length]; rfl)

theorem EncodesItsLength.vfnmadd213pdEvex128 (o : EvexOps EvexSrc) : EncodesItsLength.Statement (.vfnmadd213pdEvex128 o) :=
  (encodeEvex_length _ _ _).trans (by rw [EvexSrc.tail_length]; rfl)

theorem EncodesItsLength.vfnmadd231pdEvex128 (o : EvexOps EvexSrc) : EncodesItsLength.Statement (.vfnmadd231pdEvex128 o) :=
  (encodeEvex_length _ _ _).trans (by rw [EvexSrc.tail_length]; rfl)

theorem EncodesItsLength.vfnmadd132pdEvex256 (o : EvexOps EvexSrc) : EncodesItsLength.Statement (.vfnmadd132pdEvex256 o) :=
  (encodeEvex_length _ _ _).trans (by rw [EvexSrc.tail_length]; rfl)

theorem EncodesItsLength.vfnmadd213pdEvex256 (o : EvexOps EvexSrc) : EncodesItsLength.Statement (.vfnmadd213pdEvex256 o) :=
  (encodeEvex_length _ _ _).trans (by rw [EvexSrc.tail_length]; rfl)

theorem EncodesItsLength.vfnmadd231pdEvex256 (o : EvexOps EvexSrc) : EncodesItsLength.Statement (.vfnmadd231pdEvex256 o) :=
  (encodeEvex_length _ _ _).trans (by rw [EvexSrc.tail_length]; rfl)

theorem EncodesItsLength.vfnmadd132pdEvex512 (o : EvexOps EvexSrc512) : EncodesItsLength.Statement (.vfnmadd132pdEvex512 o) :=
  (encodeEvex_length _ _ _).trans (by rw [EvexSrc512.tail_length]; rfl)

theorem EncodesItsLength.vfnmadd213pdEvex512 (o : EvexOps EvexSrc512) : EncodesItsLength.Statement (.vfnmadd213pdEvex512 o) :=
  (encodeEvex_length _ _ _).trans (by rw [EvexSrc512.tail_length]; rfl)

theorem EncodesItsLength.vfnmadd231pdEvex512 (o : EvexOps EvexSrc512) : EncodesItsLength.Statement (.vfnmadd231pdEvex512 o) :=
  (encodeEvex_length _ _ _).trans (by rw [EvexSrc512.tail_length]; rfl)

end Laws

end Sys2Proof
end

