-- ==== Sys2Proof/Laws/Rounding.lean ====
section
/-! SUPPORT. The rounding of the lane function against `IsRounding` and `FirstRounding` (40_lane_numerics.md R103, R111). -/

namespace Sys2Proof.Machine

/-- When a magnitude rounds up (R103). -/
theorem roundsUp_iff (rc : RoundMode) (neg : Bool) (q t den : Nat) : roundsUp rc neg q t den = true ↔ match rc with
      | .nearestEven => den < 2 * t ∨ 2 * t = den ∧ q % 2 = 1
      | .down => neg = true ∧ t ≠ 0
      | .up => neg = false ∧ t ≠ 0
      | .towardZero => False := by
    cases rc <;> simp [roundsUp]

/-- An exact quotient is its own rounding. -/
theorem roundDiv_exact (rc : RoundMode) (neg : Bool) {num den : Nat} (hd : 0 < den) (h : num % den = 0) : roundDiv rc neg num den * den = num := by
  unfold roundDiv
  have hn : ¬ roundsUp rc neg (num / den) (num % den) den = true := by
    rw [roundsUp_iff, h]; cases rc <;> simp; omega
  rw [if_neg hn]; exact Nat.div_mul_cancel (Nat.dvd_of_mod_eq_zero h)

/-- `roundDiv` is a rounding of its quotient (R103). -/
theorem isRounding_roundDiv (rc : RoundMode) (neg : Bool) (num den : Nat) (hd : 0 < den) :
    IsRounding rc neg num den (roundDiv rc neg num den) := by
  have h1 := Nat.div_add_mod num den
  have h2 := Nat.mod_lt num hd
  unfold IsRounding roundDiv
  generalize num / den = q at *
  generalize num % den = t at *
  have e : ((q : Int) * den - num) = -t := by
    have : (num : Int) = den * q + t := by exact_mod_cast h1.symm
    rw [this, Int.mul_comm]; omega
  have e' : (((q + 1 : Nat) : Int) * den - num) = den - t := by
    have : (num : Int) = den * q + t := by exact_mod_cast h1.symm
    rw [this, Int.natCast_add, Int.add_mul, Int.mul_comm]; omega
  have up : roundsUp rc neg q t den = true → (den : Int) - t = ((if roundsUp rc neg q t den then q + 1 else q : Nat) : Int) * den - num := by
    intro h; rw [if_pos h, e']
  have dn : roundsUp rc neg q t den = false → -(t : Int) = ((if roundsUp rc neg q t den then q + 1 else q : Nat) : Int) * den - num := by
    intro h; rw [if_neg (by rw [h]; decide), e]
  have ev : roundsUp rc neg q t den = true → (if roundsUp rc neg q t den then q + 1 else q : Nat) = q + 1 := fun h => if_pos h
  have ev' : roundsUp rc neg q t den = false → (if roundsUp rc neg q t den then q + 1 else q : Nat) = q := fun h => if_neg (by rw [h]; decide)
  generalize (if roundsUp rc neg q t den then q + 1 else q : Nat) = n at *
  dsimp only
  generalize (n : Int) * den - num = err at *
  have hc := roundsUp_iff rc neg q t den
  cases hr : roundsUp rc neg q t den with
  | true =>
    rw [← up hr]
    have h := hc.1 hr
    have hn := ev hr
    cases rc <;> simp only at h ⊢
    · omega
    · rw [if_pos h.1]; omega
    · rw [if_neg (by simp [h.1])]; omega
  | false =>
    rw [← dn hr]
    have h : ¬ _ := fun h => Bool.false_ne_true (hr.symm.trans (hc.2 h))
    have hn := ev' hr
    cases rc <;> simp only at h ⊢
    · omega
    · cases neg
      · simp only [Bool.false_eq_true, if_false]; omega
      · simp only [true_and, not_not, if_true, ne_eq] at h ⊢; omega
    · cases neg
      · simp only [Bool.false_eq_true, if_false, true_and, not_not, ne_eq] at h ⊢; omega
      · simp only [if_true]; omega
    · omega

/-- A quotient has one rounding (R103). -/
theorem isRounding_unique {rc : RoundMode} {neg : Bool} {num den m n : Nat}
   (h1 : IsRounding rc neg num den m) (h2 : IsRounding rc neg num den n) : m = n := by
  unfold IsRounding at h1 h2
  by_contra hne
  have step : ∀ m n : Nat, m < n → (m : Int) * den + den ≤ n * den := by
    intro m n h
    have := Nat.mul_le_mul_right den h
    rw [Nat.succ_mul] at this
    exact_mod_cast this
  have even : ∀ m n : Nat, m + 2 ≤ n → (m : Int) * den + 2 * den ≤ n * den := by
    intro m n h
    have := Nat.mul_le_mul_right den h
    rw [Nat.add_mul] at this
    exact_mod_cast this
  rcases Nat.lt_or_gt_of_ne hne with h | h
  · have s := step _ _ h
    have ev := even m n
    cases rc <;> (try cases neg) <;> simp only [Bool.false_eq_true, if_false, if_true] at h1 h2 <;> omega
  · have s := step _ _ h
    have ev := even n m
    cases rc <;> (try cases neg) <;> simp only [Bool.false_eq_true, if_false, if_true] at h1 h2 <;> omega

/-- The rounding depends on the quotient alone. -/
theorem isRounding_scale {rc : RoundMode} {neg : Bool} {num den m c : Nat} (hc : 0 < c) :
   IsRounding rc neg (num * c) (den * c) m ↔ IsRounding rc neg num den m := by
  unfold IsRounding
  have e : (m : Int) * ((den * c : Nat) : Int) - ((num * c : Nat) : Int) = ((m : Int) * den - num) * c := by
    push_cast; ring
  rw [e]
  generalize (m : Int) * den - num = err
  have na : (err * c).natAbs = err.natAbs * c := by rw [Int.natAbs_mul]; rfl
  have le0 : err * c ≤ 0 ↔ err ≤ 0 := by
    constructor
    · intro h; by_contra hh; push Not at hh
      have := Int.mul_pos hh (by exact_mod_cast hc : (0:Int) < c); omega
    · intro h; exact Int.mul_nonpos_of_nonpos_of_nonneg h (by omega)
  have ge0 : 0 ≤ err * c ↔ 0 ≤ err := by
    constructor
    · intro h; by_contra hh; push Not at hh
      have := Int.mul_neg_of_neg_of_pos hh (by exact_mod_cast hc : (0:Int) < c); omega
    · intro h; exact Int.mul_nonneg h (by omega)
  dsimp only
  rw [na, le0, ge0, Nat.mul_lt_mul_right hc, ← Nat.mul_assoc, Nat.mul_lt_mul_right hc, Nat.mul_left_inj (by omega)]

theorem log2_eq_of_bounds {a l : Nat} (h1 : 2 ^ l ≤ a) (h2 : a < 2 ^ (l + 1)) : Nat.log2 a = l := by
  have h0 : a ≠ 0 := by have := Nat.two_pow_pos l; omega
  exact (Nat.log2_eq_iff h0).2 ⟨h1, h2⟩

/-- A rounding does not pass an integer above it. -/
theorem isRounding_le {rc neg num den m b} (hd : 0 < den) (h : IsRounding rc neg num den m) (hb : num ≤ b * den) : m ≤ b := by
  by_contra hh
  have := Nat.mul_le_mul_right den (show b + 1 ≤ m by omega)
  rw [Nat.succ_mul] at this
  have h1 := h.1
  have : (b : Int) * den + den ≤ m * den := by exact_mod_cast this
  have : (num : Int) ≤ b * den := by exact_mod_cast hb
  omega

/-- A rounding does not pass an integer below it. -/
theorem isRounding_ge {rc neg num den m b} (hd : 0 < den) (h : IsRounding rc neg num den m) (hb : b * den ≤ num) : b ≤ m := by
  by_contra hh
  have := Nat.mul_le_mul_right den (show m + 1 ≤ b by omega)
  rw [Nat.succ_mul] at this
  have h1 := h.1
  have : (m : Int) * den + den ≤ b * den := by exact_mod_cast this
  have : (b : Int) * den ≤ num := by exact_mod_cast hb
  omega

/-- `roundUnbounded` computes the first rounding (R111). -/
theorem firstRounding_eq {rc : RoundMode} {neg : Bool} {a m : Nat} {e : Int} {inexact : Bool} (h : FirstRounding rc neg a m e inexact) :
   roundUnbounded rc neg a = (m, e, inexact) := by
  obtain ⟨l, m0, hl1, hl2, hr, hi, hm⟩ := h
  have hl := log2_eq_of_bounds hl1 hl2
  have hi' : inexact = decide (m0 * 2 ^ l ≠ a * 2 ^ 52) := by
    cases inexact
    · simp only [Bool.false_eq_true, false_iff] at hi; exact (decide_eq_false hi).symm
    · simp only [true_iff] at hi; exact (decide_eq_true hi).symm
  have key : (if 52 ≤ l then roundDiv rc neg a (2 ^ (l - 52)) else a * 2 ^ (52 - l)) = m0 ∧
      (decide (52 ≤ l) && decide (a % 2 ^ (l - 52) ≠ 0)) = inexact := by
    by_cases h : 52 ≤ l
    · have el : 2 ^ l = 2 ^ (l - 52) * 2 ^ 52 := by rw [← Nat.pow_add]; congr 1; omega
      rw [el, isRounding_scale (by decide)] at hr
      have hq := isRounding_roundDiv rc neg a (2 ^ (l - 52)) (Nat.two_pow_pos _)
      have hu := isRounding_unique hq hr
      refine ⟨by rw [if_pos h, hu], ?_⟩
      rw [hi', el, ← Nat.mul_assoc]
      simp only [h, decide_true, Bool.true_and, ne_eq]
      congr 1
      rw [Nat.mul_left_inj (by decide)]
      apply propext
      constructor
      · intro hne he; apply hne; rw [← he]; simp
      · intro hne hmod; apply hne
        rw [← hu]; exact roundDiv_exact rc neg (Nat.two_pow_pos _) hmod
    · have el : 2 ^ 52 = 2 ^ (52 - l) * 2 ^ l := by rw [← Nat.pow_add]; congr 1; omega
      have hm0 : m0 = a * 2 ^ (52 - l) := by
        have : IsRounding rc neg (a * 2 ^ 52) (2 ^ l) (a * 2 ^ (52 - l)) := by
          unfold IsRounding
          have : (((a * 2 ^ (52 - l) : Nat)) : Int) * ((2 ^ l : Nat) : Int) - ((a * 2 ^ 52 : Nat) : Int) = 0 := by
            rw [el, ← Nat.mul_assoc]; push_cast; ring
          have hp := Nat.two_pow_pos l
          dsimp only
          rw [this]
          cases rc <;> cases neg <;> simp
        exact isRounding_unique hr this
      refine ⟨by rw [if_neg h, hm0], ?_⟩
      rw [hi', hm0]
      simp only [h, decide_false, Bool.false_and]
      have : a * 2 ^ (52 - l) * 2 ^ l = a * 2 ^ 52 := by rw [Nat.mul_assoc, ← el]
      simp [this]
  unfold roundUnbounded
  dsimp only
  rw [hl, key.1, key.2]
  rcases hm with ⟨h1, h2, h3⟩ | ⟨h1, h2, h3⟩
  · rw [if_pos h1, h2, h3]
  · rw [if_neg (by omega), h2, h3]

theorem firstRounding_range {rc : RoundMode} {neg : Bool} {a m : Nat} {e : Int} {inexact : Bool} (h : FirstRounding rc neg a m e inexact) :
   2 ^ 52 ≤ m ∧ m < 2 ^ 53 := by
  obtain ⟨l, m0, hl1, hl2, hr, hi, hm⟩ := h
  have := isRounding_ge (Nat.two_pow_pos l) hr (b := 2 ^ 52) (by rw [Nat.mul_comm]; exact Nat.mul_le_mul_right _ hl1)
  rcases hm with ⟨h1, h2, h3⟩ | ⟨h1, h2, h3⟩ <;> omega

/-! ## The cases of R104 in the terms of Safety -/

/-- An invalid operation (R107). -/
theorem invalid_iff (x y z : Lane) : (infTimesZero x y || infMinusInf x y z) = true ↔ Invalid x y z := by
  unfold infTimesZero infMinusInf Invalid productSign fpSign
  cases isInf x <;> cases isInf y <;> cases isZero x <;> cases isZero y <;> cases isInf z <;> simp

theorem anyDenormal_dazReplace (daz x y z) : (isDenormal (dazReplace daz x) || isDenormal (dazReplace daz y) || isDenormal (dazReplace daz z)) = (!daz && anyDenormal x y z) := by
    unfold anyDenormal; rw [isDenormal_dazReplace, isDenormal_dazReplace, isDenormal_dazReplace]; cases daz <;> simp

theorem not_nan_not_inf_of_finite (v : Lane) (h : isFinite v = true) : isNaN v = false ∧ isInf v = false := by
  unfold isFinite at h; simp only [decide_eq_true_eq] at h
  constructor
  · cases hh : isNaN v; rfl; have := (isNaN_iff v).1 hh; omega
  · cases hh : isInf v; rfl; have := (isInf_iff v).1 hh; omega

/-- The lane function on finite operands with exact result `r` (R104 steps 6 and 7, R110, R111). -/
theorem fnmadd64_of_exactlyEquals {cfg x y z rc daz ftz m r} (h : ExactlyEquals (dazReplace daz x) (dazReplace daz y) (dazReplace daz z) r) :
   fnmadd64 cfg x y z rc daz ftz m = if r = 0 then ⟨some (exactZero rc (dazReplace daz x) (dazReplace daz y) (dazReplace daz z)), ⟨false, !daz && anyDenormal x y z, false, false, false⟩⟩
     else roundOut rc (decide (r < 0)) r.natAbs (!daz && anyDenormal x y z) ftz m := by
  obtain ⟨hx, hy, hz, hr⟩ := h
  unfold fnmadd64 fnmaddCore
  rw [anyDenormal_dazReplace]
  have hn := (firstNaN_eq_none cfg.nanOrder (dazReplace daz x) (dazReplace daz y) (dazReplace daz z)).2 ⟨(not_nan_not_inf_of_finite _ hx).1, (not_nan_not_inf_of_finite _ hy).1, (not_nan_not_inf_of_finite _ hz).1⟩
  rw [hn]; dsimp only
  unfold infTimesZero infMinusInf
  rw [(not_nan_not_inf_of_finite _ hx).2, (not_nan_not_inf_of_finite _ hy).2, (not_nan_not_inf_of_finite _ hz).2]
  unfold exactResult
  rw [hr]; simp only [Bool.false_and, Bool.and_false, Bool.or_self, Bool.false_eq_true, if_false]

end Sys2Proof.Machine
end

