-- ==== Sys2Proof/Tests/Slice0.lean ====
section
/-! SUPPORT. Tests: each check of WellFormed, words of spec/95_test_vectors.md decoded, its instruction vectors executed,
and for each statement with hypotheses a witness that meets them. Expected values are the spec's, not the model's. -/

namespace Sys2Proof.Tests

open Sys2Proof.Machine
set_option Elab.async false

/-! ## Helpers -/

/-- A state under `CleanEntry` and `DefaultMXCSR` with `CR4.OSXMMEXCPT` = 1 and `CPL` = 3. -/
def clean : State :=
  { State.reset with mode := .long64, cr0 := 0#64, cr4 := 0x40400#64, xcr0 := 0xE7#64, pc := 0x1000#64, cpl := 3#2 }

def rep (n : Nat) (x : Lane) : List Lane := List.replicate n x

/-- Put lanes in a vector register, all other bits 1. -/
def setV (s : State) (i : BitVec 5) (l : List Lane) : State :=
  s.writeV i (packLanes (l ++ rep (8 - l.length) 0xFFFFFFFFFFFFFFFF#64))

def setK (s : State) (i : BitVec 3) (x : Word) : State := { s with k := s.k.set i.toNat x i.isLt }

def setG (s : State) (i : BitVec 4) (x : Word) : State := { s with g := s.g.set i.toNat x i.isLt }

/-- Map lanes at an address, low byte first. -/
def setM (s : State) (a : Nat) (l : List Lane) : State :=
  { s with mem := Memory.load s.mem a (l.flatMap fun x => (List.range 8).map fun j => x.extractLsb' (8 * j) 8) }

/-- Registers 1, 2, 3. -/
def regs (s : State) (a b c : List Lane) : State := setV (setV (setV s 1#5 a) 2#5 b) 3#5 c

/-- The next state; the reset state where there is none. -/
def after (o : Out) : State :=
  match o with
  | .next t => t
  | .fault _ => State.reset
  | .refused _ => State.reset

def isNext (o : Out) : Bool :=
  match o with
  | .next _ => true
  | .fault _ => false
  | .refused _ => false

theorem next_of_isNext {o : Out} (h : isNext o = true) : ∃ t, o = .next t := by
  cases o with
  | next t => exact ⟨t, rfl⟩
  | fault f => cases h
  | refused r => cases h

/-- The exception and the state it leaves. -/
def faultOf (o : Out) : Option (Exception × State) :=
  match o with
  | .next _ => none
  | .fault (.raised e t) => some (e, t)
  | .refused _ => none

theorem fault_of_faultOf {o : Out} {e : Exception} {t : State} (h : faultOf o = some (e, t)) :
    o = .fault (.raised e t) := by
  cases o with
  | next u => cases h
  | fault f => cases f with | raised e' t' => cases h; rfl
  | refused r => cases h

def refusalOf (o : Out) : Option Refusal :=
  match o with
  | .next _ => none
  | .fault _ => none
  | .refused r => some r

theorem ok_of_toOption {x : Except Exception VReg} {v : VReg} (h : x.toOption = some v) : x = .ok v := by
  cases x with
  | ok w => cases h; rfl
  | error e => cases h

/-! ## WellFormed refuses each ill-formed term -/

def vexMem (a : MemAddr) : Instr := .vfnmadd231pdVex128 ⟨[], 1#4, 2#4, .mem a⟩

/-- R75: `rm` = 100 announces a SIB byte. -/
theorem test_wf_base_sib : (vexMem (.base 4#4 .none)).wellFormed = false ∧ (vexMem (.base 12#4 (.disp8 0#8))).wellFormed = false := by decide

/-- R75: `mod` = 00, `rm` = 101 is RIP-relative. -/
theorem test_wf_base_rip : (vexMem (.base 5#4 .none)).wellFormed = false ∧ (vexMem (.base 13#4 .none)).wellFormed = false ∧
    (vexMem (.base 13#4 (.disp8 0#8))).wellFormed = true := by decide

/-- R76: `mod` = 00, SIB base 101 is no base register. -/
theorem test_wf_sib_base : (vexMem (.sib 0#2 1#4 5#4 .none)).wellFormed = false ∧
    (vexMem (.sib 0#2 1#4 13#4 (.disp8 0#8))).wellFormed = true := by decide

/-- R85: a VEX form of 16 bytes, and one of 15. -/
theorem test_wf_vex_length :
    (Instr.vfnmadd132pdVex128 ⟨List.replicate 11 .addrSize, 1#4, 2#4, .reg 3#4⟩).wellFormed = false ∧
    (Instr.vfnmadd132pdVex128 ⟨List.replicate 10 .addrSize, 1#4, 2#4, .reg 3#4⟩).wellFormed = true := by decide

/-- R85: an EVEX form of 16 bytes, and one of 15. -/
theorem test_wf_evex_length :
    (Instr.vfnmadd132pdEvex128 ⟨List.replicate 10 .addrSize, 1#5, 2#5, 0#3, false, .reg 3#5⟩).wellFormed = false ∧
    (Instr.vfnmadd132pdEvex128 ⟨List.replicate 9 .addrSize, 1#5, 2#5, 0#3, false, .reg 3#5⟩).wellFormed = true := by decide

/-- R71: zeroing needs a write mask. -/
theorem test_wf_zeroing :
    (Instr.vfnmadd132pdEvex512 ⟨[], 1#5, 2#5, 0#3, true, .reg 3#5⟩).wellFormed = false ∧
    (Instr.vfnmadd132pdEvex512 ⟨[], 1#5, 2#5, 1#3, true, .reg 3#5⟩).wellFormed = true := by decide

/-! ## Decoding: one word for each row (95_test_vectors.md 2.1, R132 to R153) -/

theorem test_decode_row1 : decode [0xC4#8, 0x62#8, 0xB9#8, 0x9C#8, 0x24#8, 0x24#8] =
    .form (.vfnmadd132pdVex128 ⟨[], 12#4, 8#4, .mem (.sib 0#2 4#4 4#4 .none)⟩) [] := by decide +kernel
theorem test_decode_row2 : decode [0xC4#8, 0xE2#8, 0xE9#8, 0xAC#8, 0xCB#8] =
    .form (.vfnmadd213pdVex128 ⟨[], 1#4, 2#4, .reg 3#4⟩) [] := by decide +kernel
theorem test_decode_row3 : decode [0xC4#8, 0x42#8, 0x89#8, 0xBC#8, 0xEF#8] =
    .form (.vfnmadd231pdVex128 ⟨[], 13#4, 14#4, .reg 15#4⟩) [] := by decide +kernel
theorem test_decode_row3_override : decode [0x64#8, 0xC4#8, 0xE2#8, 0xE9#8, 0xBC#8, 0x4D#8, 0x10#8] =
    .form (.vfnmadd231pdVex128 ⟨[.seg .fs], 1#4, 2#4, .mem (.base 5#4 (.disp8 0x10#8))⟩) [] := by decide +kernel
theorem test_decode_row3_no_base : decode [0xC4#8, 0xE2#8, 0xE9#8, 0xBC#8, 0x0C#8, 0x4D#8, 0x08#8, 0#8, 0#8, 0#8] =
    .form (.vfnmadd231pdVex128 ⟨[], 1#4, 2#4, .mem (.sibNoBase 1#2 1#4 8#32)⟩) [] := by decide +kernel
theorem test_decode_row4 : decode [0xC4#8, 0xE2#8, 0xED#8, 0x9C#8, 0x0D#8, 0x78#8, 0x56#8, 0x34#8, 0x12#8] =
    .form (.vfnmadd132pdVex256 ⟨[], 1#4, 2#4, .mem (.ripRel 0x12345678#32)⟩) [] := by decide +kernel
theorem test_decode_row5 : decode [0xC4#8, 0x62#8, 0x85#8, 0xAC#8, 0x4C#8, 0xCB#8, 0x40#8] =
    .form (.vfnmadd213pdVex256 ⟨[], 9#4, 15#4, .mem (.sib 3#2 1#4 3#4 (.disp8 0x40#8))⟩) [] := by decide +kernel
theorem test_decode_row6 : decode [0xC4#8, 0xE2#8, 0xED#8, 0xBC#8, 0xCB#8] =
    .form (.vfnmadd231pdVex256 ⟨[], 1#4, 2#4, .reg 3#4⟩) [] := by decide +kernel
theorem test_decode_row7 : decode [0x62#8, 0xF2#8, 0xED#8, 0x08#8, 0x9C#8, 0xCB#8] =
    .form (.vfnmadd132pdEvex128 ⟨[], 1#5, 2#5, 0#3, false, .reg 3#5⟩) [] := by decide +kernel
theorem test_decode_row8 : decode [0x62#8, 0xF2#8, 0xED#8, 0x89#8, 0xAC#8, 0xCB#8] =
    .form (.vfnmadd213pdEvex128 ⟨[], 1#5, 2#5, 1#3, true, .reg 3#5⟩) [] := by decide +kernel
theorem test_decode_row9 : decode [0x62#8, 0xE2#8, 0x8D#8, 0x16#8, 0xBC#8, 0x4C#8, 0xC8#8, 0x02#8] =
    .form (.vfnmadd231pdEvex128 ⟨[], 17#5, 30#5, 6#3, false, .mem (.sib 3#2 1#4 0#4 (.disp8 2#8)) true⟩) [] := by decide +kernel
theorem test_decode_row10 : decode [0x62#8, 0xF2#8, 0xED#8, 0x2B#8, 0x9C#8, 0xCB#8] =
    .form (.vfnmadd132pdEvex256 ⟨[], 1#5, 2#5, 3#3, false, .reg 3#5⟩) [] := by decide +kernel
theorem test_decode_row11 : decode [0x62#8, 0xF2#8, 0xED#8, 0x28#8, 0xAC#8, 0xCB#8] =
    .form (.vfnmadd213pdEvex256 ⟨[], 1#5, 2#5, 0#3, false, .reg 3#5⟩) [] := by decide +kernel
theorem test_decode_row12 : decode [0x62#8, 0xF2#8, 0xED#8, 0x25#8, 0xBC#8, 0x48#8, 0x01#8] =
    .form (.vfnmadd231pdEvex256 ⟨[], 1#5, 18#5, 5#3, false, .mem (.base 0#4 (.disp8 1#8)) false⟩) [] := by decide +kernel
theorem test_decode_row13 : decode [0x62#8, 0x82#8, 0x85#8, 0x42#8, 0x9C#8, 0x44#8, 0x88#8, 0x04#8] =
    .form (.vfnmadd132pdEvex512 ⟨[], 16#5, 31#5, 2#3, false, .mem (.sib 2#2 9#4 8#4 (.disp8 4#8)) false⟩) [] := by decide +kernel
theorem test_decode_row14 : decode [0x62#8, 0x02#8, 0xED#8, 0xC7#8, 0xAC#8, 0xCD#8] =
    .form (.vfnmadd213pdEvex512 ⟨[], 25#5, 18#5, 7#3, true, .reg 29#5⟩) [] := by decide +kernel
theorem test_decode_row15 : decode [0x62#8, 0xF2#8, 0xED#8, 0x38#8, 0xBC#8, 0xCB#8] =
    .form (.vfnmadd231pdEvex512 ⟨[], 1#5, 2#5, 0#3, false, .regRound 3#5 .down⟩) [] := by decide +kernel

/-- The verdicts of 95_test_vectors.md 2.1 that are no form. -/
theorem test_decode_ud : ∀ bs ∈ ([[0x62#8, 0xF2#8, 0xED#8, 0x88#8, 0x9C#8, 0xCB#8], [0x62#8, 0xF2#8, 0xED#8, 0x68#8, 0x9C#8, 0x08#8],
    [0x62#8, 0xF2#8, 0xED#8, 0x68#8, 0x9C#8, 0xCB#8], [0x62#8, 0xF6#8, 0xED#8, 0x08#8, 0x9C#8, 0xCB#8],
    [0x62#8, 0xF2#8, 0xE9#8, 0x08#8, 0x9C#8, 0xCB#8], [0x66#8, 0xC4#8, 0xE2#8, 0xE9#8, 0x9C#8, 0xCB#8],
    [0xF0#8, 0x62#8, 0xF2#8, 0xED#8, 0x08#8, 0x9C#8, 0xCB#8], [0x48#8, 0xC4#8, 0xE2#8, 0xE9#8, 0x9C#8, 0xCB#8]] : List (List Byte)),
    decode bs = .ud := by decide +kernel

theorem test_decode_not_this_group : ∀ bs ∈ ([[0x62#8, 0xF2#8, 0x6D#8, 0x08#8, 0x9C#8, 0xCB#8], [0xC4#8, 0xE2#8, 0x69#8, 0x9C#8, 0xCB#8],
    [0xC4#8, 0xE2#8, 0xE8#8, 0x9C#8, 0xCB#8], [0xC4#8, 0xE1#8, 0xE9#8, 0x9C#8, 0xCB#8], [0xC4#8, 0xE2#8, 0xE9#8, 0x9D#8, 0xCB#8],
    [0xC3#8], [0x90#8], [0xC5#8, 0xE9#8, 0x9C#8, 0xCB#8], []] : List (List Byte)), decode bs = .notThisGroup := by decide +kernel

/-- R85: 15 bytes are a form, 16 are `#GP(0)`. -/
theorem test_decode_length : decode (List.replicate 11 0x2E#8 ++ [0xC4#8, 0xE2#8, 0xE9#8, 0x9C#8, 0xCB#8]) = .gp ∧
    decode (List.replicate 10 0x2E#8 ++ [0xC4#8, 0xE2#8, 0xE9#8, 0x9C#8, 0xCB#8]) =
      .form (.vfnmadd132pdVex128 ⟨List.replicate 10 (.seg .cs), 1#4, 2#4, .reg 3#4⟩) [] := by decide +kernel

/-- R88: an assembler sets ignored bits to 1: the encoder gives the bytes of 95_test_vectors.md 2.1. -/
theorem test_encode : encode (.vfnmadd132pdVex256 ⟨[], 1#4, 2#4, .mem (.ripRel 0x12345678#32)⟩) =
      [0xC4#8, 0xE2#8, 0xED#8, 0x9C#8, 0x0D#8, 0x78#8, 0x56#8, 0x34#8, 0x12#8] ∧
    encode (.vfnmadd231pdEvex512 ⟨[], 1#5, 2#5, 0#3, false, .mem (.base 0#4 (.disp8 1#8)) true⟩) =
      [0x62#8, 0xF2#8, 0xED#8, 0x58#8, 0xBC#8, 0x48#8, 0x01#8] := by decide +kernel

/-- Rows 1 and 15 of the opcode table, first byte least significant and as R91 writes them. -/
theorem test_table_words :
    decodeTableWord 40 0x009C8102C4 = some (.vfnmadd132pdVex128 ⟨[], 8#4, 15#4, .mem (.base 8#4 .none)⟩) ∧
    decodeTableWord 40 0xC402819C00 = some (.vfnmadd132pdVex128 ⟨[], 8#4, 15#4, .mem (.base 8#4 .none)⟩) ∧
    decodeTableWord 48 0x62028540BC00 = some (.vfnmadd231pdEvex512 ⟨[], 24#5, 31#5, 0#3, false, .mem (.base 8#4 .none) false⟩) := by
  decide +kernel

/-- After reset the first step runs the instruction placed there, which raises `#UD` (R190). -/
theorem test_fetch_word : (faultOf (step (State.reset.withFetchWord 40 0xC402819C00))).map Prod.fst = some .ud := by decide +kernel

/-! ## Instruction vectors (95_test_vectors.md 2.3 and 2.4) -/

def v1 : State := regs clean [0x4000000000000000#64, 0x3FF0000000000000#64] [0x4024000000000000#64, 0x3FF0000000000000#64]
  [0x4008000000000000#64, 0x3FF0000000000000#64]
def v2 : State := regs clean [0x4000000000000000#64, 0xBFF8000000000000#64] [0x4008000000000000#64, 0x4000000000000000#64]
  [0x4024000000000000#64, 0x3FE0000000000000#64]
def v3 : State := setG (setM (regs clean [0x4024000000000000#64, 0x3FF0000000000000#64]
  [0x4000000000000000#64, 0x4010000000000000#64] []) 0x3000 [0x4008000000000000#64, 0x3FD0000000000000#64]) 0#4 0x3000#64
def oneToEight : List Lane := [0x3FF0000000000000#64, 0x4000000000000000#64, 0x4008000000000000#64, 0x4010000000000000#64,
  0x4014000000000000#64, 0x4018000000000000#64, 0x401C000000000000#64, 0x4020000000000000#64]
def zeroToSeven : List Lane := 0#64 :: oneToEight.take 7

/-- V1. -/
theorem test_row1 : (after (exec (.vfnmadd132pdVex128 ⟨[], 1#4, 2#4, .reg 3#4⟩) v1)).readV 1#5 =
    packLanes [0x4010000000000000#64, 0#64] := by decide +kernel

/-- V8, rounding down: lane 1 sets DE, lane 0 PE. -/
theorem test_row1_flags : (after (exec (.vfnmadd132pdVex128 ⟨[], 1#4, 2#4, .reg 3#4⟩)
    { regs clean [0x3FF0000000000001#64, 1#64] [0#64, 0#64] [0x3FF0000000000001#64, 0x3FF0000000000000#64] with mxcsr := 0x3F80#32 })).mxcsr =
    0x3FA2#32 := by decide +kernel

/-- V2. -/
theorem test_row2 : (after (exec (.vfnmadd213pdVex128 ⟨[], 1#4, 2#4, .reg 3#4⟩) v2)).readV 1#5 =
    packLanes [0x4010000000000000#64, 0x400C000000000000#64] := by decide +kernel

/-- V3: 16 bytes at `rax`, little-endian. -/
theorem test_row3 : (after (exec (.vfnmadd231pdVex128 ⟨[], 1#4, 2#4, .mem (.base 0#4 .none)⟩) v3)).readV 1#5 =
    packLanes [0x4010000000000000#64, 0#64] := by decide +kernel

/-- X7: an unmasked DE and a masked IE, at the first stage. -/
theorem test_row3_trap : (faultOf (exec (.vfnmadd231pdVex128 ⟨[], 1#4, 2#4, .reg 3#4⟩)
    { regs clean [0x3FF0000000000000#64, 1#64] [0x7FF0000000000001#64, 0x3FF0000000000000#64] (rep 2 0x3FF0000000000000#64)
      with mxcsr := 0x1E80#32 })).map (fun p => (p.1, p.2.mxcsr)) = some (.xm, 0x1E83#32) := by decide +kernel

/-- V4: four lanes, flags ORed. -/
theorem test_row4 : let t := after (exec (.vfnmadd132pdVex256 ⟨[], 1#4, 2#4, .reg 3#4⟩)
    (regs clean [0x3FF0000000000001#64, 0x7FEFFFFFFFFFFFFF#64, 0x1A70000000000000#64, 0x3FF0000000000000#64]
      [0#64, 0#64, 0#64, 0x3FF0000000000000#64]
      [0x3FF0000000000001#64, 0x4000000000000000#64, 0x1A70000000000000#64, 0x7FF0000000000000#64]))
    t.readV 1#5 = packLanes [0xBFF0000000000002#64, 0xFFF0000000000000#64, 0x8000000000000000#64, 0xFFF0000000000000#64] ∧
      t.mxcsr = 0x1FB8#32 := by decide +kernel

/-- V5: `[rbx+rcx*8+40H]`, not aligned. -/
theorem test_row5 : (after (exec (.vfnmadd213pdVex256 ⟨[], 9#4, 15#4, .mem (.sib 3#2 1#4 3#4 (.disp8 0x40#8))⟩)
    (setM (setG (setG (setV (setV clean 9#5 (oneToEight.take 4)) 15#5 (rep 4 0x3FE0000000000000#64)) 3#4 0x2000#64) 1#4 3#64)
      0x2058 (rep 4 0x3FF0000000000000#64)))).readV 9#5 =
    packLanes [0x3FE0000000000000#64, 0#64, 0xBFE0000000000000#64, 0xBFF0000000000000#64] := by decide +kernel

/-- V6: NaN and invalid lanes. -/
theorem test_row6 : let t := after (exec (.vfnmadd231pdVex256 ⟨[], 1#4, 2#4, .reg 3#4⟩)
    (regs clean [0x3FF0000000000000#64, 0x7FF0000000000000#64, 0x3FF0000000000000#64, 0x401A000000000000#64]
      [0x7FF0000000000001#64, 0x3FF0000000000000#64, 0xFFF8000000000007#64, 0x4000000000000000#64]
      [0x3FF0000000000000#64, 0x7FF0000000000000#64, 0x3FF0000000000000#64, 0x4008000000000000#64]))
    t.readV 1#5 = packLanes [0x7FF8000000000001#64, 0xFFF8000000000000#64, 0xFFF8000000000007#64, 0x3FE0000000000000#64] ∧
      t.mxcsr = 0x1F81#32 := by decide +kernel

/-- E7. -/
theorem test_row7 : let t := after (exec (.vfnmadd132pdEvex128 ⟨[], 1#5, 2#5, 0#3, false, .reg 3#5⟩) v1)
    t.readV 1#5 = packLanes [0x4010000000000000#64, 0#64] ∧ t.pc = 0x1006#64 := by decide +kernel

/-- E8: zeroing, bit 0 of the mask clear. -/
theorem test_row8 : (after (exec (.vfnmadd213pdEvex128 ⟨[], 1#5, 2#5, 1#3, true, .reg 3#5⟩)
    (setK v2 1#3 0xFFFFFFFFFFFFFFFE#64))).readV 1#5 = packLanes [0#64, 0x400C000000000000#64] := by decide +kernel

/-- E9: one element broadcast to two lanes. -/
theorem test_row9 : (after (exec (.vfnmadd231pdEvex128 ⟨[], 1#5, 2#5, 0#3, false, .mem (.base 0#4 .none) true⟩)
    v3)).readV 1#5 = packLanes [0x4010000000000000#64, 0xC026000000000000#64] := by decide +kernel

/-- E10: merging; inactive lanes with an SNaN and a denormal raise nothing. -/
theorem test_row10 : let t := after (exec (.vfnmadd132pdEvex256 ⟨[], 1#5, 2#5, 3#3, false, .reg 3#5⟩)
    (setK (regs clean (oneToEight.take 4) (rep 4 0x3FE0000000000000#64)
      [0x3FF0000000000000#64, 0x7FF0000000000001#64, 0x3FF0000000000000#64, 1#64]) 3#3 0xF5#64))
    t.readV 1#5 = packLanes [0xBFE0000000000000#64, 0x4000000000000000#64, 0xC004000000000000#64, 0x4010000000000000#64] ∧
      t.mxcsr = 0x1F80#32 := by decide +kernel

/-- E11. -/
theorem test_row11 : (after (exec (.vfnmadd213pdEvex256 ⟨[], 1#5, 2#5, 0#3, false, .reg 3#5⟩)
    (regs clean (oneToEight.take 4) (rep 4 0x3FE0000000000000#64) (rep 4 0x3FF0000000000000#64)))).readV 1#5 =
    packLanes [0x3FE0000000000000#64, 0#64, 0xBFE0000000000000#64, 0xBFF0000000000000#64] := by decide +kernel

/-- E12, rounding down: disp8 scaled by 32, a mask, a high register. -/
theorem test_row12 : let q := [0x3FF0000000000000#64, 0x3FF0000000000001#64, 0x3FF0000000000000#64, 0x3FF0000000000001#64]
    let t := after (exec (.vfnmadd231pdEvex256 ⟨[], 1#5, 18#5, 5#3, false, .mem (.base 0#4 (.disp8 1#8)) false⟩)
      { setM (setG (setK (setV (setV clean 1#5 (rep 4 0x3FF0000000000000#64)) 18#5 q) 5#3 0xFFFA#64) 0#4 0x5000#64) 0x5020 q
        with mxcsr := 0x3F80#32 })
    t.readV 1#5 = packLanes [0x3FF0000000000000#64, 0xBCC0000000000001#64, 0x3FF0000000000000#64, 0xBCC0000000000001#64] ∧
      t.mxcsr = 0x3FA0#32 := by decide +kernel

/-- E13: SIB with extended base and index, disp8 scaled by 64, odd lanes. -/
theorem test_row13 : (after (exec (.vfnmadd132pdEvex512 ⟨[], 16#5, 31#5, 2#3, false, .mem (.sib 2#2 9#4 8#4 (.disp8 4#8)) false⟩)
    (setK (setM (setG (setG (setV (setV clean 16#5 oneToEight) 31#5 (rep 8 0x4059000000000000#64)) 8#4 0x10000#64) 9#4 0x40#64)
      0x10200 zeroToSeven) 2#3 0xAA#64))).readV 16#5 =
    packLanes [0x3FF0000000000000#64, 0x4058800000000000#64, 0x4008000000000000#64, 0x4056000000000000#64,
      0x4014000000000000#64, 0x4051800000000000#64, 0x401C000000000000#64, 0x4046000000000000#64] := by decide +kernel

/-- E14: zeroing with high registers. -/
theorem test_row14 : (after (exec (.vfnmadd213pdEvex512 ⟨[], 25#5, 18#5, 7#3, true, .reg 29#5⟩)
    (setK (setV (setV (setV clean 25#5 oneToEight) 18#5 (rep 8 0x4000000000000000#64)) 29#5 (rep 8 0x3FF0000000000000#64)) 7#3 0xF#64))).readV 25#5 =
    packLanes [0xBFF0000000000000#64, 0xC008000000000000#64, 0xC014000000000000#64, 0xC01C000000000000#64] := by decide +kernel

def e15 : State := { regs clean
    ([0x3FF0000000000000#64, 0x7FF0000000000001#64, 0#64, 1#64] ++ rep 4 0x3FF0000000000000#64)
    ([0x3FF0000000000001#64, 0x3FF0000000000000#64, 0x7FEFFFFFFFFFFFFF#64, 0x3FF0000000000000#64] ++ rep 4 0x3FF0000000000000#64)
    ([0x3FF0000000000001#64, 0x3FF0000000000000#64, 0x4000000000000000#64, 0x3FF0000000000000#64] ++ rep 4 0x3FF0000000000000#64)
  with mxcsr := 0#32 }

/-- E15a: embedded rounding toward zero, every exception unmasked in `MXCSR`. -/
theorem test_row15_sae : let t := after (exec (.vfnmadd231pdEvex512 ⟨[], 1#5, 2#5, 0#3, false, .regRound 3#5 .towardZero⟩) e15)
    t.readV 1#5 = packLanes [0xBCC0000000000000#64, 0x7FF8000000000001#64, 0xFFEFFFFFFFFFFFFF#64, 0xBFEFFFFFFFFFFFFF#64] ∧
      t.mxcsr = 0#32 := by decide +kernel

/-- E15b: one element broadcast to eight lanes. -/
theorem test_row15_broadcast : (after (exec (.vfnmadd231pdEvex512 ⟨[], 1#5, 2#5, 0#3, false, .mem (.base 0#4 .none) true⟩)
    (setM (setG (regs clean (rep 8 0x3FF0000000000000#64) zeroToSeven []) 0#4 0x3000#64) 0x3000 [0x3FE0000000000000#64]))).readV 1#5 =
    packLanes [0x3FF0000000000000#64, 0x3FE0000000000000#64, 0#64, 0xBFE0000000000000#64,
      0xBFF0000000000000#64, 0xBFF8000000000000#64, 0xC000000000000000#64, 0xC004000000000000#64] := by decide +kernel

/-! ## Lane vectors (R117, 95_test_vectors.md 2.2) -/

def lane (x y z : Lane) (rc : RoundMode) (daz ftz : Bool) : LaneOut := fnmadd64 Config.default x y z rc daz ftz .all

/-- R117: the product is not rounded; L41 and L42: tininess is detected after rounding; L50: a tie to even. -/
theorem test_lane_rounding :
    lane 0x3FF0000000000001#64 0x3FF0000000000001#64 0x3FF0000000000002#64 .nearestEven false false = ⟨some 0xB970000000000000#64, .none⟩ ∧
    lane 0x3FEFFFFFFFFFFFFF#64 0x0010000000000000#64 0#64 .nearestEven false false =
      ⟨some 0x8010000000000000#64, ⟨false, false, false, true, true⟩⟩ ∧
    lane 0x1E30000000000000#64 0x9E30000000000000#64 0x8010000000000000#64 .nearestEven false false =
      ⟨some 0x8010000000000000#64, ⟨false, false, false, false, true⟩⟩ ∧
    lane 3#64 0x3FE0000000000000#64 0#64 .nearestEven false false =
      ⟨some 0x8000000000000002#64, ⟨false, true, false, true, true⟩⟩ := by decide +kernel

/-- L6, L12, L26, L40, L45: zeros, overflow upward, FTZ, DAZ. -/
theorem test_lane_special :
    lane 0x3FF0000000000000#64 0x3FF0000000000000#64 0x3FF0000000000000#64 .down false false = ⟨some 0x8000000000000000#64, .none⟩ ∧
    lane 0#64 0x3FF0000000000000#64 0x8000000000000000#64 .nearestEven false false = ⟨some 0x8000000000000000#64, .none⟩ ∧
    lane 0x7FEFFFFFFFFFFFFF#64 0x4000000000000000#64 0#64 .up false false =
      ⟨some 0xFFEFFFFFFFFFFFFF#64, ⟨false, false, true, false, true⟩⟩ ∧
    lane 0x0010000000000000#64 0x3FE0000000000000#64 0#64 .nearestEven false true =
      ⟨some 0x8000000000000000#64, ⟨false, false, false, true, true⟩⟩ ∧
    lane 1#64 0x3FF0000000000000#64 0#64 .nearestEven true false = ⟨some 0#64, .none⟩ := by decide +kernel

/-! ## Faults (95_test_vectors.md 2.5) -/

def addVex : Instr := .vfnmadd231pdVex128 ⟨[], 1#4, 2#4, .mem (.base 0#4 .none)⟩

/-- S2, S10: `#NM`, after `#UD`. -/
theorem test_nm : (faultOf (exec addVex { clean with cr0 := 8#64 })).map Prod.fst = some .nm ∧
    (faultOf (exec addVex { clean with cr0 := 8#64, cr4 := 0#64 })).map Prod.fst = some .ud := by decide +kernel

/-- M1, M2, M3: `#PF` with the lowest faulting byte, `#GP(0)`, `#SS(0)`. -/
theorem test_memory_faults :
    (faultOf (exec addVex (setM (setG clean 0#4 0x5000#64) 0x5000 [0#64]))).map Prod.fst = some (.pf 4#32 0x5008#64) ∧
    (faultOf (exec addVex (setG clean 0#4 0x00007FFFFFFFFFF8#64))).map Prod.fst = some .gp ∧
    (faultOf (exec (vexMem (.base 5#4 (.disp8 0x10#8))) (setG clean 5#4 0x00007FFFFFFFFFF0#64))).map Prod.fst = some .ss := by
  decide +kernel

/-- M5: with fault suppression only the active lane is read. -/
theorem test_suppression : let i : Instr := .vfnmadd231pdEvex512 ⟨[], 1#5, 2#5, 1#3, false, .mem (.base 0#4 .none) false⟩
    let s := setK (setM (setG clean 0#4 0x5000#64) 0x5000 [0#64]) 1#3 1#64
    (faultOf (exec i s)).map Prod.fst = some (.pf 4#32 0x5008#64) ∧
      isNext (exec i { s with cfg := { s.cfg with faultSuppression := true } }) = true := by decide +kernel

/-! ## Witnesses: concrete states and operands that meet the hypotheses of each statement -/

/-- A form of 15 bytes with prefixes, a SIB byte, a disp32, a mask and broadcast. -/
def longForm : Instr := .vfnmadd231pdEvex512 ⟨[.seg .fs, .addrSize, .seg .gs, .seg .cs], 31#5, 16#5, 7#3, true,
  .mem (.sibNoBase 3#2 15#4 0x80000000#32) true⟩

theorem witness_DecodeInvertsEncode : longForm.wellFormed = true ∧ longForm.len = 15 := by decide

/-- The ignored bit is 0 in these bytes. -/
theorem witness_DecodeAcceptsOnlyEncodings : decode [0x26#8, 0xC4#8, 0xA2#8, 0xE9#8, 0xAC#8, 0xCB#8, 0x90#8] =
    .form (.vfnmadd213pdVex128 ⟨[.seg .es], 1#4, 2#4, .reg 3#4⟩) [0x90#8] := by decide +kernel

theorem witness_ForbiddenPrefixIsUndefined :
    (∀ b ∈ [0x26#8, 0x4F#8], b ∈ validPrefixBytes ∨ ForbiddenPrefixByte b) ∧ (∃ b ∈ [0x26#8, 0x4F#8], ForbiddenPrefixByte b) ∧
    clean.is32 = false ∧
    (clean.placeAtPc [0x26#8, 0x4F#8, 0xC4#8, 0xE2#8]).fetch = [0x26#8, 0x4F#8] ++ 0xC4#8 :: [0xE2#8] ∧
    (clean.placeAtPc [0x26#8, 0x4F#8, 0x62#8]).fetch = [0x26#8, 0x4F#8] ++ 0x62#8 :: [] := by decide +kernel

theorem witness_MalformedEvex_reserved : (∀ b ∈ [0x65#8], b ∈ validPrefixBytes) ∧
    BitVec.extractLsb' 2 2 0xF6#8 ≠ 0#2 ∧ BitVec.getLsbD 0xE9#8 2 = false := by decide

theorem witness_MalformedEvex_register : EvexHeader 0xF2#8 0xED#8 ∧ OpcodeByte 0x9C#8 ∧ BitVec.extractLsb' 6 2 0xCB#8 = 3#2 ∧
    (BitVec.getLsbD 0x88#8 7 = true ∧ BitVec.extractLsb' 0 3 0x88#8 = 0#3) ∧
    (BitVec.getLsbD 0x68#8 4 = false ∧ BitVec.extractLsb' 5 2 0x68#8 = 3#2) := by decide

theorem witness_MalformedEvex_memory : EvexHeader 0xF2#8 0xED#8 ∧ OpcodeByte 0x9C#8 ∧ BitVec.extractLsb' 6 2 0x08#8 ≠ 3#2 ∧
    takeMem (BitVec.extractLsb' 6 2 0x08#8) (BitVec.extractLsb' 0 3 0x08#8) (~~~ BitVec.extractLsb' 5 1 0xF2#8)
      (~~~ BitVec.extractLsb' 6 1 0xF2#8) [] = some (.base 0#4 .none, []) ∧
    (BitVec.getLsbD 0x88#8 7 = true ∧ BitVec.extractLsb' 0 3 0x88#8 = 0#3) ∧ BitVec.extractLsb' 5 2 0x78#8 = 3#2 := by decide +kernel

theorem witness_TwoByteVexEncodesNoForm : (∀ b ∈ [0x66#8, 0x67#8], b ∈ validPrefixBytes ∨ ForbiddenPrefixByte b) ∧
    longForm.wellFormed = true := by decide

theorem witness_OtherEncodingsAreNotTheGroup : ¬VexHeader 0xE1#8 0xE9#8 ∧ ¬VexHeader 0xE2#8 0x69#8 ∧ ¬OpcodeByte 0x9D#8 ∧
    (BitVec.extractLsb' 2 2 0xF2#8 = 0#2 ∧ BitVec.getLsbD 0x6D#8 2 = true ∧ ¬EvexHeader 0xF2#8 0x6D#8) ∧
    EvexHeader 0xF2#8 0xED#8 := by decide

/-- A form of 16 bytes. -/
def overlong : Instr := .vfnmadd132pdVex128 ⟨List.replicate 11 (.seg .ds), 1#4, 2#4, .mem (.base 0#4 .none)⟩

theorem witness_OverlongIsGeneralProtection : 15 < overlong.len ∧
    (∀ a b, (formOf overlong).src3 = .mem a b → a.wellFormed = true) ∧
    clean.is32 = false ∧ (clean.placeAtPc (encode overlong)).fetch = encode overlong ++ [] := by
  refine ⟨by decide, fun a b h => ?_, rfl, by decide +kernel⟩
  have h : Src3.mem (.base 0#4 .none) false = .mem a b := h
  cases h; rfl

/-- A register form with `b` = 1 and each `L'L`; with `b` = 0; a memory form; each within 15 bytes. -/
theorem witness_EvexLengthAndRounding : EvexHeader 0xF2#8 0xED#8 ∧ OpcodeByte 0xBC#8 ∧
    (∀ p2 ∈ [0x18#8, 0x38#8, 0x58#8, 0x78#8, 0x08#8, 0x28#8, 0x48#8, 0x68#8],
      ¬(BitVec.getLsbD p2 7 = true ∧ BitVec.extractLsb' 0 3 p2 = 0#3)) ∧
    BitVec.extractLsb' 6 2 0xCB#8 = 3#2 ∧ (∀ p2 ∈ [0x18#8, 0x38#8, 0x58#8, 0x78#8], BitVec.getLsbD p2 4 = true) ∧
    (∀ p2 ∈ [0x08#8, 0x28#8, 0x48#8, 0x68#8], BitVec.getLsbD p2 4 = false) ∧ BitVec.extractLsb' 6 2 0x48#8 ≠ 3#2 ∧
    takeMem (BitVec.extractLsb' 6 2 0x48#8) (BitVec.extractLsb' 0 3 0x48#8) (~~~ BitVec.extractLsb' 5 1 0xF2#8)
      (~~~ BitVec.extractLsb' 6 1 0xF2#8) [0x01#8] = some (.base 0#4 (.disp8 1#8), []) := by decide +kernel

/-- A register form of each encoding, after 10 and 9 prefixes; one with embedded rounding; a memory form of each
encoding with a SIB and a disp8, of 15 bytes. -/
theorem witness_OperandFieldsDecode : OpcodeByte 0xAC#8 ∧ BitVec.extractLsb' 6 2 0xCD#8 = 3#2 ∧ VexHeader 0x42#8 0x89#8 ∧
    VexHeader 0x42#8 0x8D#8 ∧ EvexHeader 0x02#8 0xED#8 ∧ BitVec.getLsbD 0xC7#8 4 = false ∧ BitVec.extractLsb' 5 2 0xC7#8 = 2#2 ∧
    ¬(BitVec.getLsbD 0xC7#8 7 = true ∧ BitVec.extractLsb' 0 3 0xC7#8 = 0#3) ∧
    BitVec.getLsbD 0x78#8 4 = true ∧ ¬(BitVec.getLsbD 0x78#8 7 = true ∧ BitVec.extractLsb' 0 3 0x78#8 = 0#3) ∧
    (List.replicate 10 0x2E#8).length + 5 ≤ 15 ∧ (List.replicate 9 0x2E#8).length + 6 ≤ 15 ∧
    (∀ b ∈ List.replicate 10 0x2E#8, b ∈ validPrefixBytes) ∧ BitVec.extractLsb' 6 2 0x4C#8 ≠ 3#2 ∧
    MemoryBytes (BitVec.extractLsb' 6 2 0x4C#8) (BitVec.extractLsb' 0 3 0x4C#8) (~~~ BitVec.extractLsb' 5 1 0x42#8)
      (~~~ BitVec.extractLsb' 6 1 0x42#8) [0x48#8, 0x10#8] (.sib 1#2 1#4 8#4 (.disp8 0x10#8)) [] ∧
    (List.replicate 7 0x2E#8).length + 6 + (MemAddr.sib 1#2 1#4 8#4 (.disp8 0x10#8)).len ≤ 15 := by
  refine ⟨by decide, by decide, by decide, by decide, by decide, by decide, by decide, by decide, by decide, by decide,
    by decide, by decide, by decide, by decide, ?_, by decide⟩
  exact .inr (.inr ⟨rfl, 0x48#8, [0x10#8], rfl, .inr ⟨by decide, .disp8 0x10#8, .inr (.inl ⟨rfl, 0x10#8, rfl, rfl⟩), by decide⟩⟩)

theorem witness_StepRunsDecodedInstruction : clean.is32 = false ∧
    decode (clean.placeAtPc (encode longForm)).fetch = .form longForm [] := by decide +kernel

/-- Also where the instruction runs over the top of the address space. -/
theorem witness_StepRunsPlacedInstruction : longForm.wellFormed = true ∧ clean.is32 = false ∧ Memory.wf clean.text ∧
    decode ({ clean with pc := 0xFFFFFFFFFFFFFFF8#64 }.placeAtPc (encode longForm)).fetch = .form longForm [] := by decide +kernel

theorem witness_StepRefusesOnlyOtherBytes : clean.mode = .long64 ∧ clean.cfg.consistent = true ∧
    refusalOf (step clean) = some (.notThisGroup 0x1000#64) := by decide +kernel

/-- A 32-bit mode in which the forms are enabled. -/
def clean32 : State := { clean with mode := .compat32 }

theorem witness_RefusalsByName_register : let i : Instr := .vfnmadd132pdVex128 ⟨[], 8#4, 2#4, .reg 3#4⟩
    i.wellFormed = true ∧ ¬NotEnabled i clean32 ∧ clean32.cr0.getLsbD 3 = false ∧ (formOf i).dest = 8#5 ∧
      refusalOf (exec i clean32) = some .noSuchRegister := by decide +kernel

/-- General register 8 as a base, 9 as an index; a 512-bit form on a processor of 256-bit registers. -/
theorem witness_RefusalsByName_absent :
    (∀ a ∈ [MemAddr.base 8#4 .none, .sib 0#2 9#4 0#4 .none], (vexMem a).wellFormed = true ∧ ¬NotEnabled (vexMem a) clean32 ∧
      refusalOf (exec (vexMem a) clean32) = some .noSuchRegister) ∧
    (let i : Instr := .vfnmadd132pdEvex512 ⟨[], 1#5, 2#5, 0#3, false, .reg 3#5⟩
     let s := { clean with cfg := { Config.default with maxvl := .w256 } }
     i.wellFormed = true ∧ ¬NotEnabled i s ∧ s.cr0.getLsbD 3 = false ∧ s.cfg.maxvl.bits < bitsOf (formOf i).vl ∧
       refusalOf (exec i s) = some .noSuchRegister) := by decide +kernel

theorem witness_RefusalsByName_addr16 : let i : Instr := .vfnmadd132pdVex128 ⟨[.addrSize], 1#4, 2#4, .mem (.base 0#4 .none)⟩
    i.wellFormed = true ∧ ¬NotEnabled i clean32 ∧ clean32.cr0.getLsbD 3 = false ∧ (formOf i).named clean32 = true ∧
      LegacyPrefix.addrSize ∈ (formOf i).pfx ∧ refusalOf (exec i clean32) = some .addr16 := by decide +kernel

theorem witness_ExecutionKeepsInvariant : v1.Inv ∧
    (∃ t, step (v1.placeAtPc (encode (.vfnmadd132pdVex128 ⟨[], 1#4, 2#4, .reg 3#4⟩))) = .next t) ∧
    (v1.placeAtPc (encode (.vfnmadd132pdVex128 ⟨[], 1#4, 2#4, .reg 3#4⟩))).Inv :=
  ⟨by decide +kernel, next_of_isNext (by decide +kernel), by decide +kernel⟩

theorem witness_EveryFormUndefinedAtReset : longForm.wellFormed = true ∧ addVex.wellFormed = true := by decide

def addReg : Instr := .vfnmadd231pdVex128 ⟨[], 1#4, 2#4, .reg 3#4⟩

/-- X5 of 95_test_vectors.md: an SNaN with IM = 0. -/
def trapping : State := { regs clean (rep 2 0x3FF0000000000000#64) [0x7FF0000000000001#64, 0x3FF0000000000001#64]
  [0x3FF0000000000000#64, 0x3FF0000000000001#64] with mxcsr := 0x1F00#32 }

/-- A next state, and a fault that sets a flag. -/
theorem witness_ExecutionFrame : (∃ t, exec addReg v1 = .next t) ∧
    exec addReg trapping = .fault (.raised .xm { trapping with mxcsr := 0x1F01#32 }) :=
  ⟨next_of_isNext (by decide +kernel), fault_of_faultOf (by decide +kernel)⟩

/-- A fault that leaves the state as it was, one with `#XM` and one with `#UD` that set a flag. -/
theorem witness_FaultsArePrecise :
    (faultOf (step ({ v1 with cr0 := 8#64 }.placeAtPc (encode addReg)))).map Prod.fst = some .nm ∧
    (faultOf (step (trapping.placeAtPc (encode addReg)))).map (fun p => (p.1, p.2.mxcsr)) = some (.xm, 0x1F01#32) ∧
    (faultOf (step ({ trapping with cr4 := 0x40000#64 }.placeAtPc (encode addReg)))).map (fun p => (p.1, p.2.mxcsr)) =
      some (.ud, 0x1F01#32) := by decide +kernel

/-- The hypotheses of the completion of a VEX form of `n` lanes, for operands in registers and in memory. -/
theorem witness_Vex128FormsComplete : v3.vexReady = true ∧
    (∀ i ∈ [Instr.vfnmadd132pdVex128 ⟨[], 1#4, 2#4, .reg 3#4⟩, .vfnmadd213pdVex128 ⟨[], 1#4, 2#4, .reg 3#4⟩, addReg],
      OperandsRead i v3 (v3.readV 3#5)) ∧
    OperandsRead addVex v3 (packLanes [0x4008000000000000#64, 0x3FD0000000000000#64]) ∧
    (activeFlags 2 (fun _ => true) fun j => fnmaddMxcsr v3 (laneOf (v3.readV 2#5) j)
      (laneOf (packLanes [0x4008000000000000#64, 0x3FD0000000000000#64]) j) (laneOf (v3.readV 1#5) j)).unmasked (mxcsrMasks v3.mxcsr) = false := by
  refine ⟨by decide, fun i hi => ?_, ⟨by decide, by decide, ok_of_toOption (by decide +kernel)⟩, by decide +kernel⟩
  simp only [List.mem_cons, List.not_mem_nil, or_false] at hi
  rcases hi with rfl | rfl | rfl <;> exact ⟨by decide, by decide, rfl⟩

theorem witness_Vex256FormsComplete : v3.vexReady = true ∧
    ∀ i ∈ [Instr.vfnmadd132pdVex256 ⟨[], 1#4, 2#4, .reg 3#4⟩, .vfnmadd213pdVex256 ⟨[], 1#4, 2#4, .reg 3#4⟩,
        .vfnmadd231pdVex256 ⟨[], 1#4, 2#4, .reg 3#4⟩], OperandsRead i v3 (v3.readV 3#5) := by
  refine ⟨by decide, fun i hi => ?_⟩
  simp only [List.mem_cons, List.not_mem_nil, or_false] at hi
  rcases hi with rfl | rfl | rfl <;> exact ⟨by decide, by decide, rfl⟩

def maskedOps {σ : Type} (src : σ) : EvexOps σ := ⟨[], 1#5, 2#5, 1#3, false, src⟩

theorem witness_Evex128FormsComplete : v3.evexReady .v128 = true ∧
    ∀ i ∈ [Instr.vfnmadd132pdEvex128 (maskedOps (.reg 3#5)), .vfnmadd213pdEvex128 (maskedOps (.reg 3#5)),
        .vfnmadd231pdEvex128 (maskedOps (.reg 3#5))], OperandsRead i v3 (v3.readV 3#5) := by
  refine ⟨by decide, fun i hi => ?_⟩
  simp only [List.mem_cons, List.not_mem_nil, or_false] at hi
  rcases hi with rfl | rfl | rfl <;> exact ⟨by decide, by decide, rfl⟩

theorem witness_Evex256FormsComplete : v3.evexReady .v256 = true ∧
    ∀ i ∈ [Instr.vfnmadd132pdEvex256 (maskedOps (.reg 3#5)), .vfnmadd213pdEvex256 (maskedOps (.reg 3#5)),
        .vfnmadd231pdEvex256 (maskedOps (.reg 3#5))], OperandsRead i v3 (v3.readV 3#5) := by
  refine ⟨by decide, fun i hi => ?_⟩
  simp only [List.mem_cons, List.not_mem_nil, or_false] at hi
  rcases hi with rfl | rfl | rfl <;> exact ⟨by decide, by decide, rfl⟩

theorem witness_Evex512FormsComplete : v3.evexReady .v512 = true ∧ (∀ r rc, EvexSrc512.reg 3#5 ≠ .regRound r rc) ∧
    ∀ i ∈ [Instr.vfnmadd132pdEvex512 (maskedOps (.reg 3#5)), .vfnmadd213pdEvex512 (maskedOps (.reg 3#5)),
        .vfnmadd231pdEvex512 (maskedOps (.reg 3#5))], OperandsRead i v3 (v3.readV 3#5) := by
  refine ⟨by decide, fun _ _ => by simp, fun i hi => ?_⟩
  simp only [List.mem_cons, List.not_mem_nil, or_false] at hi
  rcases hi with rfl | rfl | rfl <;> exact ⟨by decide, by decide, rfl⟩

/-- `MXCSR` = 0: every exception unmasked. -/
theorem witness_EmbeddedRoundingSuppresses : e15.evexReady .v512 = true ∧
    ∀ i ∈ [Instr.vfnmadd132pdEvex512 (maskedOps (.regRound 3#5 .up)), .vfnmadd213pdEvex512 (maskedOps (.regRound 3#5 .up)),
        .vfnmadd231pdEvex512 (maskedOps (.regRound 3#5 .up))], OperandsRead i e15 (e15.readV 3#5) := by
  refine ⟨by decide, fun i hi => ?_⟩
  simp only [List.mem_cons, List.not_mem_nil, or_false] at hi
  rcases hi with rfl | rfl | rfl <;> exact ⟨by decide, by decide, rfl⟩

/-- E16 of 95_test_vectors.md, with merging and with zeroing. -/
theorem witness_AllZeroMaskCompletes : let s := setK v1 1#3 0xFFFFFFFFFFFFFF00#64
    (∀ j, j < 8 → (s.readK 1#3).getLsbD j = false) ∧
    ∀ z, (Enabled (.vfnmadd231pdEvex512 ⟨[], 1#5, 2#5, 1#3, z, .reg 3#5⟩) s ∧
      OperandsRead (.vfnmadd231pdEvex512 ⟨[], 1#5, 2#5, 1#3, z, .reg 3#5⟩) s (s.readV 3#5)) := by
  refine ⟨by decide +kernel, fun z => ?_⟩
  cases z <;> exact ⟨by decide +kernel, by decide, by decide, rfl⟩

/-! ### Operand 3 in memory -/

def bcstForm : Instr := .vfnmadd231pdEvex512 ⟨[], 1#5, 2#5, 0#3, false, .mem (.base 0#4 .none) true⟩

theorem accesses_of_default {f : Form} {s : State} {b : Bool} {j : Nat} (h : s.cfg.faultSuppression = false) : f.accesses s b j :=
  fun _ h' => absurd (h.symm.trans h') (by decide)

theorem witness_ThirdOperandValue : (formOf addReg).thirdSource v3 = .ok (v3.readV 3#5) ∧
    (formOf (.vfnmadd231pdEvex512 (maskedOps (.regRound 3#5 .up)))).thirdSource v3 = .ok (v3.readV 3#5) ∧
    (formOf addVex).thirdSource v3 = .ok (packLanes [0x4008000000000000#64, 0x3FD0000000000000#64]) ∧
    (formOf addVex).accesses v3 false 15 ∧
    (formOf bcstForm).thirdSource v3 = .ok (packLanes (rep 8 0x4008000000000000#64)) ∧ (formOf bcstForm).accesses v3 true 7 :=
  ⟨rfl, rfl, ok_of_toOption (by decide +kernel), accesses_of_default rfl, ok_of_toOption (by decide +kernel), accesses_of_default rfl⟩

/-- Under fault suppression: lane 0 of the operand is accessed, lane 1 is not. -/
theorem witness_accesses_suppressed : let i : Instr := .vfnmadd231pdEvex512 ⟨[], 1#5, 2#5, 1#3, false, .mem (.base 0#4 .none) false⟩
    let s := { setK v3 1#3 1#64 with cfg := { Config.default with faultSuppression := true } }
    (formOf i).accesses s false 7 ∧ ¬(formOf i).accesses s false 8 := by
  refine ⟨fun _ _ => ?_, fun h => ?_⟩
  · show (formOf _).active _ 0 = true
    decide +kernel
  · have h : (formOf _).active _ 1 = true := h rfl rfl
    revert h
    decide +kernel

/-- All 16 bytes readable; the last one not. -/
theorem witness_MemoryFaultsFollowAccess : (formOf addVex).src3 = .mem (.base 0#4 .none) false ∧ v3.cfg.alignmentCheck = false ∧
    (∀ j, j < (formOf addVex).operandBytes false → (formOf addVex).byteReadable v3 (.base 0#4 .none) false j) ∧
    ¬(formOf addVex).byteReadable (setG v3 0#4 0x3001#64) (.base 0#4 .none) false 15 := by decide +kernel

/-- 16 bytes mapped at `5000H`, of which the upper 8 are denied as `d`, at the privilege levels `levels`. -/
def denied (levels : BitVec 4) (d : Denial) : State :=
  { setM (setG clean 0#4 0x5000#64) 0x5000 [0#64, 0#64] with
    cfg := { Config.default with regions := [⟨0x5008, 8, levels, none, d⟩] } }

/-- `addVex` reads an operand of which byte `j` alone can fault, or any byte above it. -/
abbrev MemoryFaultAt (s : State) (j : Nat) : Prop :=
  Enabled addVex s ∧ j < 16 ∧
    (∀ l, l < 16 → s.segmentOk .ds ((formOf addVex).effAddr s (.base 0#4 .none) false) l = true) ∧
    (∀ l, l < 16 → ((formOf addVex).operandAddr s (.base 0#4 .none) false l).toNat <
        ((formOf addVex).operandAddr s (.base 0#4 .none) false j).toNat → (formOf addVex).byteReadable s (.base 0#4 .none) false l)

/-- No check before the page check stops the operand of `addVex`. -/
abbrev AllAddressable (s : State) : Prop :=
  ∀ l, l < 16 → (formOf addVex).byteAddressable s (.base 0#4 .none) false l

/-- Each answer of the memory, at every privilege level of the region; the fault it ends in. -/
theorem witness_MemoryFaultReport_denied : ∀ cpl : BitVec 2, ∀ d ∈ [Denial.pageFault false false, .pageFault true false,
      .pageFault true true, .pageFault false true, .generalProtection, .stackFault],
    let s := { denied 15#4 d with cpl := cpl }
    MemoryFaultAt s 8 ∧ s.denialAt 16 0x5008#64 = some d ∧ (d ≠ .generalProtection → d ≠ .stackFault → AllAddressable s) ∧
      (faultOf (exec addVex s)).map Prod.fst = some (
        match d with
        | .pageFault p r => .pf ((if p then 1#32 else 0#32) + (if r then 8#32 else 0#32) + (if cpl = 3#2 then 4#32 else 0#32)) 0x5008#64
        | .generalProtection => .gp
        | .stackFault => .ss) := by decide +kernel

/-- An unmapped byte: the first, the last, in a region that only `CPL` 3 may not read, and, in an operand that wraps
past 2^64, the lowest address, which is not its first byte. -/
theorem witness_MemoryFaultReport_unmapped : (MemoryFaultAt clean 0 ∧ AllAddressable clean) ∧
    (MemoryFaultAt (setG v3 0#4 0x3001#64) 15 ∧ AllAddressable (setG v3 0#4 0x3001#64)) ∧
    Memory.read (setG v3 0#4 0x3001#64).mem 0x3010 = none ∧
    (let s := { setG (denied 8#4 (.pageFault true false)) 0#4 0x5008#64 with mem := [], cpl := 0#2 }
     MemoryFaultAt s 0 ∧ AllAddressable s ∧ s.denialAt 16 0x5008#64 = none) ∧
    (let s := setG clean 0#4 0xFFFFFFFFFFFFFFF8#64
     MemoryFaultAt s 8 ∧ AllAddressable s ∧ (faultOf (exec addVex s)).map Prod.fst = some (.pf 4#32 0#64)) :=
  ⟨by decide +kernel, by decide +kernel, by decide +kernel, by decide +kernel, by decide +kernel⟩

/-- A region that denies operands of 64 bytes only lets one of 16 through. -/
theorem test_region_width :
    (let s := denied 15#4 .generalProtection
     { s with cfg := { s.cfg with regions := [⟨0x5008, 8, 15#4, some 64, .generalProtection⟩] } }).denialAt 16 0x5008#64 = none := by
  decide +kernel

/-- M2 and M3 of 95_test_vectors.md: byte 8 by DS, byte 0 by SS. -/
theorem witness_NonCanonicalOperandFaults :
    (let s := setG clean 0#4 0x00007FFFFFFFFFF8#64
     s.mode = .long64 ∧ Enabled addVex s ∧ 8 < (formOf addVex).operandBytes false ∧
       ¬CanonicalAddr s.cfg.linearBits ((formOf addVex).operandAddr s (.base 0#4 .none) false 8)) ∧
    (let s := setG clean 5#4 0x00007FFFFFFFFFF0#64
     let i := vexMem (.base 5#4 (.disp8 0x10#8))
     Enabled i s ∧ operandSeg s (formOf i).pfx (.base 5#4 (.disp8 0x10#8)) = .ss ∧
       ¬CanonicalAddr s.cfg.linearBits ((formOf i).operandAddr s (.base 5#4 (.disp8 0x10#8)) false 0)) := by
  have h (w : LinearBits) (a : Word) : CanonicalAddr w a ↔ ∀ b, b < 64 → w.bits - 1 ≤ b → a.getLsbD b = a.getLsbD 63 :=
    ⟨fun h b h1 h2 => h b h2 h1, fun h b h1 h2 => h b h2 h1⟩
  simp only [h]
  decide +kernel

/-- A limit of 15 with the operand at offset 1, and a segment that cannot be read. -/
theorem witness_SegmentLimitFaults :
    (let s := { setG clean32 0#4 1#64 with segs := { clean.segs with ds := ⟨0#32, 15#32, true⟩ } }
     s.is32 = true ∧ Enabled addVex s ∧ (s.segs.get (operandSeg s (formOf addVex).pfx (.base 0#4 .none))).limit.toNat <
       (((formOf addVex).effAddr s (.base 0#4 .none) false).toNat + 15) % 2 ^ 32) ∧
    (let s := { clean32 with segs := { clean.segs with ds := ⟨0#32, 0xFFFFFFFF#32, false⟩ } }
     s.is32 = true ∧ Enabled addVex s ∧ operandSeg s (formOf addVex).pfx (.base 0#4 .none) ≠ .ss ∧
       (s.segs.get (operandSeg s (formOf addVex).pfx (.base 0#4 .none))).readable = false) := by decide +kernel

/-- The operand at `3008H`, 16 bytes, all readable. -/
theorem witness_AlignmentCheckFaults :
    let s := { setM (setG clean 0#4 0x3008#64) 0x3008 [0#64, 0#64] with
      cr0 := 0x40000#64, eflagsAC := true, cfg := { Config.default with alignmentCheck := true } }
    Enabled addVex s ∧ (formOf addVex).src3 = .mem (.base 0#4 .none) false ∧ s.cfg.alignmentCheck = true ∧
    (∀ j, j < (formOf addVex).operandBytes false → (formOf addVex).byteReadable s (.base 0#4 .none) false j) ∧
    s.cr0.getLsbD 18 = true ∧ s.cpl = 3#2 ∧
    ((formOf addVex).operandAddr s (.base 0#4 .none) false 0).toNat % (formOf addVex).operandBytes false ≠ 0 ∧
    (faultOf (exec addVex s)).map Prod.fst = some .ac := by decide +kernel

theorem witness_OperandSegment : clean.is32 = false ∧ clean32.is32 = true ∧ LegacyPrefix.seg .fs ∉ [LegacyPrefix.seg .ss] ∧
    LegacyPrefix.seg .gs ∉ [LegacyPrefix.seg .ss] ∧ (∀ x, LegacyPrefix.seg x ∉ [LegacyPrefix.addrSize]) := by
  refine ⟨by decide, by decide, by decide, by decide, fun x => ?_⟩
  cases x <;> decide

theorem witness_LinearAddressOfOperand : clean.is32 = false ∧ clean32.is32 = true := by decide

theorem witness_DisplacementScaling : clean.is32 = false ∧
    ∀ i ∈ [addVex, longForm, .vfnmadd132pdEvex128 (maskedOps (.reg 3#5)), bcstForm],
      i ≠ longForm → LegacyPrefix.addrSize ∉ (formOf i).pfx := by decide

/-! ### Exceptions and independence -/

/-- A condition holds; none holds and `#UD` is raised for the exception. -/
theorem witness_UndefinedOpcodeConditions : addReg.wellFormed = true ∧ NotEnabled addReg State.reset ∧
    ¬NotEnabled addReg { trapping with cr4 := 0x40000#64 } ∧
    (faultOf (exec addReg { trapping with cr4 := 0x40000#64 })).map Prod.fst = some .ud := by decide +kernel

theorem witness_DeviceNotAvailable : addReg.wellFormed = true ∧ ¬NotEnabled addReg { clean with cr0 := 8#64 } ∧
    BitVec.getLsbD 8#64 3 = true := by decide

/-- The first stage (IE unmasked), the second stage (X8 of 95_test_vectors.md, PM = 0), and embedded rounding. -/
theorem witness_UnmaskedResponse : Enabled addReg trapping ∧ OperandsRead addReg trapping (trapping.readV 3#5) ∧
    (formOf addReg).sae = false ∧
    (⟨true, false, false, false, false⟩ : Flags).unmasked (mxcsrMasks trapping.mxcsr) = true ∧
    (activeFlags 2 ((formOf addReg).active trapping) ((formOf addReg).computeLane trapping (trapping.readV 3#5))).ie = true ∧
    (let s := { regs clean (rep 2 0x3FF0000000000000#64) [0x3FF0000000000000#64, 0x3FF0000000000001#64]
        [0x3FF0000000000000#64, 0x3FF0000000000001#64] with mxcsr := 0x0F80#32 }
     Enabled addReg s ∧ activeFlags 2 ((formOf addReg).active s) ((formOf addReg).computeLane s (s.readV 3#5)) =
       ⟨false, false, false, false, true⟩) ∧
    (formOf (.vfnmadd231pdEvex512 (maskedOps (.regRound 3#5 .up)))).sae = true :=
  ⟨by decide +kernel, ⟨by decide, by decide, rfl⟩, by decide +kernel, by decide +kernel, by decide +kernel, by decide +kernel, rfl⟩

theorem witness_CleanEntryExecutes : longForm.wellFormed = true ∧ clean.cleanEntry = true ∧ clean.cfg.consistent = true ∧
    clean.cfg.fma = true ∧ clean.cfg.avx512f = true ∧ clean.cfg.avx512vl = true ∧ clean.defaultMXCSR = true ∧
    ∀ a b, (formOf addReg).src3 ≠ .mem a b := ⟨by decide, by decide, rfl, rfl, rfl, rfl, by decide, fun _ _ h => Src3.noConfusion h⟩

theorem witness_FlagsNeverFeedBack : 0x3F#32 &&& ~~~0x3F#32 = 0#32 ∧ ∃ t, exec addReg v1 = .next t :=
  ⟨by decide, next_of_isNext (by decide +kernel)⟩

/-- Two register files that differ in bit 128 of register 1 only; a next state and a fault. -/
theorem witness_UpperBitsNeverRead : let v' := v1.v.set 1 (v1.v[1] ^^^ (1#512 <<< 128))
    v' ≠ v1.v ∧ (∀ r : Fin 32, ∀ j, j < lanesOf (formOf addReg).vl → laneOf v'[r] j = laneOf v1.v[r] j) ∧
    (∃ t, exec addReg v1 = .next t) ∧ exec addReg trapping = .fault (.raised .xm { trapping with mxcsr := 0x1F01#32 }) :=
  ⟨by decide +kernel, by decide +kernel, next_of_isNext (by decide +kernel), fault_of_faultOf (by decide +kernel)⟩

/-- Two opmask files that differ in bit 2 of `k1` only, for a form of two lanes. -/
theorem witness_OpmaskHighBitsNeverRead : let k' := v1.k.set 1 4#64
    k' ≠ v1.k ∧ ∀ r : Fin 8, ∀ j, j < lanesOf (formOf (.vfnmadd132pdEvex128 (maskedOps (.reg 3#5)))).vl →
      k'[r].getLsbD j = v1.k[r].getLsbD j := by decide +kernel

theorem witness_RegisterFormsReadNoMemory : ∀ a b, (formOf addReg).src3 ≠ .mem a b := fun _ _ h => Src3.noConfusion h

/-- A form that completes, and one that page-faults. -/
theorem witness_PrivilegeIndependent : v1.cfg.alignmentCheck = false ∧ (∀ r ∈ v1.cfg.regions, r.levels.getLsbD 0 = r.levels.getLsbD v1.cpl.toNat) ∧
    (∀ code addr t, exec addReg v1 ≠ .fault (.raised (.pf code addr) t)) ∧
    exec addVex clean = .fault (.raised (.pf 4#32 0#64) clean) := by
  refine ⟨rfl, by decide, fun code addr t h => ?_, fault_of_faultOf (by decide +kernel)⟩
  obtain ⟨u, hu⟩ := next_of_isNext (o := exec addReg v1) (by decide +kernel)
  rw [hu] at h
  cases h

/-- A register and a memory operand; a disp32. -/
theorem witness_VexAndEvexAgree : (⟨[], 15#4, 2#4, .reg 3#4⟩ : VexOps).wellFormed = true ∧
    (⟨[], 15#4, 2#4, .mem (.sib 1#2 9#4 13#4 (.disp32 8#32))⟩ : VexOps).wellFormed = true ∧
    (⟨[], 15#4, 2#4, .mem (.sib 1#2 9#4 13#4 (.disp32 8#32))⟩ : VexOps).len < 15 ∧ clean.vexReady = true ∧
    clean.evexReady .v128 = true ∧ clean.evexReady .v256 = true := by decide

/-! ### Lane numerics -/

theorem witness_NaNOperandResult :
    (nanRoles NaNOrder.xyz).map (laneInput 0x3FF0000000000000#64 0x7FF4000000000000#64 1#64) =
      [0x3FF0000000000000#64] ++ 0x7FF4000000000000#64 :: [1#64] ∧
    isNaN 0x7FF4000000000000#64 = true ∧ isSNaN 0x7FF4000000000000#64 = true ∧ isNaN 0x3FF0000000000000#64 = false ∧
    isNaN 0xFFF8000000000005#64 = true ∧ isSNaN 0xFFF8000000000005#64 = false := by decide +kernel

/-- With `cfg.InvalidOnInfZeroQNaN`: IE for infinity times zero with a QNaN addend, not for another QNaN. -/
theorem test_invalid_qnan : let c := { Config.default with invalidOnInfZeroQNaN := true }
    (fnmadd64 c 0x7FF0000000000000#64 0#64 0x7FF8000000000009#64 .up false false .all).flags.ie = true ∧
    (fnmadd64 c 0x7FF0000000000000#64 0x3FF0000000000000#64 0x7FF8000000000009#64 .up false false .all).flags.ie = false := by
  decide +kernel

theorem witness_InvalidOperationResult : isNaN 0x7FF0000000000000#64 = false ∧ isNaN 0#64 = false ∧
    Invalid 0x7FF0000000000000#64 0#64 0x3FF0000000000000#64 ∧
    Invalid 0x7FF0000000000000#64 0x3FF0000000000000#64 0x7FF0000000000000#64 ∧
    Invalid (dazReplace true 0x7FF0000000000000#64) (dazReplace true 1#64) 0#64 ∧ isQNaN 0x7FF8000000000009#64 = true ∧
    isInf 0x7FF0000000000000#64 = true ∧ isZero 0#64 = true := by decide +kernel

theorem witness_InfiniteOperandResult : ¬Invalid 0x7FF0000000000000#64 1#64 0xFFF0000000000000#64 ∧
    isInf 0x7FF0000000000000#64 = true ∧ ¬Invalid 1#64 0x3FF0000000000000#64 0x7FF0000000000000#64 ∧ isInf 1#64 = false := by
  decide +kernel

/-- A zero product with a zero addend of each sign, and a cancellation. -/
theorem witness_ExactZeroResult : ExactlyEquals 0#64 0x3FF0000000000000#64 0#64 0 ∧
    ExactlyEquals 0#64 0x3FF0000000000000#64 0x8000000000000000#64 0 ∧
    ExactlyEquals 0x3FF0000000000000#64 0x3FF0000000000000#64 0x3FF0000000000000#64 0 := by decide +kernel

/-- `2^l` units round to themselves in every mode, with exponent `l - 2148`. -/
theorem firstRounding_pow (rc : RoundMode) (l : Nat) : FirstRounding rc true (2 ^ l) (2 ^ 52) ((l : Int) - 2148) false := by
  refine ⟨l, 2 ^ 52, Nat.le_refl _, Nat.pow_lt_pow_right (by decide) (by omega), ?_, ?_, .inr ⟨by decide, rfl, rfl⟩⟩
  · have h : ((2 ^ 52 : Nat) : Int) * ((2 ^ l : Nat) : Int) - ((2 ^ l * 2 ^ 52 : Nat) : Int) = 0 := by push_cast; ring
    have hl : 0 < 2 ^ l := Nat.two_pow_pos l
    unfold IsRounding
    dsimp only
    rw [h]
    cases rc <;> simp
  · rw [Nat.mul_comm]; simp

/-- `-2^-1022` and `-2^1023`: the least and the greatest exponent of the normal range. -/
theorem witness_NormalResultIsRounded :
    ExactlyEquals 0x0010000000000000#64 0x3FF0000000000000#64 0#64 (-(2 ^ 1126)) ∧
    FirstRounding .down true (2 ^ 1126) (2 ^ 52) (-1022) false ∧
    ExactlyEquals 0x7FE0000000000000#64 0x3FF0000000000000#64 0#64 (-(2 ^ 3171)) ∧
    FirstRounding .up true (2 ^ 3171) (2 ^ 52) 1023 false :=
  ⟨by decide +kernel, firstRounding_pow _ 1126, by decide +kernel, firstRounding_pow _ 3171⟩

/-- `-2^1024`. -/
theorem witness_OverflowResponse : ExactlyEquals 0x7FE0000000000000#64 0x4000000000000000#64 0#64 (-(2 ^ 3172)) ∧
    FirstRounding .towardZero true (2 ^ 3172) (2 ^ 52) 1024 false := ⟨by decide +kernel, firstRounding_pow _ 3172⟩

/-- `-2^-1023`. -/
theorem witness_TinyResultResponse : ExactlyEquals 0x0010000000000000#64 0x3FE0000000000000#64 0#64 (-(2 ^ 1125)) ∧
    FirstRounding .nearestEven true (2 ^ 1125) (2 ^ 52) (-1023) false := ⟨by decide +kernel, firstRounding_pow _ 1125⟩

/-- An inexact result, and an infinite operand. -/
theorem witness_PrecisionFlagMeansInexact :
    (lane 0x3FF0000000000001#64 0x3FF0000000000001#64 0#64 .nearestEven false false).value = some 0xBFF0000000000002#64 ∧
    ExactlyEquals 0x3FF0000000000001#64 0x3FF0000000000001#64 0#64 (-(((2 ^ 52 + 1) * 2 ^ 1022) ^ 2)) ∧
    (lane 0x7FF0000000000000#64 0x3FF0000000000000#64 0#64 .nearestEven false false).value = some 0xFFF0000000000000#64 ∧
    isFinite 0x7FF0000000000000#64 = false := by decide +kernel

/-- The neighbour toward zero is finite; with FTZ, a normal result, and a flushed one with UE. -/
theorem witness_FiniteResultsAreCorrectlyRounded :
    ExactlyEquals 0x3FF0000000000001#64 0x3FF0000000000001#64 0#64 (-(((2 ^ 52 + 1) * 2 ^ 1022) ^ 2)) ∧
    (lane 0x3FF0000000000001#64 0x3FF0000000000001#64 0#64 .down false false).value = some 0xBFF0000000000003#64 ∧
    isFinite 0xBFF0000000000003#64 = true ∧ isFinite 0xBFF0000000000002#64 = true ∧
    (lane 0x3FF0000000000001#64 0x3FF0000000000001#64 0#64 .down false true).flags.ue = false ∧
    ExactlyEquals 0x0010000000000000#64 0x3FE0000000000000#64 0#64 (-(2 ^ 1125)) ∧
    lane 0x0010000000000000#64 0x3FE0000000000000#64 0#64 .nearestEven false true =
      ⟨some 0x8000000000000000#64, ⟨false, false, false, true, true⟩⟩ := by decide +kernel

theorem witness_FlagCombinations :
    (lane 0x7FF0000000000001#64 0#64 0#64 .nearestEven false false).flags.ie = true ∧
    (lane 0x7FEFFFFFFFFFFFFF#64 0x4000000000000000#64 0#64 .nearestEven false false).flags.oe = true ∧
    (lane 0x1A70000000000000#64 0x1A70000000000000#64 0#64 .nearestEven false false).flags.ue = true := by decide +kernel

theorem witness_FactorsCommute : isNaN 0x7FF0000000000000#64 = false ∧ isNaN 1#64 = false := by decide +kernel

end Sys2Proof.Tests
end

section
/-! The reset state (10_state.md R35) and the defaults of the configuration record (00_scope.md R7). -/

namespace Sys2Proof

/-! ## The defaults that follow `AVX512F` (R7) -/

@[simp] theorem Config.defaultFor_maxvl_bits (avx512f : Bool) :
    (Config.defaultFor avx512f).maxvl.bits = if avx512f then 512 else 256 :=
  apply_ite MaxVL.bits (avx512f = true) .w512 .w256

@[simp] theorem Config.defaultFor_nvec_count (avx512f : Bool) :
    (Config.defaultFor avx512f).nvec.count = if avx512f then 32 else 16 :=
  apply_ite NVec.count (avx512f = true) .n32 .n16

end Sys2Proof

namespace Sys2Proof.Machine

/-! ## The register files after reset (R35) -/

@[simp] theorem State.reset_v_getElem {i : Nat} (hi : i < 32) : State.reset.v[i] = 0#512 :=
  Vector.getElem_replicate hi

@[simp] theorem State.reset_k_getElem {i : Nat} (hi : i < 8) : State.reset.k[i] = 0#64 :=
  Vector.getElem_replicate hi

/-- R35 gives `rdx` no value; the model puts 0 there too (log entry 2). -/
@[simp] theorem State.reset_g_getElem {i : Nat} (hi : i < 16) : State.reset.g[i] = 0#64 :=
  Vector.getElem_replicate hi

/-- Settles O17: the register files and the two widths by their lemmas; every other entry of the two tables is
the field of `State.reset` or `Config.defaultFor` that R35 or R7 names. -/
theorem resetHoldsPowerUpTable : Obligations.ResetHoldsPowerUpTable := by
  refine ⟨fun i => State.reset_v_getElem i.isLt, fun i => State.reset_k_getElem i.isLt,
    fun i _ => State.reset_g_getElem i.isLt,
    rfl, rfl, rfl, rfl, rfl, rfl, rfl, rfl, rfl, rfl, rfl, rfl, fun avx512f => ?_⟩
  exact ⟨rfl, rfl, rfl, Config.defaultFor_maxvl_bits avx512f, Config.defaultFor_nvec_count avx512f,
    rfl, rfl, rfl, rfl, rfl, rfl⟩

end Sys2Proof.Machine
end

section
/-! The invariant of the state (10_state.md R20, R23, R25, R28): it holds after reset, and completing a form, the only
way to a next state, keeps it. -/

namespace Sys2Proof.Machine

/-- A step that answers a next state executed an instruction (R84). -/
theorem step_next {s t : State} (h : step s = .next t) : ∃ i, exec i s = .next t := by
  unfold step at h
  split at h
  · cases h
  · cases hv : decode s.fetch with
    | form i rest => rw [hv] at h; exact ⟨i, h⟩
    | ud => rw [hv] at h; cases h
    | gp => rw [hv] at h; cases h
    | notThisGroup => rw [hv] at h; cases h

/-- The reserved bits of `MXCSR` are none of the five flags (R25). -/
theorem Flags.bits_reserved (f : Flags) : f.bits.extractLsb' 16 16 = 0#16 := by
  obtain ⟨ie, de, oe, ue, pe⟩ := f
  revert ie de oe ue pe
  decide

/-- In a 32-bit mode `pc` stays below 2^32 (R28). -/
theorem State.pcAfter_lt {s : State} (h : s.is32 = true) (len : Nat) : (s.pcAfter len).toNat < 2 ^ 32 := by
  rw [State.pcAfter, State.wrap, if_pos h, BitVec.toNat_setWidth_of_le (by decide)]
  exact ((s.pc + BitVec.ofNat 64 len).setWidth 32).isLt

/-- Completion keeps the invariant: the destination exists and is cut to `MAXVL` bits, the flags leave the reserved bits
of `MXCSR` alone, and `pc` wraps as the mode says. -/
theorem Form.inv_complete {f : Form} {s : State} (hn : f.nameable s = true) (hs : s.Inv) (vals : List Lane)
    (fl : Flags) : (f.complete s vals fl).Inv := by
  obtain ⟨hmem, htext, hfit, habsent, hk, hres, _⟩ := hs
  refine ⟨hmem, htext, fun i => ?_, fun i hi => ?_, hk, ?_, fun h32 => State.pcAfter_lt (s := s) h32 f.bytes⟩
  · rw [Form.complete_cfg, Form.complete_v, Fin.getElem_fin]
    by_cases hd : f.dest.toNat = i.val
    · simp only [hd, Vector.getElem_set_self, fitMaxVL_fitMaxVL]
    · rw [Vector.getElem_set_ne _ _ hd]
      exact hfit i
  · rw [Form.complete_cfg] at hi
    have hd : f.dest.toNat ≠ i.val := by
      have := Form.dest_lt_of_nameable hn
      omega
    rw [Form.complete_v, Fin.getElem_fin, Vector.getElem_set_ne _ _ hd]
    exact habsent i hi
  · rw [Form.complete_mxcsr, BitVec.extractLsb'_or, hres, Flags.bits_reserved, BitVec.or_zero]

/-- An instruction that completes keeps the invariant. -/
theorem exec_inv {i : Instr} {s t : State} (hs : s.Inv) (h : exec i s = .next t) : t.Inv := by
  rw [exec_eq_run] at h
  obtain ⟨s3, _, hn, _, rfl, _⟩ := Form.run_next h
  exact Form.inv_complete hn hs _ _

/-- Settles O15: a step to a next state is an execution, and an execution to a next state is a completion. -/
theorem executionKeepsInvariant : Obligations.ExecutionKeepsInvariant := by
  intro s t hs
  refine ⟨fun h => ?_, fun i h => exec_inv hs h⟩
  obtain ⟨i, hi⟩ := step_next h
  exact exec_inv hs hi

/-- Settles O16: both memories are empty, every register holds 0, `MXCSR` is `1F80H`, and Real is no 32-bit mode. -/
theorem resetMeetsInvariant : Obligations.ResetMeetsInvariant := by
  refine ⟨Memory.wf_nil, Memory.wf_nil, fun i => ?_, fun i _ => State.reset_v_getElem i.isLt, fun i => ?_,
    by decide, fun h => by cases h⟩
  · rw [Fin.getElem_fin, State.reset_v_getElem i.isLt]
    rfl
  · rw [Fin.getElem_fin, State.reset_k_getElem i.isLt]
    rfl

end Sys2Proof.Machine
end

section
/-! The frame of an execution (10_state.md R34). -/

namespace Sys2Proof.Machine

/-- Settles O19: a next state is a completion, whose frame is `Form.frame_complete`; a fault carries the state before
it but for flags of `MXCSR`. -/
theorem executionFrame : Obligations.ExecutionFrame := by
  intro i s
  rw [exec_eq_run]
  refine ⟨fun t h => ?_, fun e a h => ?_⟩
  · obtain ⟨s3, _, _, _, rfl, _⟩ := Form.run_next h
    exact ⟨Form.frame_complete _ _ _ _, by rw [Form.complete_pc, formOf_bytes], _, Form.complete_mxcsr _ _ _ _⟩
  · rcases Form.run_fault h with ⟨rfl, _⟩ | ⟨_, _, fl, rfl⟩
    · exact ⟨.none, by simp⟩
    · exact ⟨fl, rfl⟩

end Sys2Proof.Machine
end

section
/-! The refusals (10_state.md R20, R27, 30_encoding.md R81): how an instruction that no entry check stops is refused,
and what makes a register or vector length not exist. -/

namespace Sys2Proof.Machine

/-- The 32-bit modes (R32). -/
theorem State.is32_iff (s : State) : s.is32 = true ↔ s.mode = .prot32 ∨ s.mode = .compat32 := by
  unfold State.is32
  cases s.mode <;> simp

/-- How many vector registers can be named, by the mode (R20, R81). -/
theorem State.vecCount_eq (s : State) :
    s.vecCount = if s.mode = .prot32 ∨ s.mode = .compat32 then 8 else s.cfg.nvec.count := by
  simp only [State.vecCount, State.is32_iff]

/-- Eight general registers can be named in a 32-bit mode (R27, R81). -/
theorem State.gprCount_of_is32 {s : State} (h : s.is32 = true) : s.gprCount = 8 := if_pos h

/-- What it takes for every operand of a form to exist (R20, R27). -/
theorem Form.named_iff (f : Form) (s : State) : f.named s = true ↔
    f.dest.toNat < s.vecCount ∧ f.src2.toNat < s.vecCount ∧ src3Named s f.src3 = true ∧
      bitsOf f.vl ≤ s.cfg.maxvl.bits := by
  simp only [Form.named, Bool.and_eq_true, decide_eq_true_eq, and_assoc]

section entered
variable {i : Instr} {s : State}

/-- No entry check stops a well-formed, enabled instruction while `CR0.TS` is 0 (R166, R167). -/
theorem entryFault_eq_none (hw : i.wellFormed = true) (hn : ¬NotEnabled i s) (ht : s.cr0.getLsbD 3 = false) :
    (formOf i).entryFault s = none := by
  rw [entryFault_of_enabled hw hn, State.ts, ht]
  rfl

/-- Such an instruction is refused when an operand does not exist (log entry 20). -/
theorem exec_noSuchRegister (he : (formOf i).entryFault s = none) (hn : ¬(formOf i).named s = true) :
    exec i s = .refused .noSuchRegister := by
  rw [exec_eq_run, Form.run, he]
  simp only [hn, Bool.not_false, if_true]

/-- Such an instruction is refused when its operands exist and its addressing is 16-bit (log entry 13). -/
theorem exec_addr16 (he : (formOf i).entryFault s = none) (hn : (formOf i).named s = true)
    (ha : (formOf i).addr16 s = true) : exec i s = .refused .addr16 := by
  rw [exec_eq_run, Form.run, he]
  simp only [hn, ha, Bool.not_true, Bool.false_eq_true, if_false, if_true]

end entered

/-- A form that names a vector register which does not exist (R20, R81). -/
theorem Form.not_named_of_vector {f : Form} {s : State} {r : BitVec 5} (hr : s.vecCount ≤ r.toNat)
    (h : f.dest = r ∨ f.src2 = r ∨ f.src3 = .reg r ∨ ∃ rc, f.src3 = .regRound r rc) : ¬f.named s = true := by
  rw [Form.named_iff]
  rintro ⟨hdest, hsrc2, hsrc3, _⟩
  rcases h with rfl | rfl | h | ⟨rc, h⟩
  · omega
  · omega
  · rw [h, src3Named, decide_eq_true_eq] at hsrc3
    omega
  · rw [h, src3Named, decide_eq_true_eq] at hsrc3
    omega

/-- An address with a general register from 8 on has none of that number in a 32-bit mode (R27, R81). -/
theorem addrNamed_eq_false {s : State} (h32 : s.is32 = true) {a : MemAddr}
    (h : (∃ r d, a = .base r d ∧ 8 ≤ r.toNat) ∨
      (∃ sc x r d, a = .sib sc x r d ∧ (8 ≤ x.toNat ∨ 8 ≤ r.toNat)) ∨ ∃ sc x d, a = .sibNoBase sc x d ∧ 8 ≤ x.toNat) :
    addrNamed s a = false := by
  rcases h with ⟨r, d, rfl, hr⟩ | ⟨sc, x, r, d, rfl, hr⟩ | ⟨sc, x, d, rfl, hr⟩ <;>
    simp only [addrNamed, State.gprCount_of_is32 h32, Bool.and_eq_false_iff, decide_eq_false_iff_not] <;> omega

/-- Settles O14: each condition makes `Form.named` false, or `Form.addr16` true, behind entry checks that pass. -/
theorem refusalsByName : Obligations.RefusalsByName := by
  refine ⟨fun s h => if_pos (s.is32_iff.2 h), fun i s hw hn ht => ?_⟩
  have he := entryFault_eq_none hw hn ht
  refine ⟨?_, fun h32 => ?_, fun hvl => ?_, fun hnamed h32 => ?_⟩
  · rintro ⟨r, hf, hr⟩
    rw [← State.vecCount_eq] at hr
    exact exec_noSuchRegister he (Form.not_named_of_vector hr hf)
  · rintro ⟨a, b, hf, ha⟩
    refine exec_noSuchRegister he fun hnamed => ?_
    obtain ⟨_, _, hsrc3, _⟩ := ((formOf i).named_iff s).1 hnamed
    rw [hf, src3Named, addrNamed_eq_false (s.is32_iff.2 h32) ha] at hsrc3
    cases hsrc3
  · refine exec_noSuchRegister he fun hnamed => ?_
    obtain ⟨_, _, _, hbits⟩ := ((formOf i).named_iff s).1 hnamed
    omega
  · rintro ⟨a, b, hf⟩ hp
    refine exec_addr16 he hnamed ?_
    rw [Form.addr16, hf]
    exact Bool.and_eq_true_iff.2 ⟨s.is32_iff.2 h32, List.contains_iff_mem.2 hp⟩

end Sys2Proof.Machine
end

section
/-! The decoder of 30_encoding.md R84 gives back what the encoder wrote. -/

namespace Sys2Proof

/-- A row of VEX, from its mnemonic and `VEX.L` (R86): what the encoder writes and how long it is. -/
theorem encode_vexInstr (m : Mnem) (l : BitVec 1) (o : VexOps) :
    encode (vexInstr m l o) = encodeVex m l o ∧ (vexInstr m l o).len = o.len := by
  have hl : l = 0#1 ∨ l = 1#1 := by revert l; decide
  rcases hl with rfl | rfl <;> cases m <;> exact ⟨rfl, rfl⟩

/-- The bytes of a VEX row are decoded to it (R62 to R65, R84 steps 2 to 4). -/
theorem decode_encodeVex (m : Mnem) (l : BitVec 1) {o : VexOps} (h : o.wellFormed = true) (rest : List Byte) :
    decode (encodeVex m l o ++ rest) = .form (vexInstr m l o) rest := by
  obtain ⟨pfx, d, s2, src⟩ := o
  simp only [VexOps.wellFormed, Bool.and_eq_true, decide_eq_true_eq] at h
  obtain ⟨hlen, hsrc⟩ := h
  have hform : ∀ rest, formOrGp (vexInstr m l ⟨pfx, d, s2, src⟩) rest =
      .form (vexInstr m l ⟨pfx, d, s2, src⟩) rest := fun rest =>
    if_neg (by rw [(encode_vexInstr m l _).2]; omega)
  cases src with
  | reg r =>
    simp only [encodeVex, List.append_assoc, List.cons_append, List.nil_append, decode_vex, decodeVex, vex1_map,
      vex2_w, vex2_pp, mnemOfOpcode_opcode, modrm_mod, modrm_reg, modrm_rm, vex1_r, vex1_b, vex2_v, vex2_l,
      extBit_append_lowField, ne_eq, not_true_eq_false, or_self, if_false, if_true, hform]
  | mem a =>
    simp only [encodeVex, List.append_assoc, List.cons_append, List.nil_append, decode_vex, decodeVex, vex1_map,
      vex2_w, vex2_pp, mnemOfOpcode_opcode, modrm_mod, modrm_reg, modrm_rm, vex1_r, vex1_x, vex1_b, vex2_v, vex2_l,
      extBit_append_lowField, ne_eq, not_true_eq_false, or_self, if_false, a.mod_ne, takeMem_tail hsrc, hform]

theorem bit4_append (r : BitVec 5) : r.extractLsb' 4 1 ++ r.extractLsb' 0 4 = r := by revert r; decide

section evex
variable {σ : Type} (m : Mnem) {pfx : List LegacyPrefix} (d s2 : BitVec 5) {k : BitVec 3} {z : Bool} (src : σ)
  (ll : BitVec 2) (rest : List Byte)

/-- The bytes of an EVEX form are decoded from its three payload bytes, its opcode and ModRM on (R66, R84 step 3). -/
theorem decode_encodeEvex (e : EvexRm) :
    decode (encodeEvex m ⟨pfx, d, s2, k, z, src⟩ e ++ rest) =
      decodeEvexBody pfx
        ((~~~ d.extractLsb' 3 1) ++ (~~~ e.xx) ++ (~~~ e.bx) ++ (~~~ d.extractLsb' 4 1) ++ 2#4)
        (1#1 ++ (~~~ s2.extractLsb' 0 4) ++ 5#3)
        (BitVec.ofBool z ++ e.ll ++ e.b ++ (~~~ s2.extractLsb' 4 1) ++ k) m
        (e.mod ++ d.extractLsb' 0 3 ++ e.rm) (e.tail ++ rest) := by
  simp only [encodeEvex, List.append_assoc, List.cons_append, List.nil_append, decode_evex, decodeEvex, evex0_reserved,
    evex0_map, evex1_fixed, evex1_w, evex1_pp, mnemOfOpcode_opcode, ne_eq, not_true_eq_false, or_self, if_false]

/-- A register as operand 3 is read back, with `EVEX.b` as embedded rounding (R68 to R70, R84 steps 4 and 5). -/
theorem decode_encodeEvex_reg (hlen : pfx.length + 6 ≤ 15) (hz : ¬(z = true ∧ k = 0#3)) (r : BitVec 5)
    (b : BitVec 1) : decode (encodeEvex m ⟨pfx, d, s2, k, z, src⟩ (evexRegRm r b ll) ++ rest) =
      if b.getLsbD 0 then .form (evexInstr512 m ⟨pfx, d, s2, k, z, .regRound r (.ofCode ll)⟩) rest
      else evexByLength m ll ⟨pfx, d, s2, k, z, .reg r⟩ ⟨pfx, d, s2, k, z, .reg r⟩ rest := by
  have hlen' : ¬15 < pfx.length + 6 := by omega
  simp only [decode_encodeEvex, decodeEvexBody, evexRegRm,
    evex0_r, evex0_r', evex0_x, evex0_b, evex1_v, evex2_aaa, evex2_z, evex2_b, evex2_ll, evex2_v',
    modrm_mod, modrm_reg, modrm_rm, regBits_append, bit4_append, hlen', hz, if_true, if_false, List.nil_append]

/-- A memory operand 3 is read back, with `EVEX.b` as broadcast (R70, R75, R76, R84 steps 4 and 5). -/
theorem decode_encodeEvex_mem {a : MemAddr} (hlen : pfx.length + 6 + a.len ≤ 15) (hz : ¬(z = true ∧ k = 0#3))
    (ha : a.wellFormed = true) (bcst : Bool) :
    decode (encodeEvex m ⟨pfx, d, s2, k, z, src⟩ (evexMemRm a bcst ll) ++ rest) =
      evexByLength m ll ⟨pfx, d, s2, k, z, .mem a bcst⟩ ⟨pfx, d, s2, k, z, .mem a bcst⟩ rest := by
  have hlen' : ¬15 < pfx.length + 6 + a.len := by omega
  have hb : (BitVec.ofBool bcst).getLsbD 0 = bcst := by cases bcst <;> rfl
  simp only [decode_encodeEvex, decodeEvexBody, evexMemRm,
    evex0_r, evex0_r', evex0_x, evex0_b, evex1_v, evex2_aaa, evex2_z, evex2_b, evex2_ll, evex2_v',
    modrm_mod, modrm_reg, modrm_rm, regBits_append, bit4_append, a.mod_ne, takeMem_tail ha, hb, hlen', hz, if_false]

end evex

/-- What makes an EVEX form well-formed (R71, R85). -/
theorem EvexOps.wellFormedWith_iff {σ : Type} (srcLen : σ → Nat) (srcWf : σ → Bool) (o : EvexOps σ) :
    o.wellFormedWith srcLen srcWf = true ↔
      o.lenWith srcLen ≤ 15 ∧ srcWf o.src3 = true ∧ ¬(o.zeroing = true ∧ o.mask = 0#3) := by
  simp [EvexOps.wellFormedWith, and_assoc, imp_iff_not_or]

/-- The bytes of an EVEX.128 or EVEX.256 row are decoded to the row of their length (R69, R84 step 5). -/
theorem decode_encodeEvexSrc (m : Mnem) (ll : BitVec 2) {o : EvexOps EvexSrc}
    (h : o.wellFormedWith EvexSrc.len EvexSrc.wellFormed = true) (rest : List Byte) :
    ∃ o512, decode (encodeEvex m o (o.src3.toRm ll) ++ rest) = evexByLength m ll o o512 rest := by
  obtain ⟨hlen, hsrc, hz⟩ := (EvexOps.wellFormedWith_iff _ _ o).1 h
  obtain ⟨pfx, d, s2, k, z, src⟩ := o
  cases src with
  | reg r => exact ⟨_, (decode_encodeEvex_reg m d s2 _ ll rest hlen hz r 0#1).trans (if_neg (by decide))⟩
  | mem a bcst => exact ⟨_, decode_encodeEvex_mem m d s2 _ ll rest hlen hz hsrc bcst⟩

/-- The bytes of an EVEX.512 row are decoded to it, embedded rounding included (R69, R70, R84 step 5). -/
theorem decode_encodeEvexSrc512 (m : Mnem) {o : EvexOps EvexSrc512}
    (h : o.wellFormedWith EvexSrc512.len EvexSrc512.wellFormed = true) (rest : List Byte) :
    decode (encodeEvex m o o.src3.toRm ++ rest) = .form (evexInstr512 m o) rest := by
  obtain ⟨hlen, hsrc, hz⟩ := (EvexOps.wellFormedWith_iff _ _ o).1 h
  obtain ⟨pfx, d, s2, k, z, src⟩ := o
  cases src with
  | reg r => exact (decode_encodeEvex_reg m d s2 _ 2#2 rest hlen hz r 0#1).trans (if_neg (by decide))
  | regRound r rc =>
    refine (decode_encodeEvex_reg m d s2 _ rc.code rest hlen hz r 1#1).trans ?_
    rw [if_pos (by decide), RoundMode.ofCode_code]
  | mem a bcst => exact decode_encodeEvex_mem m d s2 _ 2#2 rest hlen hz hsrc bcst

/-- A well-formed instruction is decoded from its encoding, whatever bytes follow (R84). -/
theorem decode_encode {i : Instr} (h : i.wellFormed = true) (rest : List Byte) :
    decode (encode i ++ rest) = .form i rest := by
  have evex128 (m : Mnem) {o : EvexOps EvexSrc} (ho : o.wellFormedWith EvexSrc.len EvexSrc.wellFormed = true) :
      decode (encodeEvex m o (o.src3.toRm 0#2) ++ rest) = .form (evexInstr128 m o) rest := by
    obtain ⟨_, h⟩ := decode_encodeEvexSrc m 0#2 ho rest
    exact h
  have evex256 (m : Mnem) {o : EvexOps EvexSrc} (ho : o.wellFormedWith EvexSrc.len EvexSrc.wellFormed = true) :
      decode (encodeEvex m o (o.src3.toRm 1#2) ++ rest) = .form (evexInstr256 m o) rest := by
    obtain ⟨_, h⟩ := decode_encodeEvexSrc m 1#2 ho rest
    exact h
  cases i with
  | vfnmadd132pdVex128 o => exact decode_encodeVex .f132 0#1 h rest
  | vfnmadd213pdVex128 o => exact decode_encodeVex .f213 0#1 h rest
  | vfnmadd231pdVex128 o => exact decode_encodeVex .f231 0#1 h rest
  | vfnmadd132pdVex256 o => exact decode_encodeVex .f132 1#1 h rest
  | vfnmadd213pdVex256 o => exact decode_encodeVex .f213 1#1 h rest
  | vfnmadd231pdVex256 o => exact decode_encodeVex .f231 1#1 h rest
  | vfnmadd132pdEvex128 o => exact evex128 .f132 h
  | vfnmadd213pdEvex128 o => exact evex128 .f213 h
  | vfnmadd231pdEvex128 o => exact evex128 .f231 h
  | vfnmadd132pdEvex256 o => exact evex256 .f132 h
  | vfnmadd213pdEvex256 o => exact evex256 .f213 h
  | vfnmadd231pdEvex256 o => exact evex256 .f231 h
  | vfnmadd132pdEvex512 o => exact decode_encodeEvexSrc512 .f132 h rest
  | vfnmadd213pdEvex512 o => exact decode_encodeEvexSrc512 .f213 h rest
  | vfnmadd231pdEvex512 o => exact decode_encodeEvexSrc512 .f231 h rest

/-- The encoder writes as many bytes as `Instr.len` says (R85). -/
theorem encode_length (i : Instr) : (encode i).length = i.len := by
  cases i <;> simp only [encode, Instr.len, EvexOps.lenWith, encodeVex_length, encodeEvex_length, EvexSrc.tail_length,
    EvexSrc512.tail_length]

end Sys2Proof
end

section
/-! Forms in the reset state (10_state.md R35, 70_reset_and_hazards.md R190). -/

namespace Sys2Proof.Machine

/-- A step whose text at `pc` starts with the encoding of an instruction executes it (R84). -/
theorem step_of_fetch {s : State} {i : Instr} {rest : List Byte} (h32 : s.is32 = false) (hw : i.wellFormed = true)
    (hf : s.fetch = encode i ++ rest) : step s = exec i s := by
  rw [step, if_neg (by simp [h32]), hf, decode_encode hw]
  rfl

/-- A well-formed instruction that is not enabled is `#UD` (R166). -/
theorem exec_of_notEnabled {i : Instr} {s : State} (hw : i.wellFormed = true) (hn : NotEnabled i s) :
    exec i s = raise .ud s := by
  rw [exec_eq_run, Form.run, entryFault_eq_some_ud hw hn]

/-- Settles O18: the reset state is in Real mode, where no form is enabled, and placing a form at `pc` changes only
the text from which the step then decodes it. -/
theorem everyFormUndefinedAtReset : Obligations.EveryFormUndefinedAtReset := by
  intro i hw
  refine ⟨exec_of_notEnabled hw (.inl rfl), ?_⟩
  have hlen : (encode i).length ≤ 2 ^ 64 := by
    rw [encode_length]
    have := (wellFormed_checks hw).1
    omega
  obtain ⟨rest, hfetch⟩ := State.fetch_placeAtPc State.reset (encode i) Memory.wf_nil hlen
  rw [step_of_fetch rfl hw hfetch]
  exact exec_of_notEnabled hw (.inl rfl)

end Sys2Proof.Machine
end

section
/-! What a form does not depend on (10_state.md R22, R24, R27): bits of the vector registers above the vector length,
bits of the opmask registers above the last lane, and, for a register form, everything that addresses memory. -/

namespace Sys2Proof.Machine

/-! ## Runs from two related states -/

/-- The way a form finishes, and the flags it sets, follow from its lanes, `MXCSR` and `CR4.OSXMMEXCPT`: two states that
agree on these both complete with the same values and flags, or both trap with the same exception and flags (R162). -/
theorem Form.finish_agree (f : Form) {s u : State} (hm : u.mxcsr = s.mxcsr) (hx : u.osxmmexcpt = s.osxmmexcpt)
    (ls : List LaneOut) :
    (∃ fl, f.finish s ls = .next (f.complete s (laneValues ls) fl) ∧
      f.finish u ls = .next (f.complete u (laneValues ls) fl)) ∨
    (∃ e fl, f.finish s ls = raise e (s.orMxcsr (Flags.bits fl)) ∧
      f.finish u ls = raise e (u.orMxcsr fl.bits)) := by
  have hsimd : simdException u = simdException s := by rw [simdException, simdException, hx]
  unfold Form.finish
  rw [hm, hsimd]
  by_cases hs : f.sae = true
  · rw [if_pos hs, if_pos hs]
    exact .inl ⟨_, rfl, rfl⟩
  rw [if_neg hs, if_neg hs]
  by_cases hpre : (laneFlags ls).pre.unmasked (mxcsrMasks s.mxcsr) = true
  · rw [if_pos hpre, if_pos hpre]
    exact .inr ⟨_, _, rfl, rfl⟩
  rw [if_neg hpre, if_neg hpre]
  by_cases hpost : (laneFlags ls).post.unmasked (mxcsrMasks s.mxcsr) = true
  · rw [if_pos hpost, if_pos hpost]
    exact .inr ⟨_, _, rfl, rfl⟩
  rw [if_neg hpost, if_neg hpost]
  exact .inl ⟨_, rfl, rfl⟩

/-- A form finishes the same from a changed state, when the change leaves `MXCSR` and `CR4.OSXMMEXCPT` alone and
commutes with the two updates that a finish makes (R144 steps 5 to 7, R162). -/
theorem Form.finish_map {f : Form} {s : State} (u : State → State) (hm : (u s).mxcsr = s.mxcsr)
    (hx : (u s).osxmmexcpt = s.osxmmexcpt) (ho : ∀ b, (u s).orMxcsr b = u (s.orMxcsr b))
    (hc : ∀ vals fl, f.complete (u s) vals fl = u (f.complete s vals fl)) (ls : List LaneOut) :
    f.finish (u s) ls = mapOut u (f.finish s ls) := by
  rcases f.finish_agree hm hx ls with ⟨fl, hfs, hfu⟩ | ⟨e, fl, hfs, hfu⟩
  · rw [hfs, hfu, hc]
    rfl
  · rw [hfs, hfu, ho]
    rfl

/-- A read depends on which of its own bytes are accessed, and on no others (R142). -/
theorem State.memRead_congr (s : State) (seg : SegReg) (ea : Word) {n : Nat} {need need' : Nat → Bool}
    (h : ∀ j, j < n → need j = need' j) : s.memRead seg ea n need = s.memRead seg ea n need' := by
  have hused : (List.range n).filter need = (List.range n).filter need' :=
    List.filter_congr fun j hj => h j (List.mem_range.1 hj)
  have hbytes : (List.range n).map (fun j => if need j then s.memByte seg ea j else 0#8) =
      (List.range n).map fun j => if need' j then s.memByte seg ea j else 0#8 :=
    List.map_congr_left fun j hj => by rw [h j (List.mem_range.1 hj)]
  rw [State.memRead, State.memRead, State.memFault, State.memFault, hused, hbytes]

/-! ## The opmask registers (R24) -/

/-- The bits of an opmask register that exist (R23). -/
theorem fitKW_getLsbD (w : KWidth) (x : Word) (i : Nat) :
    (fitKW w x).getLsbD i = (decide (i < w.bits) && x.getLsbD i) := by
  have hw : w.bits ≤ 64 := by cases w <;> decide
  simp only [fitKW, BitVec.getLsbD_setWidth]
  by_cases hi : i < w.bits
  · simp [hi, show i < 64 by omega]
  · simp [hi]

/-- A VEX form has no write mask (R90). -/
theorem formOf_mask_of_vex {i : Instr} (h : (formOf i).evex = false) : (formOf i).mask = 0#3 := by
  revert h
  cases i <;> simp [formOf, vexForm, evexForm, evexForm512]

/-- Whether a lane is active depends on its own bit of the mask register, and under VEX on none (R24, R143). -/
theorem active_withK {i : Instr} {s : State} {k' : Vector Word 8} {j : Nat}
    (h : (formOf i).evex = true → ∀ r : Fin 8, k'[r].getLsbD j = s.k[r].getLsbD j) :
    (formOf i).active { s with k := k' } j = (formOf i).active s j := by
  cases he : (formOf i).evex with
  | false => simp only [Form.active, formOf_mask_of_vex he, beq_self_eq_true, Bool.true_or]
  | true =>
    have hr := h he ⟨(formOf i).mask.toNat, (formOf i).mask.isLt⟩
    simp only [Fin.getElem_fin] at hr
    simp only [Form.active, State.readK, fitKW_getLsbD, hr]

/-- Operand 3 depends on the opmask registers through the activity of the form's own lanes alone (R142). -/
theorem Form.thirdSource_withK {f : Form} {s : State} {k' : Vector Word 8}
    (h : ∀ j, j < lanesOf f.vl → f.active { s with k := k' } j = f.active s j) :
    f.thirdSource { s with k := k' } = f.thirdSource s := by
  have hbyte : ∀ j, j < bytesOf f.vl → f.needsByte { s with k := k' } j = f.needsByte s j := by
    intro j hj
    rw [bytesOf] at hj
    rw [Form.needsByte, h (j / 8) (by omega)]
    rfl
  have helement : f.needsElement { s with k := k' } = f.needsElement s := by
    have hany : (List.range (lanesOf f.vl)).any (f.active { s with k := k' }) =
        (List.range (lanesOf f.vl)).any (f.active s) := by
      rw [Bool.eq_iff_iff, List.any_eq_true, List.any_eq_true]
      exact exists_congr fun j => and_congr_right fun hj => by rw [h j (List.mem_range.1 hj)]
    rw [Form.needsElement, hany]
    rfl
  cases hs : f.src3 with
  | reg r => simp only [Form.thirdSource, hs]; rfl
  | regRound r rc => simp only [Form.thirdSource, hs]; rfl
  | mem a bcst =>
    cases bcst with
    | false =>
      simp only [Form.thirdSource, hs]
      exact State.memRead_congr s _ _ hbyte
    | true =>
      simp only [Form.thirdSource, hs, helement]
      rfl

/-- Settles O44: only the activity of a form's lanes depends on an opmask register, and no update writes one. -/
theorem opmaskHighBitsNeverRead : Obligations.OpmaskHighBitsNeverRead := by
  intro i s k' hk
  have hactive : ∀ j, j < lanesOf (formOf i).vl → (formOf i).active { s with k := k' } j = (formOf i).active s j :=
    fun j hj => active_withK fun he r => hk he r j hj
  rw [exec_eq_run, exec_eq_run]
  refine Form.run_map (fun t => { t with k := k' }) rfl rfl rfl (Form.thirdSource_withK hactive) fun s3 _ => ?_
  have hlanes : (formOf i).lanes { s with k := k' } s3 = (formOf i).lanes s s3 :=
    Form.lanes_congr hactive (fun _ _ _ => rfl) (fun _ _ => rfl) rfl rfl rfl rfl rfl
  rw [hlanes]
  exact Form.finish_map (fun t => { t with k := k' }) rfl rfl (fun _ => rfl) (fun _ _ => rfl) _

/-! ## Register forms (R27, R47, R179) -/

/-- Settles O45: the checks, operand 3, the lanes and the updates of a register form name none of the changed fields. -/
theorem registerFormsReadNoMemory : Obligations.RegisterFormsReadNoMemory := by
  intro i s g fs gs segs mem ac cpl hreg u
  have hnamed : (formOf i).named (u s) = (formOf i).named s := by
    unfold Form.named
    cases hs : (formOf i).src3 with
    | reg r => rfl
    | regRound r rc => rfl
    | mem a b => exact absurd hs (hreg a b)
  have hthird : (formOf i).thirdSource (u s) = (formOf i).thirdSource s := by
    unfold Form.thirdSource
    cases hs : (formOf i).src3 with
    | reg r => rfl
    | regRound r rc => rfl
    | mem a b => exact absurd hs (hreg a b)
  rw [exec_eq_run, exec_eq_run]
  refine Form.run_map u rfl hnamed rfl hthird fun s3 _ => ?_
  have hlanes : (formOf i).lanes (u s) s3 = (formOf i).lanes s s3 :=
    Form.lanes_congr (fun _ _ => rfl) (fun _ _ _ => rfl) (fun _ _ => rfl) rfl rfl rfl rfl rfl
  rw [hlanes]
  exact Form.finish_map u rfl rfl (fun _ => rfl) (fun _ _ => rfl) _

/-! ## The vector registers (R22) -/

/-- The lanes of the bits that exist depend on the same lanes of the register alone (R22). -/
theorem laneOf_fitMaxVL_congr (w : MaxVL) {x y : VReg} {j : Nat} (h : laneOf x j = laneOf y j) :
    laneOf (fitMaxVL w x) j = laneOf (fitMaxVL w y) j := by
  apply BitVec.eq_of_getLsbD_eq
  intro i hi
  have hbit : x.getLsbD (64 * j + i) = y.getLsbD (64 * j + i) := by
    have := congrArg (fun l => BitVec.getLsbD l i) h
    simpa only [laneOf_getLsbD, hi, decide_true, Bool.true_and] using this
  simp only [laneOf_getLsbD, fitMaxVL_getLsbD, hbit]

section otherV
variable {f : Form} {s : State} {v' : Vector VReg 32}
  (hv : ∀ r : Fin 32, ∀ j, j < lanesOf f.vl → laneOf v'[r] j = laneOf s.v[r] j)
include hv

/-- The lanes of a form read the same from registers that agree on them (R20, R22). -/
theorem Form.laneOf_readV_withV (r : BitVec 5) {j : Nat} (hj : j < lanesOf f.vl) :
    laneOf (State.readV { s with v := v' } r) j = laneOf (s.readV r) j :=
  laneOf_fitMaxVL_congr _ (hv ⟨r.toNat, r.isLt⟩ j hj)

/-- Operand 3 faults the same, or the lanes of the form read the same, from registers that agree on them (R142). -/
theorem Form.thirdSource_withV :
    (∃ e, f.thirdSource s = .error e ∧ f.thirdSource { s with v := v' } = .error e) ∨
    (∃ a b, f.thirdSource s = .ok a ∧ f.thirdSource { s with v := v' } = .ok b ∧
      ∀ j, j < lanesOf f.vl → laneOf b j = laneOf a j) := by
  cases hs : f.src3 with
  | reg r =>
    refine .inr ⟨s.readV r, State.readV { s with v := v' } r, ?_, ?_,
      fun j hj => Form.laneOf_readV_withV hv r hj⟩ <;>
      rw [Form.thirdSource, hs]
  | regRound r rc =>
    refine .inr ⟨s.readV r, State.readV { s with v := v' } r, ?_, ?_,
      fun j hj => Form.laneOf_readV_withV hv r hj⟩ <;>
      rw [Form.thirdSource, hs]
  | mem a bcst =>
    have hmem : f.thirdSource { s with v := v' } = f.thirdSource s := by
      unfold Form.thirdSource
      rw [hs]
      cases bcst <;> rfl
    rw [hmem]
    cases f.thirdSource s with
    | error e => exact .inl ⟨e, rfl, rfl⟩
    | ok a => exact .inr ⟨a, a, rfl, rfl, fun _ _ => rfl⟩

/-- From registers that agree on its lanes, a form raises the same fault before its lanes, is refused the same, or
finishes with the same lanes (R22). -/
theorem Form.run_withV :
    (∃ e, f.run s = raise e s ∧ f.run { s with v := v' } = raise e { s with v := v' }) ∨
    (∃ r, f.run s = .refused r ∧ f.run { s with v := v' } = .refused r) ∨
    (∃ ls, f.run s = f.finish s ls ∧ f.run { s with v := v' } = f.finish { s with v := v' } ls) := by
  have hentry : f.entryFault { s with v := v' } = f.entryFault s := rfl
  have hnamed : f.named { s with v := v' } = f.named s := rfl
  have haddr : f.addr16 { s with v := v' } = f.addr16 s := rfl
  unfold Form.run
  rw [hentry, hnamed, haddr]
  cases f.entryFault s with
  | some e => exact .inl ⟨e, rfl, rfl⟩
  | none =>
    cases f.named s with
    | false => exact .inr (.inl ⟨_, rfl, rfl⟩)
    | true =>
      cases f.addr16 s with
      | true => exact .inr (.inl ⟨_, rfl, rfl⟩)
      | false =>
        rcases Form.thirdSource_withV hv with ⟨e, hs, hu⟩ | ⟨a, b, hs, hu, hab⟩
        · rw [hs, hu]
          exact .inl ⟨e, rfl, rfl⟩
        · rw [hs, hu]
          have hlanes : f.lanes { s with v := v' } b = f.lanes s a :=
            Form.lanes_congr (fun _ _ => rfl) (fun r j hj => Form.laneOf_readV_withV hv r hj) hab rfl rfl rfl rfl rfl
          refine .inr (.inr ⟨f.lanes s a, rfl, ?_⟩)
          simp only [hlanes]
          rfl

end otherV

/-- Settles O43: registers that agree on a form's lanes give one run up to its finish, which reads `MXCSR` and `CR4`
alone; and the completed destination holds 0 above those lanes. -/
theorem upperBitsNeverRead : Obligations.UpperBitsNeverRead := by
  intro i s v' hv
  rw [exec_eq_run, exec_eq_run]
  refine ⟨fun t h => ⟨fun j hj h8 => ?_, ?_⟩, fun e t h => ?_⟩
  · obtain ⟨s3, _, hn, _, rfl, _⟩ := Form.run_next h
    rw [Form.laneOf_complete hn s3 _ h8, if_neg (by omega)]
  · rcases Form.run_withV hv with ⟨e, hs, _⟩ | ⟨r, hs, _⟩ | ⟨ls, hs, hu⟩
    · rw [hs] at h
      cases h
    · rw [hs] at h
      cases h
    · rcases Form.finish_agree (formOf i) (s := s) (u := { s with v := v' }) rfl rfl ls with
        ⟨fl, hfs, hfu⟩ | ⟨e, fl, hfs, hfu⟩
      · rw [hs, hfs] at h
        cases h
        refine ⟨_, hu.trans hfu, ?_, rfl, rfl⟩
        rw [Form.readV_complete, Form.readV_complete]
      · rw [hs, hfs] at h
        cases h
  · rcases Form.run_withV hv with ⟨e', hs, hu⟩ | ⟨r, hs, _⟩ | ⟨ls, hs, hu⟩
    · rw [hs] at h
      cases h
      exact hu
    · rw [hs] at h
      cases h
    · rcases Form.finish_agree (formOf i) (s := s) (u := { s with v := v' }) rfl rfl ls with
        ⟨fl, hfs, hfu⟩ | ⟨e', fl, hfs, hfu⟩
      · rw [hs, hfs] at h
        cases h
      · rw [hs, hfs] at h
        cases h
        exact hu.trans hfu

end Sys2Proof.Machine
end

section
/-! Placing an instruction in the program text (20_memory.md R44, R60). -/

namespace Sys2Proof.Machine

/-- An encoding fits the address space, over which a placement wraps (R85). -/
theorem encode_length_le {i : Instr} (hw : i.wellFormed = true) : (encode i).length ≤ 2 ^ 64 := by
  have hlen := (wellFormed_checks hw).1
  rw [encode_length]
  omega

/-- Settles O12: what is placed at `pc` is fetched first and decodes to the instruction, and loading bytes leaves
every other address alone. -/
theorem stepRunsPlacedInstruction : Obligations.StepRunsPlacedInstruction := by
  intro s i hw h32 hwf
  refine ⟨?_, fun x hx => ?_⟩
  · obtain ⟨rest, hfetch⟩ := State.fetch_placeAtPc s (encode i) hwf (encode_length_le hw)
    exact step_of_fetch h32 hw hfetch
  · rw [State.placeAtPc_text]
    exact Memory.read_load_other _ _ _ fun j hj => hx j (encode_length i ▸ hj)

end Sys2Proof.Machine
end

section
/-! The address of a memory operand: its linear address (20_memory.md R42, R43) and its effective address as an integer
(30_encoding.md R75 to R80). -/

namespace Sys2Proof.Machine

/-! ## The linear address -/

theorem State.wrap_of_not32 {s : State} (h : s.is32 = false) (a : Word) : s.wrap a = a := by
  simp [State.wrap, h]

/-- In a 32-bit mode an address wraps at 2^32 (R42). -/
theorem State.toNat_wrap_of_is32 {s : State} (h : s.is32 = true) (a : Word) : (s.wrap a).toNat = a.toNat % 2 ^ 32 := by
  rw [State.wrap, if_pos h, BitVec.toNat_setWidth_of_le (by decide), BitVec.toNat_setWidth]

/-- In 64-bit mode only FS and GS have a base (R43). -/
theorem State.toNat_segBase_of_not32 {s : State} (h : s.is32 = false) (seg : SegReg) :
    (s.segBase seg).toNat = if seg = .fs then s.fsBase.toNat else if seg = .gs then s.gsBase.toNat else 0 := by
  cases seg <;> simp [State.segBase, h]

/-- In a 32-bit mode the base is that of the segment's descriptor (R43). -/
theorem State.toNat_segBase_of_is32 {s : State} (h : s.is32 = true) (seg : SegReg) :
    (s.segBase seg).toNat = (s.segs.get seg).base.toNat := by
  unfold State.segBase
  rw [if_pos h, BitVec.toNat_setWidth_of_le (by decide)]

/-- Settles O35: the sum of base, effective address and byte number, in 64 bits, then wrapped as the mode says. -/
theorem linearAddressOfOperand : Obligations.LinearAddressOfOperand := by
  intro s seg ea j
  have hsum : (s.segBase seg + ea + BitVec.ofNat 64 j).toNat = ((s.segBase seg).toNat + ea.toNat + j) % 2 ^ 64 := by
    simp only [BitVec.toNat_add, BitVec.toNat_ofNat, Nat.add_mod_mod, Nat.mod_add_mod]
  refine ⟨fun h => ?_, fun h => ?_⟩
  · rw [State.linAddr, State.wrap_of_not32 h, hsum, State.toNat_segBase_of_not32 h]
  · rw [State.linAddr, State.toNat_wrap_of_is32 h, hsum, State.toNat_segBase_of_is32 h,
      Nat.mod_mod_of_dvd _ (by decide)]

/-! ## The effective address -/

/-- A displacement is its signed number modulo 2^64 (R78, R79). -/
theorem dispValue_eq_ofInt (n : Nat) (d : Disp) : dispValue n d = BitVec.ofInt 64 (dispInt n d) := by
  cases d with
  | none => rfl
  | disp8 d => rw [dispValue, dispInt, BitVec.ofInt_mul, BitVec.ofInt_natCast]; rfl
  | disp32 d => rfl

/-- The index as a number, times 1, 2, 4 or 8; index 0100 is none (R76). -/
def indexInt (s : State) (scale : BitVec 2) (index : BitVec 4) : Int :=
  if index = 4#4 then 0 else (s.readG index).toNat * 2 ^ scale.toNat

/-- The scaled index is that number modulo 2^64 (R76). -/
theorem indexValue_eq_ofInt (s : State) (scale : BitVec 2) (index : BitVec 4) :
    indexValue s scale index = BitVec.ofInt 64 (indexInt s scale index) := by
  unfold indexValue indexInt
  split
  · rfl
  · apply BitVec.eq_of_toNat_eq
    rw [BitVec.toNat_shiftLeft, Nat.shiftLeft_eq]
    norm_cast

/-- A word is its number modulo 2^64. -/
theorem ofInt_toNat (x : Word) : BitVec.ofInt 64 x.toNat = x := by
  rw [BitVec.ofInt_natCast, BitVec.ofNat_toNat, BitVec.setWidth_eq]

/-- The address size is 32 bits in a 32-bit mode and under `67H` (R80, R81). -/
theorem addr32_iff (s : State) (pfx : List LegacyPrefix) :
    addr32 s pfx = true ↔ s.is32 = true ∨ LegacyPrefix.addrSize ∈ pfx := by
  rw [addr32, Bool.or_eq_true, List.contains_iff_mem]

/-- A sum taken modulo 2^64 gives the effective address as the sum modulo 2^64 or 2^32 (R58, R80). -/
theorem toNat_effAddr {s : State} {pfx : List LegacyPrefix} {next : Word} {n : Nat} {a : MemAddr} {sum : Int}
    (h : addrSum s next n a = BitVec.ofInt 64 sum) :
    ((effAddr s pfx next n a).toNat : Int) =
      sum % (if s.is32 = true ∨ LegacyPrefix.addrSize ∈ pfx then 2 ^ 32 else 2 ^ 64) := by
  have h64 : ((addrSum s next n a).toNat : Int) = sum % 2 ^ 64 := by
    rw [h, BitVec.toNat_ofInt, Int.toNat_of_nonneg (Int.emod_nonneg _ (by decide))]
    rfl
  unfold effAddr
  simp only [← addr32_iff]
  split
  · rw [BitVec.toNat_setWidth_of_le (by decide), BitVec.toNat_setWidth, Int.natCast_emod, h64]
    exact Int.emod_emod_of_dvd _ (by decide)
  · exact h64

/-- Settles O37: each addend is its integer modulo 2^64, addition keeps this, and the address size cuts the sum. -/
theorem effectiveAddressSum : Obligations.EffectiveAddressSum := by
  intro i s a bcst n index sum
  refine toNat_effAddr ?_
  cases a with
  | base b d => simp only [addrSum, sum, BitVec.ofInt_add, ofInt_toNat, dispValue_eq_ofInt, n]
  | sib sc x b d =>
    simp only [addrSum, sum, BitVec.ofInt_add, ofInt_toNat, dispValue_eq_ofInt, indexValue_eq_ofInt, n]
    rfl
  | sibNoBase sc x d =>
    simp only [addrSum, sum, BitVec.ofInt_add, indexValue_eq_ofInt]
    rfl
  | ripRel d =>
    cases h32 : s.is32 with
    | true => simp only [addrSum, sum, h32, if_true]; rfl
    | false =>
      simp only [addrSum, sum, h32, State.pcAfter, State.wrap_of_not32 h32, BitVec.ofInt_add, ofInt_toNat,
        formOf_bytes, Bool.false_eq_true, if_false]
      rw [BitVec.ofInt_natCast]
      rfl

end Sys2Proof.Machine
end

section
/-! Operand 3 in memory (20_memory.md R44 to R52, 60_exceptions.md R165 to R173): what it reads as, which of its checks
answers, and the fault in which the instruction then ends. -/

namespace Sys2Proof.Machine

/-! ## The value of operand 3 (R45, R142) -/

/-- Byte `k` of lane `j` is byte `8j + k` of the vector (R9, R44). -/
theorem laneOf_byte (x : VReg) (j : Nat) {k : Nat} (hk : k < 8) :
    (laneOf x j).extractLsb' (8 * k) 8 = x.extractLsb' (8 * (8 * j + k)) 8 := by
  apply BitVec.eq_of_getLsbD_eq
  intro i hi
  rw [BitVec.getLsbD_extractLsb', BitVec.getLsbD_extractLsb', laneOf_getLsbD,
    show 64 * j + (8 * k + i) = 8 * (8 * j + k) + i by omega]
  simp only [show 8 * k + i < 64 by omega, decide_true, Bool.true_and]

/-- A broadcast gives every lane of the form the element (R142). -/
theorem laneOf_broadcast (l : VecLen) (x : Lane) {j : Nat} (hj : j < lanesOf l) :
    laneOf (packLanes (List.replicate (lanesOf l) x)) j = x := by
  rw [laneOf_packLanes _ (Nat.lt_of_lt_of_le hj (lanesOf_le l)), List.getD_replicate _ hj]

/-- A full-width operand 3 is its memory read (R142). -/
theorem Form.thirdSource_full {f : Form} {a : MemAddr} (s : State) (h : f.src3 = .mem a false) :
    f.thirdSource s = s.memRead (operandSeg s f.pfx a) (f.effAddr s a false) (bytesOf f.vl) (f.needsByte s) := by
  rw [Form.thirdSource, h]

/-- A broadcast operand 3 that can be read is the element in every lane (R142). -/
theorem Form.thirdSource_broadcast {f : Form} {s : State} {a : MemAddr} {s3 : VReg} (h : f.src3 = .mem a true)
    (ho : f.thirdSource s = .ok s3) :
    ∃ e, s.memRead (operandSeg s f.pfx a) (f.effAddr s a true) 8 (fun _ => f.needsElement s) = .ok e ∧
      s3 = packLanes (List.replicate (lanesOf f.vl) (laneOf e 0)) := by
  rw [Form.thirdSource, h] at ho
  cases hr : s.memRead (operandSeg s f.pfx a) (f.effAddr s a true) 8 (fun _ => f.needsElement s) with
  | error e => simp only [hr] at ho; cases ho
  | ok e => simp only [hr] at ho; cases ho; exact ⟨e, rfl, rfl⟩

/-- Settles O28: the read gives each accessed byte its value, and lane `j` holds the bytes from `8j` on. -/
theorem thirdOperandValue : Obligations.ThirdOperandValue := by
  intro i s s3 ho
  refine ⟨fun r hr => ?_, fun r rc hr => ?_, fun a ha j hj k hk hacc => ?_, fun a ha j hj k hk hacc => ?_⟩
  · rw [Form.thirdSource, hr] at ho
    exact (Except.ok.inj ho).symm
  · rw [Form.thirdSource, hr] at ho
    exact (Except.ok.inj ho).symm
  · have hlanes := lanesOf_le (formOf i).vl
    have hneed := ((formOf i).need_iff_accesses s false _).2 hacc
    rw [Form.thirdSource_full s ha] at ho
    rw [laneOf_byte _ _ hk]
    refine State.memRead_byte ho ?_ ?_ hneed <;> rw [bytesOf] <;> omega
  · have hneed := ((formOf i).need_iff_accesses s true _).2 hacc
    obtain ⟨e, hread, rfl⟩ := Form.thirdSource_broadcast ha ho
    rw [laneOf_broadcast _ _ hj, laneOf_byte _ _ hk, Nat.mul_zero, Nat.zero_add]
    exact State.memRead_byte hread (by decide) hk hneed

/-! ## Which check of an operand answers (R173 items 7 to 9) -/

section checks
variable {s : State} {seg : SegReg} {ea : Word} {n j : Nat} {need : Nat → Bool}

/-- A segment fault stands before every other fault of the operand (R173 item 7). -/
theorem State.memFault_of_segment (hj : j < n) (hneed : need j = true) (h : s.segmentOk seg ea j = false) :
    s.memFault seg ea n need = some (segmentFault seg) := by
  rcases s.memFault_cases seg ea n need with ⟨hf, _⟩ | ⟨hok, _⟩
  · exact hf
  · rw [hok j hj hneed] at h
    cases h

/-- Two addresses at each of which, and below which not, the same check answers are one. -/
theorem lowestFault_unique {f : Word → Option Exception} {x y : Word} {e e' : Exception} (hx : f x = some e)
    (hy : f y = some e') (hlx : y.toNat < x.toNat → f y = none) (hly : x.toNat < y.toNat → f x = none) : e = e' := by
  have h1 : ¬y.toNat < x.toNat := fun h => by rw [hlx h] at hy; cases hy
  have h2 : ¬x.toNat < y.toNat := fun h => by rw [hly h] at hx; cases hx
  obtain rfl : x = y := BitVec.eq_of_toNat_eq (by omega)
  exact Option.some.inj (hx.symm.trans hy)

variable (hseg : ∀ l, l < n → need l = true → s.segmentOk seg ea l = true)
include hseg

/-- Where the segment lets every accessed byte through, the platform's fault at the lowest address that has one is the
operand's (R173 item 7, log entry 17). -/
theorem State.memFault_of_platform {e : Exception} (hj : j < n) (hneed : need j = true)
    (h : s.platformFault n (s.linAddr seg ea j) = some e)
    (hlow : ∀ l, l < n → need l = true → (s.linAddr seg ea l).toNat < (s.linAddr seg ea j).toNat →
      s.platformFault n (s.linAddr seg ea l) = none) : s.memFault seg ea n need = some e := by
  rcases s.memFault_cases seg ea n need with
    ⟨_, k, hk, hnk, hbad⟩ | ⟨_, ⟨k, e', hk, hnk, hf, he', hlow'⟩ | ⟨hnone, _⟩⟩
  · rw [hseg k hk hnk] at hbad
    cases hbad
  · rw [hf, lowestFault_unique h he' (hlow k hk hnk) (hlow' j hj hneed)]
  · rw [hnone j hj hneed] at h
    cases h

variable (hplat : ∀ l, l < n → need l = true → s.platformFault n (s.linAddr seg ea l) = none)
include hplat

/-- Where every accessed byte is addressable, the page fault at the lowest address that has one is the operand's
(R170, R173 item 8, decision D8). -/
theorem State.memFault_of_page {e : Exception} (hj : j < n) (hneed : need j = true)
    (h : s.pageFault n (s.linAddr seg ea j) = some e)
    (hlow : ∀ l, l < n → need l = true → (s.linAddr seg ea l).toNat < (s.linAddr seg ea j).toNat →
      s.pageFault n (s.linAddr seg ea l) = none) : s.memFault seg ea n need = some e := by
  rcases s.memFault_cases seg ea n need with ⟨_, k, hk, hnk, hbad⟩ |
    ⟨_, ⟨k, e', hk, hnk, _, hbad, _⟩ | ⟨_, ⟨k, e', hk, hnk, hf, he', hlow'⟩ | ⟨hnone, _⟩⟩⟩
  · rw [hseg k hk hnk] at hbad
    cases hbad
  · rw [hplat k hk hnk] at hbad
    cases hbad
  · rw [hf, lowestFault_unique h he' (hlow k hk hnk) (hlow' j hj hneed)]
  · rw [hnone j hj hneed] at h
    cases h

/-- Where every accessed byte is readable, only the alignment check is left (R171, R173 item 9). -/
theorem State.memFault_of_readable
    (hpage : ∀ l, l < n → need l = true → s.pageFault n (s.linAddr seg ea l) = none) :
    s.memFault seg ea n need = if s.misaligned seg ea n then some .ac else none := by
  rcases s.memFault_cases seg ea n need with ⟨_, k, hk, hnk, hbad⟩ |
    ⟨_, ⟨k, e', hk, hnk, _, hbad, _⟩ | ⟨_, ⟨k, e', hk, hnk, _, hbad, _⟩ | ⟨_, hf⟩⟩⟩
  · rw [hseg k hk hnk] at hbad
    cases hbad
  · rw [hplat k hk hnk] at hbad
    cases hbad
  · rw [hpage k hk hnk] at hbad
    cases hbad
  · exact hf

end checks

/-- Only the alignment check answers `#AC(0)` (R171). -/
theorem State.misaligned_of_memFault {s : State} {seg : SegReg} {ea : Word} {n : Nat} {need : Nat → Bool}
    (h : s.memFault seg ea n need = some .ac) : s.misaligned seg ea n = true := by
  rcases s.memFault_cases seg ea n need with
    ⟨hf, _⟩ | ⟨_, ⟨_, e, _, _, hf, he, _⟩ | ⟨_, ⟨_, e, _, _, hf, he, _⟩ | ⟨_, hf⟩⟩⟩ <;> rw [h] at hf
  · unfold segmentFault at hf
    split at hf <;> cases hf
  · cases hf
    rcases State.platformFault_cases he with h | h <;> cases h
  · cases hf
    obtain ⟨_, _, h⟩ := State.pageFault_cases he
    cases h
  · by_contra hm
    rw [if_neg hm] at hf
    cases hf

/-- When the alignment check applies (R46, R171). -/
theorem State.misaligned_iff (s : State) (seg : SegReg) (ea : Word) (n : Nat) :
    s.misaligned seg ea n = true ↔ s.cfg.alignmentCheck = true ∧ s.cr0.getLsbD 18 = true ∧ s.eflagsAC = true ∧
      s.cpl = 3#2 ∧ (s.linAddr seg ea 0).toNat % n ≠ 0 := by
  simp only [State.misaligned, State.am, Bool.and_eq_true, beq_iff_eq, bne_iff_ne, and_assoc]

/-! ## From the checks to the outcome -/

/-- The checks of the memory operand `a` of a form, on the bytes that it accesses. -/
def Form.operandFault (f : Form) (s : State) (a : MemAddr) (b : Bool) : Option Exception :=
  s.memFault (operandSeg s f.pfx a) (f.effAddr s a b) (f.operandBytes b) (f.need s b)

section operand
variable {i : Instr} {s : State} {a : MemAddr} {b : Bool} (hsrc : (formOf i).src3 = .mem a b)
include hsrc

/-- A memory operand is read unless a check of it answers. -/
theorem thirdSource_isOk_iff : (∃ s3, (formOf i).thirdSource s = .ok s3) ↔ (formOf i).operandFault s a b = none := by
  rcases (formOf i).thirdSource_mem s hsrc with ⟨e, hf, ht⟩ | ⟨hf, ht⟩
  · simp only [Form.operandFault, hf, ht, reduceCtorEq, exists_const]
  · simp only [Form.operandFault, hf, ht]

/-- What the checks of its operand answer is what an enabled instruction raises, in the state as it is. -/
theorem exec_of_operandFault (he : Enabled i s) {e : Exception} (h : (formOf i).operandFault s a b = some e) :
    exec i s = raise e s := by
  rcases run_of_enabled he with ⟨e', ht, hr⟩ | ⟨s3, ht, _⟩
  · obtain ⟨a', b', hsrc', hf⟩ := Form.thirdSource_error ht
    rw [hsrc] at hsrc'
    cases hsrc'
    rw [hr, ← Option.some.inj (h.symm.trans hf)]
  · rw [(thirdSource_isOk_iff hsrc).1 ⟨s3, ht⟩] at h
    cases h

end operand

/-- Settles O29: the checks find nothing exactly when each accessed byte passes all of them. -/
theorem memoryFaultsFollowAccess : Obligations.MemoryFaultsFollowAccess := by
  intro i s a b hsrc hac
  have hmis (seg ea n) : s.misaligned seg ea n = false := by simp only [State.misaligned, hac, Bool.false_and]
  rw [thirdSource_isOk_iff hsrc, Form.operandFault, State.memFault_none_iff]
  simp only [hmis, and_true, Form.need_iff_accesses, Form.operandAddr, Form.byteReadable, Form.byteAddressable, and_assoc]

/-! ## The answers of `cfg.Mem` (R52, R170) -/

theorem State.platformFault_of_gp {s : State} {n : Nat} {x : Word} (h : s.denialAt n x = some .generalProtection) :
    s.platformFault n x = some .gp := by
  rw [State.platformFault, h]

theorem State.platformFault_of_ss {s : State} {n : Nat} {x : Word} (h : s.denialAt n x = some .stackFault) :
    s.platformFault n x = some .ss := by
  rw [State.platformFault, h]

theorem State.pageFault_of_denied {s : State} {n : Nat} {x : Word} {present reserved : Bool}
    (h : s.denialAt n x = some (.pageFault present reserved)) :
    s.pageFault n x = some (.pf (s.pfCode present reserved) x) := by
  rw [State.pageFault, h]

/-- A byte outside the map is not present (R50, R170). -/
theorem State.pageFault_of_unmapped {s : State} {n : Nat} {x : Word} (h : s.denialAt n x = none)
    (hx : Memory.read s.mem x.toNat = none) : s.pageFault n x = some (.pf (s.pfCode false false) x) := by
  simp only [State.pageFault, h, State.unmappedFault, hx]

/-- The error code of R170, bit by bit. -/
theorem State.pfCode_bits (s : State) (present reserved : Bool) :
    (s.pfCode present reserved).getLsbD 0 = present ∧ (s.pfCode present reserved).getLsbD 1 = false ∧
      (s.pfCode present reserved).getLsbD 2 = (s.cpl == 3#2) ∧ (s.pfCode present reserved).getLsbD 3 = reserved ∧
      (s.pfCode present reserved).getLsbD 4 = false := by
  unfold State.pfCode
  generalize s.cpl = cpl
  revert cpl present reserved
  decide

/-- Settles O30: the fault at byte `j` is the lowest of its stage, and no earlier stage answers. -/
theorem memoryFaultReport : Obligations.MemoryFaultReport := by
  intro i s a b j he hsrc hj hacc n addr allAccessed reports
  have hneed := ((formOf i).need_iff_accesses s b j).2 hacc
  have accessed {l} (hn : (formOf i).need s b l = true) : (formOf i).accesses s b l :=
    ((formOf i).need_iff_accesses s b l).1 hn
  refine ⟨fun hseg hlow => ?_, fun haddr hlow => ?_⟩
  · have raises {e} (h : s.platformFault n (addr j) = some e) : exec i s = raise e s := by
      refine exec_of_operandFault hsrc he (State.memFault_of_platform ?_ hj hneed h ?_)
      · exact fun l hl hn => hseg l hl (accessed hn)
      · exact fun l hl hn => hlow l hl (accessed hn)
    exact ⟨fun h => raises (State.platformFault_of_gp h), fun h => raises (State.platformFault_of_ss h)⟩
  · have reported {present reserved}
        (h : s.pageFault n (addr j) = some (.pf (s.pfCode present reserved) (addr j))) : reports present reserved := by
      refine ⟨_, exec_of_operandFault hsrc he (State.memFault_of_page ?_ ?_ hj hneed h ?_), rfl,
        s.pfCode_bits present reserved⟩
      · exact fun l hl hn => (haddr l hl (accessed hn)).1
      · exact fun l hl hn => (haddr l hl (accessed hn)).2
      · exact fun l hl hn hlt => (hlow l hl (accessed hn) hlt).2
    exact ⟨fun _ _ h => reported (State.pageFault_of_denied h),
      fun h hx => reported (State.pageFault_of_unmapped h hx)⟩

/-! ## Canonical addresses (R51) -/

/-- An address that passes the check of R51 has its upper bits all equal. -/
theorem canonicalAddr_of_canonical {w : LinearBits} {x : Word} (h : canonical w x = true) : CanonicalAddr w x := by
  intro b hb hb64
  have hw : w.bits ≤ 64 := by cases w <;> decide
  have hbit : ∀ c, w.bits - 1 ≤ c → x.getLsbD c = (x.toNat >>> (w.bits - 1)).testBit (c - (w.bits - 1)) := by
    intro c hc
    rw [Nat.testBit_shiftRight, Nat.add_sub_cancel' hc]
    rfl
  rw [hbit b hb, hbit 63 (by omega)]
  rcases Bool.or_eq_true_iff.1 h with h0 | h1
  · rw [beq_iff_eq.1 h0, Nat.zero_testBit, Nat.zero_testBit]
  · rw [beq_iff_eq.1 h1, Nat.testBit_two_pow_sub_one, Nat.testBit_two_pow_sub_one, decide_eq_true (by omega),
      decide_eq_true (by omega)]

/-- Settles O31: outside the 32-bit modes the segment check is that of canonical addresses, and it comes first. -/
theorem nonCanonicalOperandFaults : Obligations.NonCanonicalOperandFaults := by
  refine ⟨rfl, rfl, fun i s a b j hmode he hsrc hj hacc hcanon => ?_⟩
  have h32 : s.is32 = false := by rw [State.is32, hmode]
  have hbad : s.segmentOk (operandSeg s (formOf i).pfx a) ((formOf i).effAddr s a b) j = false := by
    rw [State.segmentOk, if_neg (by simp [h32])]
    exact Bool.eq_false_iff.2 fun h => hcanon (canonicalAddr_of_canonical h)
  have hneed := ((formOf i).need_iff_accesses s b j).2 hacc
  exact exec_of_operandFault hsrc he (State.memFault_of_segment hj hneed hbad)

/-! ## The alignment check (R171) -/

/-- The checks before the operands answer `#GP(0)`, `#UD` or `#NM` (R173 items 3 to 6). -/
theorem Form.entryFault_cases {f : Form} {s : State} {e : Exception} (h : f.entryFault s = some e) :
    e = .gp ∨ e = .ud ∨ e = .nm := by
  unfold Form.entryFault at h
  split_ifs at h <;> cases h <;> simp

/-- An `#AC(0)` is the answer of the checks of a memory operand. -/
theorem operandFault_of_exec_ac {i : Instr} {s t : State} (h : exec i s = .fault (.raised .ac t)) :
    ∃ a b, (formOf i).src3 = .mem a b ∧ (formOf i).operandFault s a b = some .ac := by
  rw [exec_eq_run] at h
  rcases Form.run_fault h with ⟨_, hentry | hthird⟩ | ⟨hsimd, _⟩
  · rcases Form.entryFault_cases hentry with h | h | h <;> cases h
  · exact Form.thirdSource_error hthird
  · unfold simdException at hsimd
    split at hsimd <;> cases hsimd

/-- Settles O33: `#AC(0)` comes from the alignment check alone, the last check of a memory operand. -/
theorem alignmentCheckFaults : Obligations.AlignmentCheckFaults := by
  refine ⟨rfl, rfl, rfl, fun i s => ⟨fun t h => ?_, fun a b he hsrc hac hread => ?_⟩⟩
  · obtain ⟨a, b, _, hf⟩ := operandFault_of_exec_ac h
    exact ((State.misaligned_iff _ _ _ _).1 (State.misaligned_of_memFault hf)).1
  · have hreadable l hl hn := hread l hl (((formOf i).need_iff_accesses s b l).1 hn)
    have hfault : (formOf i).operandFault s a b = if s.misaligned _ _ _ then some .ac else none :=
      State.memFault_of_readable (fun l hl hn => (hreadable l hl hn).1.1) (fun l hl hn => (hreadable l hl hn).1.2)
        (fun l hl hn => (hreadable l hl hn).2)
    refine ⟨fun hmis => ?_, fun h => ?_⟩
    · exact exec_of_operandFault hsrc he (hfault.trans (if_pos ((State.misaligned_iff _ _ _ _).2 ⟨hac, hmis⟩)))
    · obtain ⟨a', b', hsrc', hf⟩ := operandFault_of_exec_ac h
      rw [hsrc] at hsrc'
      cases hsrc'
      exact ((State.misaligned_iff _ _ _ _).1 (State.misaligned_of_memFault hf)).2

end Sys2Proof.Machine
end

section
/-! The decoder on any bytes (30_encoding.md R61, R84): what it makes of a run of prefixes, and the verdict on what
follows one. -/

namespace Sys2Proof

open Machine (validPrefixBytes ForbiddenPrefixByte OpcodeByte VexHeader EvexHeader)

/-! ## Prefixes (R61, R84 step 1) -/

theorem legacyPrefixOf_isSome_iff (b : Byte) : (legacyPrefixOf b).isSome = true ↔ b ∈ validPrefixBytes := by
  revert b
  decide

theorem isForbiddenPrefix_iff (b : Byte) : isForbiddenPrefix b = true ↔ ForbiddenPrefixByte b := by
  revert b
  decide

theorem legacyPrefixOf_of_forbidden {b : Byte} (h : ForbiddenPrefixByte b) : legacyPrefixOf b = none := by
  revert b
  decide

/-- The bytes that R61 lets stand first are those of legacy prefixes. -/
theorem exists_prefixes {ps : List Byte} (h : ∀ b ∈ ps, b ∈ validPrefixBytes) :
    ∃ pfx : List LegacyPrefix, ps = pfx.map LegacyPrefix.byte := by
  induction ps with
  | nil => exact ⟨[], rfl⟩
  | cons b ps ih =>
    obtain ⟨hb, hps⟩ := List.forall_mem_cons.1 h
    obtain ⟨p, hp⟩ := Option.isSome_iff_exists.1 ((legacyPrefixOf_isSome_iff b).2 hb)
    obtain ⟨pfx, rfl⟩ := ih hps
    exact ⟨p :: pfx, by rw [List.map_cons, byte_of_legacyPrefixOf hp]⟩

/-- A run of prefixes, valid or forbidden, is consumed; a forbidden one among them is remembered. -/
theorem decodePrefixes_run {ps : List Byte} (h : ∀ b ∈ ps, b ∈ validPrefixBytes ∨ ForbiddenPrefixByte b)
    (bs : List Byte) : ∀ (acc : List LegacyPrefix) (bad : Bool),
      ∃ acc', decodePrefixes acc bad (ps ++ bs) = decodePrefixes acc' (bad || ps.any isForbiddenPrefix) bs := by
  induction ps with
  | nil => exact fun acc bad => ⟨acc, by simp⟩
  | cons b ps ih =>
    intro acc bad
    obtain ⟨hb, hps⟩ := List.forall_mem_cons.1 h
    cases hp : legacyPrefixOf b with
    | some p =>
      have hnot : isForbiddenPrefix b = false := Bool.eq_false_iff.2 fun hf => by
        rw [legacyPrefixOf_of_forbidden ((isForbiddenPrefix_iff b).1 hf)] at hp
        cases hp
      obtain ⟨acc', ih⟩ := ih hps (acc ++ [p]) bad
      refine ⟨acc', ?_⟩
      rw [List.cons_append, decodePrefixes, hp, List.any_cons, hnot, Bool.false_or]
      exact ih
    | none =>
      have hforbidden : isForbiddenPrefix b = true := (isForbiddenPrefix_iff b).2 <| hb.resolve_left fun hv => by
        rw [← legacyPrefixOf_isSome_iff, hp] at hv
        cases hv
      obtain ⟨acc', ih⟩ := ih hps acc true
      refine ⟨acc', ?_⟩
      rw [List.cons_append, decodePrefixes, hp, List.any_cons, hforbidden, Bool.true_or, Bool.or_true]
      simpa only [hforbidden, if_true, Bool.true_or] using ih

/-- A forbidden byte among the prefixes makes a following `C4H` or `62H` `#UD` (R61, R166 (d)). -/
theorem decode_of_forbidden {ps : List Byte} (h : ∀ b ∈ ps, b ∈ validPrefixBytes ∨ ForbiddenPrefixByte b)
    (hbad : ∃ b ∈ ps, ForbiddenPrefixByte b) {escape : Byte} (he : escape = 0xC4#8 ∨ escape = 0x62#8)
    (rest : List Byte) : decode (ps ++ escape :: rest) = .ud := by
  obtain ⟨b, hb, hf⟩ := hbad
  have hany : ps.any isForbiddenPrefix = true := List.any_eq_true.2 ⟨b, hb, (isForbiddenPrefix_iff b).2 hf⟩
  obtain ⟨acc, hrun⟩ := decodePrefixes_run h (escape :: rest) [] false
  rw [decode, hrun, hany, Bool.or_true]
  rcases he with rfl | rfl
  · rw [decodePrefixes_vex, if_pos rfl]
  · rw [decodePrefixes_evex, if_pos rfl]

/-- `C5H` is none of the prefixes of R61, and none of the two bytes that start a form (R64). -/
theorem decodePrefixes_C5 (acc : List LegacyPrefix) (bad : Bool) (rest : List Byte) :
    decodePrefixes acc bad (0xC5#8 :: rest) = .notThisGroup := by
  rw [decodePrefixes, show legacyPrefixOf 0xC5#8 = none by decide, show isForbiddenPrefix 0xC5#8 = false by decide]
  simp

theorem decode_C5 {ps : List Byte} (h : ∀ b ∈ ps, b ∈ validPrefixBytes ∨ ForbiddenPrefixByte b) (rest : List Byte) :
    decode (ps ++ 0xC5#8 :: rest) = .notThisGroup := by
  obtain ⟨acc, hrun⟩ := decodePrefixes_run h (0xC5#8 :: rest) [] false
  rw [decode, hrun, decodePrefixes_C5]

/-! ## Fixed fields (R63, R67, R72) -/

theorem vexHeader_iff (b1 b2 : Byte) : VexHeader b1 b2 ↔
    ¬(b1.extractLsb' 0 5 ≠ 2#5 ∨ b2.extractLsb' 7 1 ≠ 1#1 ∨ b2.extractLsb' 0 2 ≠ 1#2) := by
  have hw : b2.getLsbD 7 = true ↔ b2.extractLsb' 7 1 = 1#1 := by revert b2; decide
  simp only [VexHeader, hw, ne_eq, not_or, not_not]

/-- The reserved bits of the first two payload bytes have the values of R67. -/
theorem evexReserved_iff (p0 p1 : Byte) : p0.extractLsb' 2 2 = 0#2 ∧ p1.getLsbD 2 = true ↔
    ¬(p0.extractLsb' 2 2 ≠ 0#2 ∨ p1.extractLsb' 2 1 ≠ 1#1) := by
  have hp1 : p1.getLsbD 2 = true ↔ p1.extractLsb' 2 1 = 1#1 := by revert p1; decide
  simp only [hp1, ne_eq, not_or, not_not]

theorem evexHeader_iff (p0 p1 : Byte) : EvexHeader p0 p1 ↔
    (p0.extractLsb' 2 2 = 0#2 ∧ p1.getLsbD 2 = true) ∧
      ¬(p0.extractLsb' 0 2 ≠ 2#2 ∨ p1.extractLsb' 7 1 ≠ 1#1 ∨ p1.extractLsb' 0 2 ≠ 1#2) := by
  have hp0 : p0.extractLsb' 0 4 = 2#4 ↔ p0.extractLsb' 2 2 = 0#2 ∧ p0.extractLsb' 0 2 = 2#2 := by revert p0; decide
  have hw : p1.getLsbD 7 = true ↔ p1.extractLsb' 7 1 = 1#1 := by revert p1; decide
  have hpp : p1.extractLsb' 0 3 = 5#3 ↔ p1.getLsbD 2 = true ∧ p1.extractLsb' 0 2 = 1#2 := by revert p1; decide
  simp only [EvexHeader, hp0, hw, hpp, ne_eq, not_or, not_not]
  tauto

theorem mnemOfOpcode_eq_none_iff (op : Byte) : mnemOfOpcode op = none ↔ ¬OpcodeByte op := by
  revert op
  decide

/-- The mnemonic of an opcode byte of the group (R72). -/
theorem mnemOfOpcode_of_opcodeByte {op : Byte} (h : OpcodeByte op) :
    mnemOfOpcode op = some (if op = 0x9C#8 then .f132 else if op = 0xAC#8 then .f213 else .f231) := by
  rcases h with rfl | rfl | rfl <;> rfl

theorem opcode_of_mnemOfOpcode {op : Byte} {m : Mnem} (h : mnemOfOpcode op = some m) : m.opcode = op := by
  revert m
  revert op
  decide

/-! ## Bytes that are not of the group (R84 steps 2 and 3) -/

theorem decodeVex_of_not_header (pfx : List LegacyPrefix) {b1 b2 : Byte} (h : ¬VexHeader b1 b2) (rest : List Byte) :
    decodeVex pfx (b1 :: b2 :: rest) = .notThisGroup :=
  if_pos (not_not.1 (mt (vexHeader_iff b1 b2).2 h))

theorem decodeVex_of_not_opcode (pfx : List LegacyPrefix) (b1 b2 : Byte) {op : Byte} (h : ¬OpcodeByte op)
    (rest : List Byte) : decodeVex pfx (b1 :: b2 :: op :: rest) = .notThisGroup := by
  by_cases hh : VexHeader b1 b2
  · refine (if_neg ((vexHeader_iff b1 b2).1 hh)).trans ?_
    cases rest with
    | nil => rfl
    | cons modrm rest => simp only [(mnemOfOpcode_eq_none_iff op).2 h]
  · exact decodeVex_of_not_header pfx hh _

/-- Reserved bits come first (R87). -/
theorem decodeEvex_of_reserved (pfx : List LegacyPrefix) {p0 p1 : Byte}
    (h : ¬(p0.extractLsb' 2 2 = 0#2 ∧ p1.getLsbD 2 = true)) (p2 : Byte) (rest : List Byte) :
    decodeEvex pfx (p0 :: p1 :: p2 :: rest) = .ud :=
  if_pos (not_not.1 (mt (evexReserved_iff p0 p1).2 h))

theorem decodeEvex_of_not_header (pfx : List LegacyPrefix) {p0 p1 : Byte}
    (hr : p0.extractLsb' 2 2 = 0#2 ∧ p1.getLsbD 2 = true) (h : ¬EvexHeader p0 p1) (p2 : Byte) (rest : List Byte) :
    decodeEvex pfx (p0 :: p1 :: p2 :: rest) = .notThisGroup := by
  have hother := not_not.1 fun hn => h ((evexHeader_iff p0 p1).2 ⟨hr, hn⟩)
  exact (if_neg ((evexReserved_iff p0 p1).1 hr)).trans (if_pos hother)

/-- Behind the fixed fields of R67 comes the opcode byte, then the body of the form. -/
theorem decodeEvex_of_header (pfx : List LegacyPrefix) {p0 p1 : Byte} (h : EvexHeader p0 p1) (p2 : Byte) {op : Byte}
    {m : Mnem} (hm : mnemOfOpcode op = some m) (modrm : Byte) (rest : List Byte) :
    decodeEvex pfx (p0 :: p1 :: p2 :: op :: modrm :: rest) = decodeEvexBody pfx p0 p1 p2 m modrm rest := by
  obtain ⟨hr, hh⟩ := (evexHeader_iff p0 p1).1 h
  refine (if_neg ((evexReserved_iff p0 p1).1 hr)).trans ((if_neg hh).trans ?_)
  simp only [hm]

theorem decodeEvex_of_not_opcode (pfx : List LegacyPrefix) {p0 p1 : Byte} (h : EvexHeader p0 p1) (p2 : Byte)
    {op : Byte} (ho : ¬OpcodeByte op) (rest : List Byte) :
    decodeEvex pfx (p0 :: p1 :: p2 :: op :: rest) = .notThisGroup := by
  obtain ⟨hr, hh⟩ := (evexHeader_iff p0 p1).1 h
  refine (if_neg ((evexReserved_iff p0 p1).1 hr)).trans ((if_neg hh).trans ?_)
  cases rest with
  | nil => rfl
  | cons modrm rest => simp only [(mnemOfOpcode_eq_none_iff op).2 ho]

end Sys2Proof

namespace Sys2Proof.Machine

/-- Outside the 32-bit modes a step is what the decoder's verdict says (R84). -/
theorem step_of_decode {s : State} {v : Verdict} (h32 : s.is32 = false) (h : decode s.fetch = v) :
    step s = runVerdict s v := by
  rw [step, if_neg (by simp [h32]), h]

/-- Settles O1: `decode_encode` reads each row back, operand 3 by operand 3. -/
theorem decodeInvertsEncode : Obligations.DecodeInvertsEncode := fun _ rest hw => decode_encode hw rest

/-- Settles O3: a forbidden byte is remembered over the other prefixes, and the verdict `#UD` is raised. -/
theorem forbiddenPrefixIsUndefined : Obligations.ForbiddenPrefixIsUndefined := by
  intro ps escape rest s hps hbad he h32 hf
  have hud : decode s.fetch = .ud := by rw [hf, decode_of_forbidden hps hbad he]
  exact ⟨hud, step_of_decode h32 hud⟩

/-- Settles O5: `C5H` ends the prefixes and starts no form; an encoding that starts so would decode to its form. -/
theorem twoByteVexEncodesNoForm : Obligations.TwoByteVexEncodesNoForm := by
  intro ps rest hps
  refine ⟨decode_C5 hps rest, fun i hw he => ?_⟩
  have hdecode := decode_encode hw []
  rw [List.append_nil, he, decode_C5 hps] at hdecode
  cases hdecode

/-- Settles O6: each clause is a fixed field, or the opcode byte, of one of the two prefixes. -/
theorem otherEncodingsAreNotTheGroup : Obligations.OtherEncodingsAreNotTheGroup := by
  intro ps hps
  obtain ⟨pfx, rfl⟩ := exists_prefixes hps
  refine ⟨fun b1 b2 rest hh => ?_, fun b1 b2 op rest ho => ?_, fun p0 p1 p2 rest h0 h1 hh => ?_,
    fun p0 p1 p2 op rest hh ho => ?_⟩
  · rw [decode_vex, decodeVex_of_not_header pfx hh]
  · rw [decode_vex, decodeVex_of_not_opcode pfx b1 b2 ho]
  · rw [decode_evex, decodeEvex_of_not_header pfx ⟨h0, h1⟩ hh]
  · rw [decode_evex, decodeEvex_of_not_opcode pfx hh p2 ho]

/-- Settles O11: the verdict on the bytes at `pc` is the instruction. -/
theorem stepRunsDecodedInstruction : Obligations.StepRunsDecodedInstruction :=
  fun _ _ _ h32 h => step_of_decode h32 h

end Sys2Proof.Machine
end

section
/-! The forms that the decoder reads (30_encoding.md R65 to R79, R84 steps 3 to 7), from the fields of their bytes:
operand 3 first, then the row. -/

namespace Sys2Proof

open Machine (formOf vexForm evexForm512 VexHeader EvexHeader)

/-! ## VEX forms -/

/-- The operands of a VEX form from its payload bytes and ModRM, around a given operand 3 (R65). -/
def vexFields (pfx : List LegacyPrefix) (b1 b2 modrm : Byte) (src : VexSrc) : VexOps :=
  ⟨pfx, (~~~ b1.extractLsb' 7 1) ++ modrm.extractLsb' 3 3, ~~~ b2.extractLsb' 3 4, src⟩

/-- Operand 3 of a VEX form: `B̄` and `rm` of a register form, or the memory operand after ModRM (R65, R75). -/
def takeVexSrc (b1 modrm : Byte) (bs : List Byte) : Option (VexSrc × List Byte) :=
  if modrm.extractLsb' 6 2 = 3#2 then some (.reg ((~~~ b1.extractLsb' 5 1) ++ modrm.extractLsb' 0 3), bs)
  else (takeMem (modrm.extractLsb' 6 2) (modrm.extractLsb' 0 3) (~~~ b1.extractLsb' 5 1) (~~~ b1.extractLsb' 6 1) bs).map
    fun (a, rest) => (.mem a, rest)

/-- Behind the fixed fields and the opcode byte the decoder reads operand 3, then checks the length (R84 steps 3, 4). -/
theorem decodeVex_eq (pfx : List LegacyPrefix) {b1 b2 op : Byte} {m : Mnem} (hh : VexHeader b1 b2)
    (hm : mnemOfOpcode op = some m) (modrm : Byte) (bs : List Byte) :
    decodeVex pfx (b1 :: b2 :: op :: modrm :: bs) = (takeVexSrc b1 modrm bs).elim .notThisGroup fun t =>
      formOrGp (vexInstr m (b2.extractLsb' 2 1) (vexFields pfx b1 b2 modrm t.1)) t.2 := by
  refine (if_neg ((vexHeader_iff b1 b2).1 hh)).trans ?_
  simp only [hm]
  unfold takeVexSrc
  by_cases hmod : modrm.extractLsb' 6 2 = 3#2
  · rw [if_pos hmod, if_pos hmod]
    rfl
  · rw [if_neg hmod, if_neg hmod]
    cases takeMem (modrm.extractLsb' 6 2) (modrm.extractLsb' 0 3) (~~~ b1.extractLsb' 5 1) (~~~ b1.extractLsb' 6 1) bs <;>
      rfl

/-- A form that is not overlong (R85). -/
theorem formOrGp_eq_form {i i' : Instr} {rest rest' : List Byte} (h : formOrGp i rest = .form i' rest') :
    i' = i ∧ rest = rest' ∧ i.len ≤ 15 := by
  unfold formOrGp at h
  split_ifs at h with hlen
  cases h
  exact ⟨rfl, rfl, Nat.le_of_not_lt hlen⟩

/-- A VEX form comes from the fixed fields, an opcode byte and an operand 3, within 15 bytes (R84 steps 2 to 4). -/
theorem decodeVex_eq_form {pfx : List LegacyPrefix} {bs rest : List Byte} {i : Instr}
    (h : decodeVex pfx bs = .form i rest) : ∃ b1 b2 op modrm bs' m src, bs = b1 :: b2 :: op :: modrm :: bs' ∧
      VexHeader b1 b2 ∧ mnemOfOpcode op = some m ∧ takeVexSrc b1 modrm bs' = some (src, rest) ∧
      i = vexInstr m (b2.extractLsb' 2 1) (vexFields pfx b1 b2 modrm src) ∧ i.len ≤ 15 := by
  match bs, h with
  | [], h => cases h
  | [_], h => cases h
  | [b1, b2], h => simp only [decodeVex] at h; split_ifs at h
  | [b1, b2, op], h => simp only [decodeVex] at h; split_ifs at h
  | b1 :: b2 :: op :: modrm :: bs', h =>
    by_cases hh : VexHeader b1 b2
    case neg => rw [decodeVex_of_not_header pfx hh] at h; cases h
    cases hm : mnemOfOpcode op with
    | none => rw [decodeVex_of_not_opcode pfx b1 b2 ((mnemOfOpcode_eq_none_iff op).1 hm)] at h; cases h
    | some m =>
      rw [decodeVex_eq pfx hh hm] at h
      cases hs : takeVexSrc b1 modrm bs' with
      | none => rw [hs] at h; cases h
      | some t =>
        rw [hs] at h
        obtain ⟨rfl, rfl, hlen⟩ := formOrGp_eq_form h
        exact ⟨b1, b2, op, modrm, bs', m, t.1, rfl, hh, hm, hs, rfl, hlen⟩

theorem bit_cases (l : BitVec 1) : l = 0#1 ∨ l = 1#1 := by revert l; decide

/-- The form of a VEX row (R86). -/
theorem formOf_vexInstr (m : Mnem) (l : BitVec 1) (o : VexOps) :
    formOf (vexInstr m l o) = vexForm m (if l = 0#1 then .v128 else .v256) o := by
  rcases bit_cases l with rfl | rfl <;> cases m <;> rfl

theorem wellFormed_vexInstr (m : Mnem) (l : BitVec 1) (o : VexOps) : (vexInstr m l o).wellFormed = o.wellFormed := by
  rcases bit_cases l with rfl | rfl <;> cases m <;> rfl

/-! ## EVEX forms -/

/-- The operands of an EVEX form from its payload bytes and ModRM, around a given operand 3 (R68, R71). -/
def evexFields (pfx : List LegacyPrefix) (p0 p1 p2 modrm : Byte) (src : EvexSrc512) : EvexOps EvexSrc512 :=
  ⟨pfx, (~~~ p0.extractLsb' 4 1) ++ (~~~ p0.extractLsb' 7 1) ++ modrm.extractLsb' 3 3,
    (~~~ p2.extractLsb' 3 1) ++ (~~~ p1.extractLsb' 3 4), p2.extractLsb' 0 3, p2.getLsbD 7, src⟩

/-- Operand 3 of an EVEX form: a register, with `EVEX.b` under embedded rounding, or the memory operand after ModRM,
with `EVEX.b` broadcast (R68, R70, R75). -/
def takeEvexSrc (p0 p2 modrm : Byte) (bs : List Byte) : Option (EvexSrc512 × List Byte) :=
  if modrm.extractLsb' 6 2 = 3#2 then
    let r := (~~~ p0.extractLsb' 6 1) ++ (~~~ p0.extractLsb' 5 1) ++ modrm.extractLsb' 0 3
    some (if p2.getLsbD 4 then .regRound r (.ofCode (p2.extractLsb' 5 2)) else .reg r, bs)
  else (takeMem (modrm.extractLsb' 6 2) (modrm.extractLsb' 0 3) (~~~ p0.extractLsb' 5 1) (~~~ p0.extractLsb' 6 1) bs).map
    fun (a, rest) => (.mem a (p2.getLsbD 4), rest)

/-- The same operands around another operand 3. -/
def EvexOps.withSrc {σ τ : Type} (o : EvexOps σ) (src : τ) : EvexOps τ :=
  ⟨o.pfx, o.dest, o.src2, o.mask, o.zeroing, src⟩

/-- The row of an EVEX form whose operand 3 does not take `L'L` for itself (R69). -/
def evexRowOfLength (m : Mnem) (ll : BitVec 2) (o : EvexOps EvexSrc) (o512 : EvexOps EvexSrc512) : Option Instr :=
  if ll = 0#2 then some (evexInstr128 m o)
  else if ll = 1#2 then some (evexInstr256 m o)
  else if ll = 2#2 then some (evexInstr512 m o512)
  else none

/-- The row of an EVEX form: 512 bits under embedded rounding, else that of the length `L'L`, if it is one (R69, R86). -/
def evexRow (m : Mnem) (ll : BitVec 2) (o : EvexOps EvexSrc512) : Option Instr :=
  match o.src3 with
  | .regRound _ _ => some (evexInstr512 m o)
  | .reg r => evexRowOfLength m ll (o.withSrc (.reg r)) o
  | .mem a bcst => evexRowOfLength m ll (o.withSrc (.mem a bcst)) o

/-- R84 steps 4 and 5: the length, zeroing without a mask, then the row or `#UD` for `L'L` = 11. -/
def evexVerdict (m : Mnem) (ll : BitVec 2) (o : EvexOps EvexSrc512) (rest : List Byte) : Verdict :=
  if 15 < o.lenWith EvexSrc512.len then .gp
  else if o.zeroing = true ∧ o.mask = 0#3 then .ud
  else (evexRow m ll o).elim .ud fun i => .form i rest

theorem evexByLength_eq (m : Mnem) (ll : BitVec 2) (o : EvexOps EvexSrc) (o512 : EvexOps EvexSrc512)
    (rest : List Byte) : evexByLength m ll o o512 rest = (evexRowOfLength m ll o o512).elim .ud fun i => .form i rest := by
  unfold evexByLength evexRowOfLength
  split_ifs <;> rfl

/-- The decoder reads operand 3 of an EVEX form, then makes its checks and picks the row (R84 steps 3 to 5). -/
theorem decodeEvexBody_eq (pfx : List LegacyPrefix) (p0 p1 p2 : Byte) (m : Mnem) (modrm : Byte) (bs : List Byte) :
    decodeEvexBody pfx p0 p1 p2 m modrm bs = (takeEvexSrc p0 p2 modrm bs).elim .notThisGroup fun t =>
      evexVerdict m (p2.extractLsb' 5 2) (evexFields pfx p0 p1 p2 modrm t.1) t.2 := by
  unfold decodeEvexBody takeEvexSrc
  simp only [evexByLength_eq]
  by_cases hmod : modrm.extractLsb' 6 2 = 3#2
  · rw [if_pos hmod, if_pos hmod]
    cases p2.getLsbD 4 <;> rfl
  · rw [if_neg hmod, if_neg hmod]
    cases takeMem (modrm.extractLsb' 6 2) (modrm.extractLsb' 0 3) (~~~ p0.extractLsb' 5 1) (~~~ p0.extractLsb' 6 1) bs <;>
      rfl

/-- A row that the checks let pass (R84 steps 4 and 5). -/
theorem evexVerdict_eq_form {m : Mnem} {ll : BitVec 2} {o : EvexOps EvexSrc512} {i : Instr} {rest rest' : List Byte}
    (h : evexVerdict m ll o rest = .form i rest') : evexRow m ll o = some i ∧ rest = rest' ∧
      o.lenWith EvexSrc512.len ≤ 15 ∧ ¬(o.zeroing = true ∧ o.mask = 0#3) := by
  unfold evexVerdict at h
  split_ifs at h with hlen hz
  cases hrow : evexRow m ll o with
  | none => rw [hrow] at h; cases h
  | some i' =>
    rw [hrow] at h
    cases h
    exact ⟨rfl, rfl, Nat.le_of_not_lt hlen, hz⟩

/-- An EVEX form comes from the fixed fields, an opcode byte and an operand 3, within 15 bytes and without zeroing
alone, and is the row of its length (R84 steps 2 to 5). -/
theorem decodeEvex_eq_form {pfx : List LegacyPrefix} {bs rest : List Byte} {i : Instr}
    (h : decodeEvex pfx bs = .form i rest) : ∃ p0 p1 p2 op modrm bs' m src,
      bs = p0 :: p1 :: p2 :: op :: modrm :: bs' ∧ EvexHeader p0 p1 ∧ mnemOfOpcode op = some m ∧
      takeEvexSrc p0 p2 modrm bs' = some (src, rest) ∧
      evexRow m (p2.extractLsb' 5 2) (evexFields pfx p0 p1 p2 modrm src) = some i ∧
      pfx.length + 6 + src.len ≤ 15 ∧ ¬(p2.getLsbD 7 = true ∧ p2.extractLsb' 0 3 = 0#3) := by
  match bs, h with
  | [], h => cases h
  | [_], h => cases h
  | [_, _], h => cases h
  | [p0, p1, p2], h => simp only [decodeEvex] at h; split_ifs at h
  | [p0, p1, p2, op], h => simp only [decodeEvex] at h; split_ifs at h
  | p0 :: p1 :: p2 :: op :: modrm :: bs', h =>
    by_cases hr : p0.extractLsb' 2 2 = 0#2 ∧ p1.getLsbD 2 = true
    case neg => rw [decodeEvex_of_reserved pfx hr] at h; cases h
    by_cases hh : EvexHeader p0 p1
    case neg => rw [decodeEvex_of_not_header pfx hr hh] at h; cases h
    cases hm : mnemOfOpcode op with
    | none => rw [decodeEvex_of_not_opcode pfx hh p2 ((mnemOfOpcode_eq_none_iff op).1 hm)] at h; cases h
    | some m =>
      rw [decodeEvex_of_header pfx hh p2 hm, decodeEvexBody_eq] at h
      cases hs : takeEvexSrc p0 p2 modrm bs' with
      | none => rw [hs] at h; cases h
      | some t =>
        rw [hs] at h
        obtain ⟨hrow, rfl, hlen, hz⟩ := evexVerdict_eq_form h
        exact ⟨p0, p1, p2, op, modrm, bs', m, t.1, rfl, hh, hm, hs, hrow, hlen, hz⟩

/-! ## The rows of EVEX -/

/-- Operand 3 is a register under embedded rounding. -/
def EvexSrc512.rounds : EvexSrc512 → Bool
  | .reg _ => false
  | .regRound _ _ => true
  | .mem _ _ => false

/-- The vector length of a row, where there is one (R69). -/
def evexVecLen (ll : BitVec 2) (src : EvexSrc512) : VecLen :=
  if src.rounds then .v512 else if ll = 0#2 then .v128 else if ll = 1#2 then .v256 else .v512

/-- What operand 3 contributes to the encoding of a row, under the `L'L` of its length (R66 to R70). -/
def EvexSrc512.rmWith (ll : BitVec 2) : EvexSrc512 → EvexRm
  | .reg r => evexRegRm r 0#1 ll
  | .regRound r rc => evexRegRm r 1#1 rc.code
  | .mem a bcst => evexMemRm a bcst ll

theorem lengthCode_cases (ll : BitVec 2) : ll = 0#2 ∨ ll = 1#2 ∨ ll = 2#2 ∨ ll = 3#2 := by revert ll; decide

/-- The length code 11 is the only one without a row, and only outside embedded rounding (R69). -/
theorem evexRow_eq_none_iff (m : Mnem) (ll : BitVec 2) (o : EvexOps EvexSrc512) :
    evexRow m ll o = none ↔ ll = 3#2 ∧ o.src3.rounds = false := by
  have hlength (o' : EvexOps EvexSrc) : evexRowOfLength m ll o' o = none ↔ ll = 3#2 := by
    rcases lengthCode_cases ll with rfl | rfl | rfl | rfl <;> simp [evexRowOfLength]
  unfold evexRow
  cases o.src3 with
  | reg r => simp [EvexSrc512.rounds, hlength]
  | regRound r rc => simp [EvexSrc512.rounds]
  | mem a bcst => simp [EvexSrc512.rounds, hlength]

/-- What the rows of EVEX have in common. -/
structure EvexRowOf (m : Mnem) (ll : BitVec 2) (o : EvexOps EvexSrc512) (i : Instr) : Prop where
  form : formOf i = { evexForm512 m o with vl := evexVecLen ll o.src3 }
  wellFormed : i.wellFormed = o.wellFormedWith EvexSrc512.len EvexSrc512.wellFormed
  encode : encode i = encodeEvex m o (o.src3.rmWith ll)

theorem evexRowOf_of_evexRow {m : Mnem} {ll : BitVec 2} {o : EvexOps EvexSrc512} {i : Instr}
    (h : evexRow m ll o = some i) : EvexRowOf m ll o i := by
  obtain ⟨pfx, d, s2, k, z, src⟩ := o
  cases src with
  | regRound r rc =>
    cases h
    cases m <;> exact ⟨rfl, rfl, rfl⟩
  | reg r => rcases lengthCode_cases ll with rfl | rfl | rfl | rfl <;> cases h <;> cases m <;> exact ⟨rfl, rfl, rfl⟩
  | mem a bcst => rcases lengthCode_cases ll with rfl | rfl | rfl | rfl <;> cases h <;> cases m <;> exact ⟨rfl, rfl, rfl⟩

/-- The fifteen constructors are the rows of VEX and of EVEX (R86). -/
theorem instr_eq_row (i : Instr) : (∃ m l o, i = vexInstr m l o) ∨ ∃ m ll o, evexRow m ll o = some i := by
  have lengthRow (m : Mnem) (o : EvexOps EvexSrc) : (∃ o512, evexRow m 0#2 o512 = some (evexInstr128 m o)) ∧
      ∃ o512, evexRow m 1#2 o512 = some (evexInstr256 m o) := by
    obtain ⟨pfx, d, s2, k, z, src⟩ := o
    cases src with
    | reg r => exact ⟨⟨⟨pfx, d, s2, k, z, .reg r⟩, rfl⟩, ⟨pfx, d, s2, k, z, .reg r⟩, rfl⟩
    | mem a bcst => exact ⟨⟨⟨pfx, d, s2, k, z, .mem a bcst⟩, rfl⟩, ⟨pfx, d, s2, k, z, .mem a bcst⟩, rfl⟩
  have row512 (m : Mnem) (o : EvexOps EvexSrc512) : evexRow m 2#2 o = some (evexInstr512 m o) := by
    obtain ⟨pfx, d, s2, k, z, src⟩ := o
    cases src <;> rfl
  cases i with
  | vfnmadd132pdVex128 o => exact .inl ⟨.f132, 0#1, o, rfl⟩
  | vfnmadd213pdVex128 o => exact .inl ⟨.f213, 0#1, o, rfl⟩
  | vfnmadd231pdVex128 o => exact .inl ⟨.f231, 0#1, o, rfl⟩
  | vfnmadd132pdVex256 o => exact .inl ⟨.f132, 1#1, o, rfl⟩
  | vfnmadd213pdVex256 o => exact .inl ⟨.f213, 1#1, o, rfl⟩
  | vfnmadd231pdVex256 o => exact .inl ⟨.f231, 1#1, o, rfl⟩
  | vfnmadd132pdEvex128 o => exact .inr ⟨.f132, 0#2, (lengthRow .f132 o).1⟩
  | vfnmadd213pdEvex128 o => exact .inr ⟨.f213, 0#2, (lengthRow .f213 o).1⟩
  | vfnmadd231pdEvex128 o => exact .inr ⟨.f231, 0#2, (lengthRow .f231 o).1⟩
  | vfnmadd132pdEvex256 o => exact .inr ⟨.f132, 1#2, (lengthRow .f132 o).2⟩
  | vfnmadd213pdEvex256 o => exact .inr ⟨.f213, 1#2, (lengthRow .f213 o).2⟩
  | vfnmadd231pdEvex256 o => exact .inr ⟨.f231, 1#2, (lengthRow .f231 o).2⟩
  | vfnmadd132pdEvex512 o => exact .inr ⟨.f132, 2#2, o, row512 .f132 o⟩
  | vfnmadd213pdEvex512 o => exact .inr ⟨.f213, 2#2, o, row512 .f213 o⟩
  | vfnmadd231pdEvex512 o => exact .inr ⟨.f231, 2#2, o, row512 .f231 o⟩

end Sys2Proof
end

section
/-! The verdict on the bytes of an EVEX form, and the fields of both encodings (30_encoding.md R65 to R78, R84). -/

namespace Sys2Proof

open Machine (formOf VexHeader EvexHeader)

/-! ## Operand 3 -/

/-- A VEX register form: `B̄` and `rm` (R65). -/
theorem takeVexSrc_reg {modrm : Byte} (hmod : modrm.extractLsb' 6 2 = 3#2) (b1 : Byte) (bs : List Byte) :
    takeVexSrc b1 modrm bs = some (.reg ((~~~ b1.extractLsb' 5 1) ++ modrm.extractLsb' 0 3), bs) :=
  if_pos hmod

/-- A VEX memory form (R75). -/
theorem takeVexSrc_mem {b1 modrm : Byte} {bs rest : List Byte} {a : MemAddr} (hmod : modrm.extractLsb' 6 2 ≠ 3#2)
    (ha : takeMem (modrm.extractLsb' 6 2) (modrm.extractLsb' 0 3) (~~~ b1.extractLsb' 5 1) (~~~ b1.extractLsb' 6 1) bs =
      some (a, rest)) : takeVexSrc b1 modrm bs = some (.mem a, rest) := by
  rw [takeVexSrc, if_neg hmod, ha]
  rfl

/-- An EVEX register form with `EVEX.b` = 0 (R68). -/
theorem takeEvexSrc_reg {p2 modrm : Byte} (hmod : modrm.extractLsb' 6 2 = 3#2) (hb : p2.getLsbD 4 = false) (p0 : Byte)
    (bs : List Byte) : takeEvexSrc p0 p2 modrm bs =
      some (.reg ((~~~ p0.extractLsb' 6 1) ++ (~~~ p0.extractLsb' 5 1) ++ modrm.extractLsb' 0 3), bs) := by
  simp only [takeEvexSrc, hmod, hb, if_true, Bool.false_eq_true, if_false]

/-- An EVEX register form with `EVEX.b` = 1: embedded rounding by `L'L` (R69, R70). -/
theorem takeEvexSrc_round {p2 modrm : Byte} (hmod : modrm.extractLsb' 6 2 = 3#2) (hb : p2.getLsbD 4 = true) (p0 : Byte)
    (bs : List Byte) : takeEvexSrc p0 p2 modrm bs =
      some (.regRound ((~~~ p0.extractLsb' 6 1) ++ (~~~ p0.extractLsb' 5 1) ++ modrm.extractLsb' 0 3)
        (.ofCode (p2.extractLsb' 5 2)), bs) := by
  simp only [takeEvexSrc, hmod, hb, if_true]

/-- An EVEX memory form, `EVEX.b` being broadcast (R70, R75). -/
theorem takeEvexSrc_mem {p0 modrm : Byte} {bs rest : List Byte} {a : MemAddr} (hmod : modrm.extractLsb' 6 2 ≠ 3#2)
    (ha : takeMem (modrm.extractLsb' 6 2) (modrm.extractLsb' 0 3) (~~~ p0.extractLsb' 5 1) (~~~ p0.extractLsb' 6 1) bs =
      some (a, rest)) (p2 : Byte) : takeEvexSrc p0 p2 modrm bs = some (.mem a (p2.getLsbD 4), rest) := by
  rw [takeEvexSrc, if_neg hmod, ha]
  rfl

/-! ## The verdict -/

section verdict
variable {m : Mnem} {ll : BitVec 2} {o : EvexOps EvexSrc512}

/-- An overlong form (R85). -/
theorem evexVerdict_gp (hlen : 15 < o.lenWith EvexSrc512.len) (rest : List Byte) : evexVerdict m ll o rest = .gp :=
  if_pos hlen

/-- Zeroing without a mask, or no row of this length (R69, R71). -/
theorem evexVerdict_ud (hlen : o.lenWith EvexSrc512.len ≤ 15)
    (h : (o.zeroing = true ∧ o.mask = 0#3) ∨ (ll = 3#2 ∧ o.src3.rounds = false)) (rest : List Byte) :
    evexVerdict m ll o rest = .ud := by
  refine (if_neg (Nat.not_lt.2 hlen)).trans ?_
  by_cases hz : o.zeroing = true ∧ o.mask = 0#3
  · exact if_pos hz
  · rw [if_neg hz, (evexRow_eq_none_iff m ll o).2 (h.resolve_left hz)]
    rfl

/-- A row, where there is one (R69, R86). -/
theorem evexVerdict_form (hlen : o.lenWith EvexSrc512.len ≤ 15) (hz : ¬(o.zeroing = true ∧ o.mask = 0#3))
    (hll : ll = 3#2 → o.src3.rounds = true) (rest : List Byte) :
    ∃ i, evexVerdict m ll o rest = .form i rest ∧ EvexRowOf m ll o i := by
  cases hrow : evexRow m ll o with
  | none =>
    obtain ⟨h3, hr⟩ := (evexRow_eq_none_iff m ll o).1 hrow
    rw [hll h3] at hr
    cases hr
  | some i =>
    refine ⟨i, (if_neg (Nat.not_lt.2 hlen)).trans ((if_neg hz).trans ?_), evexRowOf_of_evexRow hrow⟩
    rw [hrow]
    rfl

end verdict

section bytes
variable (pfx : List LegacyPrefix) {p0 p1 p2 op modrm : Byte} {m : Mnem} {bs rest : List Byte} {src : EvexSrc512}
  (hh : EvexHeader p0 p1) (hm : mnemOfOpcode op = some m) (hs : takeEvexSrc p0 p2 modrm bs = some (src, rest))
include hh hm hs

/-- The verdict on the bytes of an EVEX form whose operand 3 can be read (R84). -/
theorem decode_evex_of_src : decode (pfx.map LegacyPrefix.byte ++ 0x62#8 :: p0 :: p1 :: p2 :: op :: modrm :: bs) =
    evexVerdict m (p2.extractLsb' 5 2) (evexFields pfx p0 p1 p2 modrm src) rest := by
  rw [decode_evex, decodeEvex_of_header pfx hh p2 hm, decodeEvexBody_eq, hs]
  rfl

theorem decode_evex_eq_ud (hlen : pfx.length + 6 + src.len ≤ 15)
    (h : (p2.getLsbD 7 = true ∧ p2.extractLsb' 0 3 = 0#3) ∨ (p2.extractLsb' 5 2 = 3#2 ∧ src.rounds = false)) :
    decode (pfx.map LegacyPrefix.byte ++ 0x62#8 :: p0 :: p1 :: p2 :: op :: modrm :: bs) = .ud := by
  rw [decode_evex_of_src pfx hh hm hs]
  exact evexVerdict_ud (o := evexFields pfx p0 p1 p2 modrm src) hlen h rest

theorem decode_evex_eq_form (hlen : pfx.length + 6 + src.len ≤ 15)
    (hz : ¬(p2.getLsbD 7 = true ∧ p2.extractLsb' 0 3 = 0#3)) (hll : p2.extractLsb' 5 2 = 3#2 → src.rounds = true) :
    ∃ i, decode (pfx.map LegacyPrefix.byte ++ 0x62#8 :: p0 :: p1 :: p2 :: op :: modrm :: bs) = .form i rest ∧
      EvexRowOf m (p2.extractLsb' 5 2) (evexFields pfx p0 p1 p2 modrm src) i := by
  rw [decode_evex_of_src pfx hh hm hs]
  exact evexVerdict_form (o := evexFields pfx p0 p1 p2 modrm src) hlen hz hll rest

end bytes

/-- The verdict on the bytes of a VEX form whose operand 3 can be read (R84). -/
theorem decode_vex_of_src (pfx : List LegacyPrefix) {b1 b2 op modrm : Byte} {m : Mnem} {bs rest : List Byte}
    {src : VexSrc} (hh : VexHeader b1 b2) (hm : mnemOfOpcode op = some m)
    (hs : takeVexSrc b1 modrm bs = some (src, rest)) :
    decode (pfx.map LegacyPrefix.byte ++ 0xC4#8 :: b1 :: b2 :: op :: modrm :: bs) =
      formOrGp (vexInstr m (b2.extractLsb' 2 1) (vexFields pfx b1 b2 modrm src)) rest := by
  rw [decode_vex, decodeVex_eq pfx hh hm, hs]
  rfl

/-! ## Fields of a row -/

theorem len_vexInstr (m : Mnem) (l : BitVec 1) (o : VexOps) : (vexInstr m l o).len = o.len :=
  (encode_vexInstr m l o).2

theorem EvexRowOf.sae {m : Mnem} {ll : BitVec 2} {o : EvexOps EvexSrc512} {i : Instr} (h : EvexRowOf m ll o i) :
    (formOf i).sae = o.src3.rounds := by
  rw [h.form]
  obtain ⟨pfx, d, s2, k, z, src⟩ := o
  cases src <;> rfl

theorem EvexRowOf.len {m : Mnem} {ll : BitVec 2} {o : EvexOps EvexSrc512} {i : Instr} (h : EvexRowOf m ll o i) :
    i.len = o.lenWith EvexSrc512.len := by
  rw [← Machine.formOf_bytes, h.form]
  rfl

/-- A 4-bit register number of VEX, as one of the 32 registers (R65). -/
theorem setWidth_vexReg (x : BitVec 1) (r : BitVec 3) : (x ++ r).setWidth 5 = 0#1 ++ x ++ r := by revert x r; decide

theorem setWidth_vexReg' (r : BitVec 4) : r.setWidth 5 = 0#1 ++ r := by revert r; decide

end Sys2Proof

namespace Sys2Proof.Machine

/-- Settles O4: reserved bits stop the decoder first; the other two conditions stop a form whose operand 3 it has read. -/
theorem malformedEvexIsUndefined : Obligations.MalformedEvexIsUndefined := by
  refine ⟨fun ps p0 p1 p2 rest hps hr => ?_, fun ps p0 p1 p2 op modrm rest hps hh ho hmod hlen hbad => ?_,
    fun ps p0 p1 p2 op modrm bs rest a hps hh ho hmod ha hlen hbad => ?_⟩ <;>
    obtain ⟨pfx, rfl⟩ := exists_prefixes hps
  · rw [decode_evex]
    refine decodeEvex_of_reserved pfx (fun ⟨h0, h1⟩ => ?_) p2 rest
    rcases hr with h | h
    · exact h h0
    · rw [h1] at h
      cases h
  · rw [List.length_map] at hlen
    have hm := mnemOfOpcode_of_opcodeByte ho
    cases hb : p2.getLsbD 4 with
    | false =>
      exact decode_evex_eq_ud pfx hh hm (takeEvexSrc_reg hmod hb p0 rest) (Nat.add_le_add_right hlen 6)
        (hbad.imp_right fun h => ⟨h.2, rfl⟩)
    | true =>
      have hzero := hbad.resolve_right fun h => by rw [hb] at h; cases h.1
      exact decode_evex_eq_ud pfx hh hm (takeEvexSrc_round hmod hb p0 rest) (Nat.add_le_add_right hlen 6) (.inl hzero)
  · rw [List.length_map] at hlen
    exact decode_evex_eq_ud pfx hh (mnemOfOpcode_of_opcodeByte ho) (takeEvexSrc_mem hmod ha p2) hlen
      (hbad.imp_right fun h => ⟨h, rfl⟩)

/-- Settles O8: operand 3 says whether `L'L` is a rounding mode or a length, and a length of 11 has no row. -/
theorem evexLengthAndRounding : Obligations.EvexLengthAndRounding := by
  intro ps p0 p1 p2 op modrm bs hps hh ho hz bytes ll isLength
  obtain ⟨pfx, rfl⟩ := exists_prefixes hps
  have hm := mnemOfOpcode_of_opcodeByte ho
  have hlength {src : EvexSrc512} {rest : List Byte} (hs : takeEvexSrc p0 p2 modrm bs = some (src, rest))
      (hr : src.rounds = false) (hlen : pfx.length + 6 + src.len ≤ 15) : isLength rest := by
    have hrow (vl : VecLen) (hvl : evexVecLen ll src = vl) (h3 : ll ≠ 3#2) :
        ∃ i, decode bytes = .form i rest ∧ (formOf i).sae = false ∧
          (lanesOf (formOf i).vl, bitsOf (formOf i).vl) = (lanesOf vl, bitsOf vl) := by
      obtain ⟨i, hi, row⟩ := decode_evex_eq_form pfx hh hm hs hlen hz fun h => absurd h h3
      refine ⟨i, hi, row.sae.trans hr, ?_⟩
      rw [row.form, ← hvl]
      rfl
    refine ⟨fun h => ?_, fun h => ?_, fun h => ?_, fun h => ?_⟩
    · exact hrow .v128 (by rw [evexVecLen, hr, h]; rfl) (by rw [h]; decide)
    · exact hrow .v256 (by rw [evexVecLen, hr, h]; rfl) (by rw [h]; decide)
    · exact hrow .v512 (by rw [evexVecLen, hr, h]; rfl) (by rw [h]; decide)
    · exact decode_evex_eq_ud pfx hh hm hs hlen (.inr ⟨h, hr⟩)
  refine ⟨fun hmod hlen => ⟨fun hb => ?_, fun hb => ?_⟩, fun hmod a rest ha hlen => ?_⟩ <;>
    rw [List.length_map] at hlen
  · obtain ⟨i, hi, row⟩ := decode_evex_eq_form pfx hh hm (takeEvexSrc_round hmod hb p0 bs)
      (Nat.add_le_add_right hlen 6) hz fun _ => rfl
    refine ⟨i, hi, row.sae, ?_, fun s => ?_⟩ <;> rw [row.form] <;> rfl
  · exact hlength (takeEvexSrc_reg hmod hb p0 bs) rfl (Nat.add_le_add_right hlen 6)
  · exact hlength (takeEvexSrc_mem hmod ha p2) rfl hlen

/-- The mnemonic, length and registers of a VEX form come from its payload bytes and ModRM (R65, R72, R73). -/
theorem decode_vex_fields (pfx : List LegacyPrefix) {b1 b2 op modrm : Byte} {m : Mnem} {bs rest : List Byte}
    {src : VexSrc} (hh : VexHeader b1 b2) (hm : mnemOfOpcode op = some m)
    (hs : takeVexSrc b1 modrm bs = some (src, rest)) (hlen : pfx.length + 5 + src.len ≤ 15)
    {src3 : Src3} (h3 : VexSrc.toSrc3 src = src3) :
    ∃ i, decode (pfx.map LegacyPrefix.byte ++ 0xC4#8 :: b1 :: b2 :: op :: modrm :: bs) = .form i rest ∧
      (formOf i).mnem = m ∧ (formOf i).evex = false ∧ (formOf i).vl = (if b2.getLsbD 2 then .v256 else .v128) ∧
      (formOf i).dest = 0#1 ++ (~~~ b1.extractLsb' 7 1) ++ modrm.extractLsb' 3 3 ∧
      (formOf i).src2 = 0#1 ++ (~~~ b2.extractLsb' 3 4) ∧ (formOf i).src3 = src3 := by
  have hl : (if b2.extractLsb' 2 1 = 0#1 then VecLen.v128 else .v256) = if b2.getLsbD 2 then .v256 else .v128 := by
    clear hh
    revert b2
    decide
  have hfits : (vexInstr m (b2.extractLsb' 2 1) (vexFields pfx b1 b2 modrm src)).len ≤ 15 := by
    rw [len_vexInstr]
    exact hlen
  refine ⟨vexInstr m (b2.extractLsb' 2 1) (vexFields pfx b1 b2 modrm src), ?_, ?_⟩
  · rw [decode_vex_of_src pfx hh hm hs]
    exact if_neg (Nat.not_lt.2 hfits)
  · rw [formOf_vexInstr, hl]
    exact ⟨rfl, rfl, rfl, setWidth_vexReg _ _, setWidth_vexReg' _, h3⟩

/-- The mnemonic, length, registers and mask of an EVEX form come from its payload bytes and ModRM (R68 to R72). -/
theorem decode_evex_fields (pfx : List LegacyPrefix) {p0 p1 p2 op modrm : Byte} {m : Mnem} {bs rest : List Byte}
    {src : EvexSrc512} (hh : EvexHeader p0 p1) (hm : mnemOfOpcode op = some m)
    (hs : takeEvexSrc p0 p2 modrm bs = some (src, rest)) (hlen : pfx.length + 6 + src.len ≤ 15)
    (hz : ¬(p2.getLsbD 7 = true ∧ p2.extractLsb' 0 3 = 0#3)) (hll : p2.extractLsb' 5 2 = 3#2 → src.rounds = true)
    {vl : VecLen} (hvl : evexVecLen (p2.extractLsb' 5 2) src = vl) {src3 : Src3} (h3 : EvexSrc512.toSrc3 src = src3) :
    ∃ i, decode (pfx.map LegacyPrefix.byte ++ 0x62#8 :: p0 :: p1 :: p2 :: op :: modrm :: bs) = .form i rest ∧
      (formOf i).mnem = m ∧ (formOf i).evex = true ∧ (formOf i).vl = vl ∧
      (formOf i).dest = (~~~ p0.extractLsb' 4 1) ++ (~~~ p0.extractLsb' 7 1) ++ modrm.extractLsb' 3 3 ∧
      (formOf i).src2 = (~~~ p2.extractLsb' 3 1) ++ (~~~ p1.extractLsb' 3 4) ∧ (formOf i).src3 = src3 ∧
      (formOf i).mask = p2.extractLsb' 0 3 ∧ (formOf i).zeroing = p2.getLsbD 7 := by
  obtain ⟨i, hi, row⟩ := decode_evex_eq_form pfx hh hm hs hlen hz hll
  refine ⟨i, hi, ?_⟩
  rw [row.form]
  exact ⟨rfl, rfl, hvl, rfl, rfl, h3, rfl, rfl⟩

/-- Settles O9: the fields are those of `vexFields` and `evexFields`, around the operand 3 that the bytes hold. -/
theorem operandFieldsDecode : Obligations.OperandFieldsDecode := by
  intro ps op modrm bs rest hps ho mnem mod reg rm
  obtain ⟨pfx, rfl⟩ := exists_prefixes hps
  have hm : mnemOfOpcode op = some mnem := mnemOfOpcode_of_opcodeByte ho
  refine ⟨fun b1 b2 src3 hh h => ?_, fun p0 p1 p2 src3 vl hh hz => ?_⟩
  · rcases h with ⟨hmod, rfl, hlen, rfl⟩ | ⟨hmod, a, ha, hlen, rfl⟩ <;> rw [List.length_map] at hlen
    · exact decode_vex_fields pfx hh hm (takeVexSrc_reg hmod b1 bs) hlen (congrArg Src3.reg (setWidth_vexReg _ _))
    · exact decode_vex_fields pfx hh hm (takeVexSrc_mem hmod ((takeMem_eq_some_iff hmod).2 ha)) hlen rfl
  · intro ll r3 isLength h
    have hlength {src : EvexSrc512} (hr : src.rounds = false) (hl : isLength) :
        (ll = 3#2 → src.rounds = true) ∧ evexVecLen ll src = vl := by
      rw [evexVecLen, hr]
      rcases hl with ⟨hll, rfl⟩ | ⟨hll, rfl⟩ | ⟨hll, rfl⟩ <;> rw [hll] <;> exact ⟨by decide, rfl⟩
    rcases h with ⟨hmod, rfl, hlen, hb, hl, rfl⟩ | ⟨hmod, rfl, hlen, hb, rfl, rfl⟩ | ⟨hmod, hl, a, ha, hlen, rfl⟩ <;>
      rw [List.length_map] at hlen
    · obtain ⟨hll, hvl⟩ := hlength (src := .reg r3) rfl hl
      exact decode_evex_fields pfx hh hm (takeEvexSrc_reg hmod hb p0 bs) hlen hz hll hvl rfl
    · exact decode_evex_fields pfx hh hm (takeEvexSrc_round hmod hb p0 bs) hlen hz (fun _ => rfl) rfl rfl
    · obtain ⟨hll, hvl⟩ := hlength (src := .mem a (p2.getLsbD 4)) rfl hl
      exact decode_evex_fields pfx hh hm (takeEvexSrc_mem hmod ((takeMem_eq_some_iff hmod).2 ha) p2) hlen hz hll hvl rfl

end Sys2Proof.Machine
end

section
/-! Encodings that the decoder answers with `#GP(0)` for their length (30_encoding.md R85): operand 3 is read back
from its encoding whatever the length. -/

namespace Sys2Proof

open Machine (formOf)

/-- What operand 3 contributes to a VEX encoding, `EVEX.b` and `L'L` being absent (R62, R65). -/
def VexSrc.toRm : VexSrc → EvexRm
  | .reg r => ⟨3#2, lowField r, extBit r, 0#1, 0#1, 0#2, []⟩
  | .mem a => evexMemRm a false 0#2

theorem encodeVex_eq (m : Mnem) (l : BitVec 1) (o : VexOps) : encodeVex m l o = o.pfx.map LegacyPrefix.byte ++
    0xC4#8 :: ((~~~ extBit o.dest) ++ (~~~ o.src3.toRm.xx) ++ (~~~ o.src3.toRm.bx) ++ 2#5) ::
      (1#1 ++ (~~~ o.src2) ++ l ++ 1#2) :: m.opcode :: (o.src3.toRm.mod ++ lowField o.dest ++ o.src3.toRm.rm) ::
        o.src3.toRm.tail := by
  obtain ⟨pfx, d, s2, src⟩ := o
  cases src <;> simp [encodeVex, VexSrc.toRm, evexMemRm]

/-- Operand 3 of a VEX form is read back from what it contributes (R65, R75). -/
theorem takeVexSrc_toRm {src : VexSrc} (h : src.wellFormed = true) (d : BitVec 1) (g : BitVec 3) (rest : List Byte) :
    takeVexSrc ((~~~ d) ++ (~~~ src.toRm.xx) ++ (~~~ src.toRm.bx) ++ 2#5) (src.toRm.mod ++ g ++ src.toRm.rm)
      (src.toRm.tail ++ rest) = some (src, rest) := by
  unfold takeVexSrc
  cases src with
  | reg r => simp only [VexSrc.toRm, modrm_mod, modrm_rm, vex1_b, extBit_append_lowField, if_true, List.nil_append]
  | mem a =>
    simp only [VexSrc.toRm, evexMemRm, modrm_mod, modrm_rm, vex1_x, vex1_b, a.mod_ne, if_false, takeMem_tail h,
      Option.map_some]

/-- The bytes of a VEX row are decoded to it or found overlong (R84 steps 2 to 4). -/
theorem decode_encodeVex_formOrGp (m : Mnem) (l : BitVec 1) {o : VexOps} (h : o.src3.wellFormed = true)
    (rest : List Byte) : decode (encodeVex m l o ++ rest) = formOrGp (vexInstr m l o) rest := by
  have hfields (b : BitVec 1) (rm : BitVec 3) (x : BitVec 1) (mod : BitVec 2) :
      vexFields o.pfx ((~~~ extBit o.dest) ++ (~~~ x) ++ (~~~ b) ++ 2#5) (1#1 ++ (~~~ o.src2) ++ l ++ 1#2)
        (mod ++ lowField o.dest ++ rm) o.src3 = o := by
    simp only [vexFields, vex1_r, modrm_reg, vex2_v, extBit_append_lowField]
  rw [encodeVex_eq, List.append_assoc]
  refine (decode_vex_of_src o.pfx ?_ (mnemOfOpcode_opcode m) (takeVexSrc_toRm h _ _ rest)).trans ?_
  · rw [vexHeader_iff]
    simp only [vex1_map, vex2_w, vex2_pp, ne_eq, not_true_eq_false, or_self, not_false_iff]
  · rw [hfields, vex2_l]

/-- Operand 3 of an EVEX form is read back from what it contributes (R68 to R70, R75). -/
theorem takeEvexSrc_rmWith {src : EvexSrc512} (h : src.wellFormed = true) (ll : BitVec 2) (d d' v' : BitVec 1) (z : Bool)
    (g k : BitVec 3) (rest : List Byte) :
    takeEvexSrc ((~~~ d) ++ (~~~ (src.rmWith ll).xx) ++ (~~~ (src.rmWith ll).bx) ++ (~~~ d') ++ 2#4)
      (BitVec.ofBool z ++ (src.rmWith ll).ll ++ (src.rmWith ll).b ++ (~~~ v') ++ k)
      ((src.rmWith ll).mod ++ g ++ (src.rmWith ll).rm) ((src.rmWith ll).tail ++ rest) = some (src, rest) := by
  unfold takeEvexSrc
  simp only [modrm_mod, modrm_rm, evex0_x, evex0_b, evex2_b, evex2_ll]
  cases src with
  | reg r => simp [EvexSrc512.rmWith, evexRegRm, regBits_append]
  | regRound r rc => simp [EvexSrc512.rmWith, evexRegRm, regBits_append]
  | mem a bcst => cases bcst <;> simp [EvexSrc512.rmWith, evexMemRm, a.mod_ne, takeMem_tail h]

/-- The bytes of an EVEX row go through the checks of its operands (R84 steps 3 to 5). -/
theorem decode_encodeEvex_verdict (m : Mnem) (ll : BitVec 2) {o : EvexOps EvexSrc512} (h : o.src3.wellFormed = true)
    (rest : List Byte) : decode (encodeEvex m o (o.src3.rmWith ll) ++ rest) =
      evexVerdict m (o.src3.rmWith ll).ll o rest := by
  obtain ⟨pfx, d, s2, k, z, src⟩ := o
  rw [decode_encodeEvex, decodeEvexBody_eq, takeEvexSrc_rmWith h, Option.elim_some]
  simp only [evexFields, evex0_r, evex0_r', evex1_v, evex2_aaa, evex2_z, evex2_ll, evex2_v', modrm_reg, regBits_append,
    bit4_append]

/-- The address of a memory operand is what makes operand 3 of a VEX form encodable (R75, R76). -/
theorem VexSrc.wellFormed_of_mem {src : VexSrc}
    (h : ∀ a b, Machine.VexSrc.toSrc3 src = .mem a b → a.wellFormed = true) : src.wellFormed = true := by
  cases src with
  | reg r => rfl
  | mem a => exact h a false rfl

theorem EvexSrc512.wellFormed_of_mem {src : EvexSrc512}
    (h : ∀ a b, Machine.EvexSrc512.toSrc3 src = .mem a b → a.wellFormed = true) : src.wellFormed = true := by
  cases src with
  | reg r => rfl
  | regRound r rc => rfl
  | mem a bcst => exact h a bcst rfl

/-- An encoding of more than 15 bytes is `#GP(0)` (R85). -/
theorem decode_encode_overlong {i : Instr} (hlen : 15 < i.len)
    (h : ∀ a b, (formOf i).src3 = .mem a b → a.wellFormed = true) (rest : List Byte) :
    decode (encode i ++ rest) = .gp := by
  rcases instr_eq_row i with ⟨m, l, o, rfl⟩ | ⟨m, ll, o, hrow⟩
  · rw [formOf_vexInstr] at h
    rw [(encode_vexInstr m l o).1, decode_encodeVex_formOrGp m l (VexSrc.wellFormed_of_mem h)]
    exact if_pos hlen
  · have row := evexRowOf_of_evexRow hrow
    rw [row.form] at h
    rw [row.len] at hlen
    rw [row.encode, decode_encodeEvex_verdict m ll (EvexSrc512.wellFormed_of_mem h)]
    exact evexVerdict_gp hlen rest

end Sys2Proof

namespace Sys2Proof.Machine

/-- The length is the first check of an execution too (R169 (b), R173 item 3). -/
theorem exec_overlong {i : Instr} (hlen : 15 < i.len) (s : State) : exec i s = raise .gp s := by
  have hentry : (formOf i).entryFault s = some .gp := if_pos (by rw [formOf_bytes]; exact hlen)
  rw [exec_eq_run, Form.run, hentry]

/-- Settles O7: the decoder and the entry checks of an execution both look at the length first. -/
theorem overlongIsGeneralProtection : Obligations.OverlongIsGeneralProtection := by
  intro i rest s hlen hmem
  have hgp := decode_encode_overlong hlen hmem rest
  exact ⟨hgp, exec_overlong hlen s, fun h32 hf => step_of_decode (v := .gp) h32 (by rw [hf, hgp])⟩

end Sys2Proof.Machine
end

section
/-! What the decoder accepts (30_encoding.md R84, R88): the instruction is well-formed, and its encoding is the bytes that
were taken, but for the ignored bits of the first payload byte. -/

namespace Sys2Proof

open Machine (formOf vexForm DispBytes VexHeader EvexHeader)

/-! ## The bits of the bytes -/

theorem modrm_join (p : Byte) : p.extractLsb' 6 2 ++ p.extractLsb' 3 3 ++ p.extractLsb' 0 3 = p := by
  revert p
  decide

theorem lowField_append (x : BitVec 1) (r : BitVec 3) : lowField (x ++ r) = r := by revert x r; decide

theorem extBit_append (x : BitVec 1) (r : BitVec 3) : extBit (x ++ r) = x := by revert x r; decide

/-- The first payload byte of VEX or EVEX with other extension bits `Xx` and `Bx` (R62, R66). -/
def withExt (p : Byte) (xx bx : BitVec 1) : Byte := p.extractLsb' 7 1 ++ (~~~ xx) ++ (~~~ bx) ++ p.extractLsb' 0 5

theorem withExt_self (p : Byte) : withExt p (~~~ p.extractLsb' 6 1) (~~~ p.extractLsb' 5 1) = p := by revert p; decide

theorem withExt_x (p : Byte) : withExt p 0#1 (~~~ p.extractLsb' 5 1) = p ||| 0x40#8 := by revert p; decide

theorem withExt_b (p : Byte) : withExt p (~~~ p.extractLsb' 6 1) 0#1 = p ||| 0x20#8 := by revert p; decide

theorem withExt_xb (p : Byte) : withExt p 0#1 0#1 = p ||| 0x60#8 := by revert p; decide

section payload
variable {p : Byte}

theorem vex1_join (h : p.extractLsb' 0 5 = 2#5) (x b : BitVec 1) :
    p.extractLsb' 7 1 ++ (~~~ x) ++ (~~~ b) ++ 2#5 = withExt p x b := by rw [withExt, h]

theorem vex2_join (hw : p.getLsbD 7 = true) (hpp : p.extractLsb' 0 2 = 1#2) :
    1#1 ++ p.extractLsb' 3 4 ++ p.extractLsb' 2 1 ++ 1#2 = p := by revert p; decide

theorem evex0_join (h : p.extractLsb' 0 4 = 2#4) (x b : BitVec 1) :
    p.extractLsb' 7 1 ++ (~~~ x) ++ (~~~ b) ++ p.extractLsb' 4 1 ++ 2#4 = withExt p x b := by revert p x b; decide

theorem evex1_join (hw : p.getLsbD 7 = true) (hpp : p.extractLsb' 0 3 = 5#3) :
    1#1 ++ p.extractLsb' 3 4 ++ 5#3 = p := by revert p; decide

theorem evex2_join (p : Byte) : BitVec.ofBool (p.getLsbD 7) ++ p.extractLsb' 5 2 ++ BitVec.ofBool (p.getLsbD 4) ++
    p.extractLsb' 3 1 ++ p.extractLsb' 0 3 = p := by revert p; decide

end payload

/-- The parts of a register number that EVEX spreads over its bytes (R68). -/
theorem evexReg_bits (x b : BitVec 1) (r : BitVec 3) : (x ++ b ++ r).extractLsb' 0 3 = r ∧
    (x ++ b ++ r).extractLsb' 3 1 = b ∧ (x ++ b ++ r).extractLsb' 4 1 = x := by revert x b r; decide

theorem evexVvvv_bits (x : BitVec 1) (v : BitVec 4) : (x ++ v).extractLsb' 0 4 = v ∧ (x ++ v).extractLsb' 4 1 = x := by
  revert x v
  decide

/-! ## The memory operand -/

section disp32
variable {w : Nat} (hi : BitVec w) (b : Byte)

theorem extractLsb'_append_byte : (hi ++ b).extractLsb' 0 8 = b := by
  rw [BitVec.extractLsb'_append_eq_of_add_le (by omega), BitVec.extractLsb'_eq_self]

theorem extractLsb'_add_append_byte (n : Nat) : (hi ++ b).extractLsb' (n + 8) 8 = hi.extractLsb' n 8 := by
  rw [BitVec.extractLsb'_append_eq_of_le (by omega), Nat.add_sub_cancel]

end disp32

/-- A disp32 is written as the four bytes it was read from (R78). -/
theorem bytesOf32_append (b0 b1 b2 b3 : Byte) : bytesOf32 (b3 ++ b2 ++ b1 ++ b0) = [b0, b1, b2, b3] := by
  have h0 := extractLsb'_append_byte (b3 ++ b2 ++ b1) b0
  have h1 := (extractLsb'_add_append_byte (b3 ++ b2 ++ b1) b0 0).trans (extractLsb'_append_byte (b3 ++ b2) b1)
  have h2 := (extractLsb'_add_append_byte (b3 ++ b2 ++ b1) b0 8).trans
    ((extractLsb'_add_append_byte (b3 ++ b2) b1 0).trans (extractLsb'_append_byte b3 b2))
  have h3 := (extractLsb'_add_append_byte (b3 ++ b2 ++ b1) b0 16).trans
    ((extractLsb'_add_append_byte (b3 ++ b2) b1 8).trans
      ((extractLsb'_add_append_byte b3 b2 0).trans BitVec.extractLsb'_eq_self))
  exact congrArg₂ List.cons h0 (congrArg₂ List.cons h1 (congrArg₂ List.cons h2 (congrArg₂ List.cons h3 rfl)))

/-- Displacement bytes are those of the displacement that they hold (R75, R78). -/
theorem bytes_of_dispBytes {mod : BitVec 2} {bs rest : List Byte} {d : Disp} (h : DispBytes mod bs d rest) :
    d.mod = mod ∧ bs = d.bytes ++ rest := by
  rcases h with ⟨rfl, rfl, rfl⟩ | ⟨rfl, b, rfl, rfl⟩ | ⟨rfl, b0, b1, b2, b3, rfl, rfl⟩
  · exact ⟨rfl, rfl⟩
  · exact ⟨rfl, rfl⟩
  · exact ⟨rfl, by rw [Disp.bytes, bytesOf32_append]; rfl⟩

/-- The extension bits that an address leaves unused (R88, log entry 28). -/
def MemAddr.ignored : MemAddr → Byte
  | .base _ _ => 0x40#8
  | .sib _ _ _ _ => 0#8
  | .sibNoBase _ _ _ => 0x20#8
  | .ripRel _ => 0x60#8

/-- Operand 3 as read from payload byte `p`, ModRM and the bytes after it contributes just these to an encoding, but
for the ignored extension bits. -/
structure RmOf (e : EvexRm) (p modrm : Byte) (bs rest : List Byte) (ignored : Byte) : Prop where
  mod : e.mod = modrm.extractLsb' 6 2
  rm : e.rm = modrm.extractLsb' 0 3
  tail : bs = e.tail ++ rest
  ext : withExt p e.xx e.bx = p ||| ignored

/-- A memory operand that is read is encodable, and was read from its own bytes (R75, R76). -/
theorem rmOf_of_takeMem {p modrm : Byte} {bs rest : List Byte} {a : MemAddr} (hmod : modrm.extractLsb' 6 2 ≠ 3#2)
    (h : takeMem (modrm.extractLsb' 6 2) (modrm.extractLsb' 0 3) (~~~ p.extractLsb' 5 1) (~~~ p.extractLsb' 6 1) bs =
      some (a, rest)) (b : Bool) (ll : BitVec 2) :
    a.wellFormed = true ∧ RmOf (evexMemRm a b ll) p modrm bs rest a.ignored := by
  have hnone {d : Disp} {r : BitVec 3} (hd : d.mod = modrm.extractLsb' 6 2)
      (hr : ¬(r = 5#3 ∧ modrm.extractLsb' 6 2 = 0#2)) : (r != 5#3 || d != .none) = true := by
    rw [Bool.or_eq_true, bne_iff_ne, bne_iff_ne, ← not_and_or]
    rintro ⟨h5, rfl⟩
    exact hr ⟨h5, hd.symm⟩
  rcases (takeMem_eq_some_iff hmod).1 h with ⟨h4, h5, d, hd, rfl⟩ | ⟨h5, h0, d, hd, rfl⟩ |
    ⟨h4, sib, bs', rfl, ⟨h5, h0, d, hd, rfl⟩ | ⟨h5, d, hd, rfl⟩⟩ <;>
    obtain ⟨hdm, rfl⟩ := bytes_of_dispBytes hd
  · refine ⟨?_, hdm, lowField_append _ _, rfl, ?_⟩
    · rw [MemAddr.wellFormed, lowField_append, hnone hdm h5, Bool.and_true, bne_iff_ne]
      exact h4
    · simp only [evexMemRm, MemAddr.xx, MemAddr.bx, extBit_append]
      exact withExt_x p
  · exact ⟨rfl, h0.symm, h5.symm, rfl, withExt_xb p⟩
  · refine ⟨rfl, h0.symm, h4.symm, ?_, ?_⟩
    · simp only [evexMemRm, MemAddr.tail, lowField_append]
      rw [← h5, modrm_join]
      rfl
    · simp only [evexMemRm, MemAddr.xx, MemAddr.bx, extBit_append]
      exact withExt_b p
  · refine ⟨?_, hdm, h4.symm, ?_, ?_⟩
    · rw [MemAddr.wellFormed, lowField_append]
      exact hnone hdm h5
    · simp only [evexMemRm, MemAddr.tail, lowField_append, modrm_join]
      rfl
    · simp only [evexMemRm, MemAddr.xx, MemAddr.bx, extBit_append, withExt_self]
      exact (BitVec.or_zero).symm

/-! ## Operand 3 -/

/-- The extension bits that operand 3 of a VEX form leaves unused (R88, log entry 28). -/
def VexSrc.ignored : VexSrc → Byte
  | .reg _ => 0x40#8
  | .mem a => a.ignored

def EvexSrc512.ignored : EvexSrc512 → Byte
  | .reg _ => 0#8
  | .regRound _ _ => 0#8
  | .mem a _ => a.ignored

theorem rmOf_of_takeVexSrc {p modrm : Byte} {bs rest : List Byte} {src : VexSrc}
    (h : takeVexSrc p modrm bs = some (src, rest)) :
    src.wellFormed = true ∧ RmOf src.toRm p modrm bs rest src.ignored := by
  by_cases hmod : modrm.extractLsb' 6 2 = 3#2
  · rw [takeVexSrc_reg hmod] at h
    cases h
    refine ⟨rfl, hmod.symm, lowField_append _ _, rfl, ?_⟩
    simp only [VexSrc.toRm, extBit_append]
    exact withExt_x p
  · rw [takeVexSrc, if_neg hmod] at h
    obtain ⟨⟨a, r⟩, ha, h⟩ := Option.map_eq_some_iff.1 h
    cases h
    exact rmOf_of_takeMem hmod ha false 0#2

theorem rmOf_evexReg {p modrm : Byte} (hmod : modrm.extractLsb' 6 2 = 3#2) (rest : List Byte) (b : BitVec 1)
    (ll : BitVec 2) :
    RmOf (evexRegRm ((~~~ p.extractLsb' 6 1) ++ (~~~ p.extractLsb' 5 1) ++ modrm.extractLsb' 0 3) b ll) p modrm rest rest
      0#8 := by
  obtain ⟨hr, hb, hx⟩ := evexReg_bits (~~~ p.extractLsb' 6 1) (~~~ p.extractLsb' 5 1) (modrm.extractLsb' 0 3)
  refine ⟨hmod.symm, hr, rfl, ?_⟩
  simp only [evexRegRm, hb, hx, withExt_self]
  exact (BitVec.or_zero).symm

/-- Operand 3 of an EVEX form, with the bits `EVEX.b` and `L'L` of its third payload byte (R68 to R70). -/
theorem rmOf_of_takeEvexSrc {p p2 modrm : Byte} {bs rest : List Byte} {src : EvexSrc512}
    (h : takeEvexSrc p p2 modrm bs = some (src, rest)) :
    src.wellFormed = true ∧ RmOf (src.rmWith (p2.extractLsb' 5 2)) p modrm bs rest src.ignored ∧
      (src.rmWith (p2.extractLsb' 5 2)).ll = p2.extractLsb' 5 2 ∧
      (src.rmWith (p2.extractLsb' 5 2)).b = BitVec.ofBool (p2.getLsbD 4) := by
  by_cases hmod : modrm.extractLsb' 6 2 = 3#2
  · cases hb : p2.getLsbD 4 with
    | false =>
      rw [takeEvexSrc_reg hmod hb] at h
      cases h
      exact ⟨rfl, rmOf_evexReg hmod _ _ _, rfl, rfl⟩
    | true =>
      rw [takeEvexSrc_round hmod hb] at h
      cases h
      exact ⟨rfl, rmOf_evexReg hmod _ _ _, RoundMode.code_ofCode _, rfl⟩
  · rw [takeEvexSrc, if_neg hmod] at h
    obtain ⟨⟨a, r⟩, ha, h⟩ := Option.map_eq_some_iff.1 h
    cases h
    obtain ⟨hwf, hrm⟩ := rmOf_of_takeMem hmod ha (p2.getLsbD 4) (p2.extractLsb' 5 2)
    exact ⟨hwf, hrm, rfl, rfl⟩

/-! ## The encoding of what was read -/

/-- The encoder writes back the bytes of a VEX form but for ignored bits (R62, R63, R65). -/
theorem encodeVex_vexFields (pfx : List LegacyPrefix) {b1 b2 op modrm : Byte} {m : Mnem} {bs rest : List Byte}
    {src : VexSrc} (hh : VexHeader b1 b2) (hm : mnemOfOpcode op = some m)
    (hrm : RmOf src.toRm b1 modrm bs rest src.ignored) :
    encodeVex m (b2.extractLsb' 2 1) (vexFields pfx b1 b2 modrm src) =
      pfx.map LegacyPrefix.byte ++ 0xC4#8 :: (b1 ||| src.ignored) :: b2 :: op :: modrm :: src.toRm.tail := by
  obtain ⟨hmap, hw, hpp⟩ := hh
  simp only [encodeVex_eq, vexFields, extBit_append, lowField_append, BitVec.not_not, vex1_join hmap, vex2_join hw hpp,
    hrm.ext, hrm.mod, hrm.rm, modrm_join, opcode_of_mnemOfOpcode hm]

/-- The encoder writes back the bytes of an EVEX form but for ignored bits (R66 to R71). -/
theorem encodeEvex_evexFields (pfx : List LegacyPrefix) {p0 p1 p2 op modrm : Byte} {m : Mnem} {bs rest : List Byte}
    {src : EvexSrc512} {e : EvexRm} (hh : EvexHeader p0 p1) (hm : mnemOfOpcode op = some m)
    (hrm : RmOf e p0 modrm bs rest src.ignored) (hll : e.ll = p2.extractLsb' 5 2)
    (hb : e.b = BitVec.ofBool (p2.getLsbD 4)) : encodeEvex m (evexFields pfx p0 p1 p2 modrm src) e =
      pfx.map LegacyPrefix.byte ++ 0x62#8 :: (p0 ||| src.ignored) :: p1 :: p2 :: op :: modrm :: e.tail := by
  obtain ⟨hmap, hw, hpp⟩ := hh
  obtain ⟨hreg, hr, hr'⟩ := evexReg_bits (~~~ p0.extractLsb' 4 1) (~~~ p0.extractLsb' 7 1) (modrm.extractLsb' 3 3)
  obtain ⟨hv, hv'⟩ := evexVvvv_bits (~~~ p2.extractLsb' 3 1) (~~~ p1.extractLsb' 3 4)
  simp only [encodeEvex, evexFields, hreg, hr, hr', hv, hv', BitVec.not_not, evex0_join hmap, evex1_join hw hpp, hll, hb,
    evex2_join, hrm.ext, hrm.mod, hrm.rm, modrm_join, opcode_of_mnemOfOpcode hm, List.append_assoc, List.cons_append,
    List.nil_append]

/-! ## Prefixes -/

/-- A form comes after valid prefixes alone, from `C4H` or `62H` (R61, R84 steps 1 and 2). -/
theorem decodePrefixes_eq_form {i : Instr} {rest : List Byte} (bs : List Byte) : ∀ (acc : List LegacyPrefix) (bad : Bool),
    decodePrefixes acc bad bs = .form i rest → bad = false ∧ ∃ (ps : List LegacyPrefix) (tail : List Byte),
      (bs = ps.map LegacyPrefix.byte ++ 0xC4#8 :: tail ∧ decodeVex (acc ++ ps) tail = .form i rest) ∨
      (bs = ps.map LegacyPrefix.byte ++ 0x62#8 :: tail ∧ decodeEvex (acc ++ ps) tail = .form i rest) := by
  induction bs with
  | nil => exact fun _ _ h => by cases h
  | cons b bs ih =>
    intro acc bad h
    rw [decodePrefixes] at h
    cases hp : legacyPrefixOf b with
    | some p =>
      rw [hp] at h
      obtain ⟨hbad, ps, tail, htail⟩ := ih _ _ h
      rw [List.append_assoc] at htail
      rw [← byte_of_legacyPrefixOf hp]
      refine ⟨hbad, p :: ps, tail, htail.imp ?_ ?_⟩ <;> exact fun ⟨hbs, hform⟩ => ⟨by rw [hbs]; rfl, hform⟩
    | none =>
      simp only [hp] at h
      split_ifs at h with hf hvex hbad hevex hbad
      · obtain ⟨htrue, _⟩ := ih _ _ h
        cases htrue
      · subst hvex
        exact ⟨Bool.eq_false_iff.2 hbad, [], bs, .inl ⟨rfl, by rwa [List.append_nil]⟩⟩
      · subst hevex
        exact ⟨Bool.eq_false_iff.2 hbad, [], bs, .inr ⟨rfl, by rwa [List.append_nil]⟩⟩

/-! ## What was accepted -/

/-- Two lists of bytes that differ by bits set in the second byte behind `pre`. -/
theorem getD_append_or (e p ignored : Byte) (post pre : List Byte) : ∀ j,
    (pre ++ e :: (p ||| ignored) :: post).getD j 0#8 =
      (pre ++ e :: p :: post).getD j 0#8 ||| (if j = pre.length + 1 then ignored else 0#8) := by
  induction pre with
  | nil =>
    intro j
    match j with
    | 0 => simp
    | 1 => simp
    | j + 2 => simp
  | cons b pre ih =>
    intro j
    match j with
    | 0 => simp
    | j + 1 => simpa using ih j

/-- What a form takes of the bytes, when its encoding is written `ignored` into the first payload byte `p`. -/
theorem taken_of_encode {i : Instr} {pfx : List LegacyPrefix} {e p ignored : Byte} {post : List Byte}
    (he : encode i = pfx.map LegacyPrefix.byte ++ e :: (p ||| ignored) :: post) (hp : (formOf i).pfx = pfx)
    (hi : (formOf i).ignoredBits = ignored) (rest : List Byte) :
    ∃ taken, pfx.map LegacyPrefix.byte ++ e :: p :: (post ++ rest) = taken ++ rest ∧ taken.length = i.len ∧
      ∀ j, (encode i).getD j 0#8 =
        taken.getD j 0#8 ||| (if j = (formOf i).pfx.length + 1 then (formOf i).ignoredBits else 0#8) := by
  refine ⟨pfx.map LegacyPrefix.byte ++ e :: p :: post, by simp, ?_, fun j => ?_⟩
  · rw [← encode_length, he, List.length_append, List.length_append]
    rfl
  · rw [he, hp, hi, getD_append_or, List.length_map]

theorem ignoredBits_vexForm (m : Mnem) (vl : VecLen) (o : VexOps) : (vexForm m vl o).ignoredBits = o.src3.ignored := by
  obtain ⟨pfx, d, s2, src⟩ := o
  cases src with
  | reg r => rfl
  | mem a => cases a <;> rfl

theorem EvexRowOf.ignoredBits {m : Mnem} {ll : BitVec 2} {o : EvexOps EvexSrc512} {i : Instr} (h : EvexRowOf m ll o i) :
    (formOf i).ignoredBits = o.src3.ignored := by
  rw [h.form]
  obtain ⟨pfx, d, s2, k, z, src⟩ := o
  cases src with
  | reg r => rfl
  | regRound r rc => rfl
  | mem a bcst => cases a <;> rfl

end Sys2Proof

namespace Sys2Proof.Machine

/-- Settles O2: a form is a row with the fields of its bytes, and encoding these fields writes the bytes back. -/
theorem decodeAcceptsOnlyEncodings : Obligations.DecodeAcceptsOnlyEncodings := by
  intro bs i rest h
  obtain ⟨_, pfx, tail, ⟨rfl, hv⟩ | ⟨rfl, he⟩⟩ := decodePrefixes_eq_form bs [] false h
  · obtain ⟨b1, b2, op, modrm, bs', m, src, rfl, hh, hm, hs, rfl, hlen⟩ := decodeVex_eq_form hv
    obtain ⟨hwf, hrm⟩ := rmOf_of_takeVexSrc hs
    obtain ⟨henc, hl⟩ := encode_vexInstr m (b2.extractLsb' 2 1) (vexFields pfx b1 b2 modrm src)
    refine ⟨?_, ?_⟩
    · rw [wellFormed_vexInstr, VexOps.wellFormed, Bool.and_eq_true, decide_eq_true_eq]
      exact ⟨hl ▸ hlen, hwf⟩
    · rw [hrm.tail]
      have hform := formOf_vexInstr m (b2.extractLsb' 2 1) (vexFields pfx b1 b2 modrm src)
      exact taken_of_encode (henc.trans (encodeVex_vexFields pfx hh hm hrm)) (congrArg Form.pfx hform)
        ((congrArg Form.ignoredBits hform).trans (ignoredBits_vexForm _ _ _)) rest
  · obtain ⟨p0, p1, p2, op, modrm, bs', m, src, rfl, hh, hm, hs, hrow, hlen, hz⟩ := decodeEvex_eq_form he
    obtain ⟨hwf, hrm, hll, hb⟩ := rmOf_of_takeEvexSrc hs
    have row := evexRowOf_of_evexRow hrow
    refine ⟨?_, ?_⟩
    · rw [row.wellFormed, EvexOps.wellFormedWith_iff]
      exact ⟨hlen, hwf, hz⟩
    · rw [hrm.tail]
      exact taken_of_encode (row.encode.trans (encodeEvex_evexFields pfx hh hm hrm hll hb)) (congrArg Form.pfx row.form)
        row.ignoredBits rest

end Sys2Proof.Machine
end

section
/-! The operands of a form: which of them exist in 64-bit mode (10_state.md R20, R27), their segment and displacement
(30_encoding.md R75 to R82), and the two encodings of one operation (R90). -/

namespace Sys2Proof.Machine

/-! ## Operands that exist (R20, R27, R84) -/

/-- A general register number is below 16: outside the 32-bit modes every address can be named (R27). -/
theorem addrNamed_of_not32 {s : State} (h32 : s.is32 = false) (a : MemAddr) : addrNamed s a = true := by
  have hg (r : BitVec 4) : r.toNat < s.gprCount := by
    rw [State.gprCount, if_neg (by simp [h32])]
    exact r.isLt
  cases a <;> simp [addrNamed, hg]

/-- Outside the 32-bit modes a form whose vector registers and length exist can be named. -/
theorem Form.named_of_not32 {f : Form} {s : State} (h32 : s.is32 = false)
    (hr : ∀ r, f.dest = r ∨ f.src2 = r ∨ f.src3 = .reg r ∨ (∃ rc, f.src3 = .regRound r rc) → r.toNat < s.cfg.nvec.count)
    (hvl : bitsOf f.vl ≤ s.cfg.maxvl.bits) : f.named s = true := by
  have hcount : s.vecCount = s.cfg.nvec.count := if_neg (by simp [h32])
  refine (f.named_iff s).2 ⟨?_, ?_, ?_, hvl⟩
  · exact hcount ▸ hr _ (.inl rfl)
  · exact hcount ▸ hr _ (.inr (.inl rfl))
  · cases h : f.src3 with
    | reg r => exact decide_eq_true (hcount ▸ hr r (.inr (.inr (.inl h))))
    | regRound r rc => exact decide_eq_true (hcount ▸ hr r (.inr (.inr (.inr ⟨rc, h⟩))))
    | mem a b => exact addrNamed_of_not32 h32 a

/-- A VEX form names registers below 16 and a length below 512 bits (R65). -/
theorem formOf_of_vex {i : Instr} (h : (formOf i).evex = false) :
    bitsOf (formOf i).vl ≤ 256 ∧ ∀ r, (formOf i).dest = r ∨ (formOf i).src2 = r ∨ (formOf i).src3 = .reg r ∨
      (∃ rc, (formOf i).src3 = .regRound r rc) → r.toNat < 16 := by
  rcases instr_eq_row i with ⟨m, l, o, rfl⟩ | ⟨m, ll, o, hrow⟩
  · rw [formOf_vexInstr]
    obtain ⟨pfx, d, s2, src⟩ := o
    have hlt (x : BitVec 4) : (x.setWidth 5).toNat < 16 := by
      rw [BitVec.toNat_setWidth_of_le (by decide)]
      exact x.isLt
    refine ⟨?_, ?_⟩
    · show bitsOf (if l = 0#1 then .v128 else .v256) ≤ 256
      split <;> decide
    · rintro r (rfl | rfl | hr | ⟨rc, hr⟩)
      · exact hlt d
      · exact hlt s2
      · cases src <;> cases hr
        exact hlt _
      · cases src <;> cases hr
  · rw [(evexRowOf_of_evexRow hrow).form] at h
    cases h

/-- On a consistent configuration in 64-bit mode an enabled form can be named. -/
theorem named_of_enabled {i : Instr} {s : State} (h32 : s.is32 = false) (hc : s.cfg.consistent = true)
    (he : (formOf i).enabled s = true) : (formOf i).named s = true := by
  cases hev : (formOf i).evex with
  | false =>
    obtain ⟨hbits, hregs⟩ := formOf_of_vex hev
    have hn : 16 ≤ s.cfg.nvec.count := by cases s.cfg.nvec <;> decide
    have hm : 256 ≤ s.cfg.maxvl.bits := by cases s.cfg.maxvl <;> decide
    exact Form.named_of_not32 h32 (fun r h => (hregs r h).trans_le hn) (hbits.trans hm)
  | true =>
    have hf : s.cfg.avx512f = true := by
      have hfeat : (formOf i).featuresOk s = true := (Bool.and_eq_true_iff.1 he).2
      rw [Form.featuresOk, if_pos hev] at hfeat
      exact (Bool.and_eq_true_iff.1 hfeat).1
    obtain ⟨hm, hn⟩ : s.cfg.maxvl = .w512 ∧ s.cfg.nvec = .n32 := by simpa [Config.consistent, hf] using hc
    refine Form.named_of_not32 h32 (fun r _ => ?_) ?_
    · rw [hn]
      exact r.isLt
    · rw [hm]
      cases (formOf i).vl <;> decide

/-- The entry checks pass only an enabled form (R166). -/
theorem Form.enabled_of_entryFault {f : Form} {s : State} (h : f.entryFault s = none) : f.enabled s = true := by
  unfold Form.entryFault at h
  split_ifs at h with _ _ he
  simpa using he

/-- Settles O13: a decoded form is executed, and no form is refused where all its operands exist. -/
theorem stepRefusesOnlyOtherBytes : Obligations.StepRefusesOnlyOtherBytes := by
  intro s r hmode hc h
  have h32 : s.is32 = false := by rw [State.is32, hmode]
  cases hv : decode s.fetch with
  | notThisGroup =>
    rw [step_of_decode h32 hv] at h
    cases h
    exact ⟨rfl, rfl⟩
  | ud => rw [step_of_decode h32 hv] at h; cases h
  | gp => rw [step_of_decode h32 hv] at h; cases h
  | form i rest =>
    have hrun : (formOf i).run s = .refused r := by rw [← exec_eq_run, ← h, step_of_decode h32 hv]; rfl
    rcases (formOf i).run_cases s with ⟨e, _, hr⟩ | ⟨he, hn, _⟩ | ⟨_, _, ha, _⟩ | ⟨e, _, _, _, hr⟩ | ⟨s3, _, _, _, hr⟩
    · rw [hr] at hrun; cases hrun
    · rw [named_of_enabled h32 hc (Form.enabled_of_entryFault he)] at hn; cases hn
    · rw [Form.addr16_of_not32 _ h32] at ha; cases ha
    · rw [hr] at hrun; cases hrun
    · rw [hr] at hrun
      rcases (formOf i).finish_cases s ((formOf i).lanes s s3) with ⟨_, hf⟩ | ⟨_, _, hf⟩ | ⟨_, _, _, hf⟩ | ⟨_, _, hf⟩ <;>
        rw [hf] at hrun <;> cases hrun

/-! ## The segment (R82) -/

/-- An override counts when none of the prefixes after it names a segment (log entry 14). -/
theorem operandSeg_of_override {s : State} {p q : List LegacyPrefix} {x : LegacyPrefix} {r : SegReg} {a : MemAddr}
    (hx : overrideOf s.is32 x = some r) (hq : ∀ y ∈ q, overrideOf s.is32 y = none) :
    operandSeg s (p ++ x :: q) a = r := by
  rw [operandSeg, List.filterMap_append, List.filterMap_cons_some hx, List.filterMap_eq_nil_iff.2 hq]
  simp

theorem operandSeg_default {s : State} {q : List LegacyPrefix} (a : MemAddr) (hq : ∀ y ∈ q, overrideOf s.is32 y = none) :
    operandSeg s q a = defaultSeg a := by
  rw [operandSeg, List.filterMap_eq_nil_iff.2 hq]
  rfl

/-- In 64-bit mode only FS and GS overrides name a segment (R61). -/
theorem overrideOf_not32 {y : LegacyPrefix} (hfs : y ≠ .seg .fs) (hgs : y ≠ .seg .gs) : overrideOf false y = none := by
  rcases y with ⟨_ | _ | _ | _ | _ | _⟩ | _
  case seg.fs => exact absurd rfl hfs
  case seg.gs => exact absurd rfl hgs
  all_goals rfl

theorem overrideOf_is32 (r : SegReg) : overrideOf true (.seg r) = some r := by cases r <;> rfl

/-- Settles O34: the last of the prefixes that names a segment decides. -/
theorem operandSegment : Obligations.OperandSegment := by
  intro s p q r a
  have h64 (h : s.is32 = false) (hfs : .seg .fs ∉ q) (hgs : .seg .gs ∉ q) : ∀ y ∈ q, overrideOf s.is32 y = none :=
    fun y hy => h ▸ overrideOf_not32 (fun e => hfs (e ▸ hy)) (fun e => hgs (e ▸ hy))
  have hnames (h : s.is32 = true) (hq : ∀ x, .seg x ∉ q) : ∀ y ∈ q, overrideOf s.is32 y = none := by
    intro y hy
    cases y with
    | seg x => exact absurd hy (hq x)
    | addrSize => rfl
  refine ⟨fun h hr hfs hgs => ?_, fun h hfs hgs => operandSeg_default a (h64 h hfs hgs), fun h hq => ⟨?_, ?_⟩,
    fun b d h => by rw [h]; rfl, fun sc x b d h => by rw [h]; rfl, fun sc x d h => by rw [h]; rfl,
    fun d h => by rw [h]; rfl⟩
  · refine operandSeg_of_override ?_ (h64 h hfs hgs)
    rcases hr with rfl | rfl <;> rfl
  · exact operandSeg_of_override (h ▸ overrideOf_is32 r) (hnames h hq)
  · exact operandSeg_default a (hnames h hq)

/-! ## The displacement (R79) -/

/-- Without a 32-bit address size the effective address is the sum (R58). -/
theorem Form.effAddr_eq_addrSum {f : Form} {s : State} (h32 : s.is32 = false) (hp : LegacyPrefix.addrSize ∉ f.pfx)
    (a : MemAddr) (bcst : Bool) :
    f.effAddr s a bcst = addrSum s (s.pcAfter f.bytes) (dispScale f.evex f.vl bcst) a := by
  refine if_neg fun h => ?_
  rcases (addr32_iff s f.pfx).1 h with h | h
  · rw [h32] at h
    cases h
  · exact hp h

/-- The factor of a disp8 in numbers (R79). -/
theorem dispScale_eq (evex : Bool) (vl : VecLen) (bcst : Bool) : dispScale evex vl bcst =
    if evex = false then 1 else if bcst then 8 else
      match vl with
      | .v128 => 16
      | .v256 => 32
      | .v512 => 64 := by
  cases evex <;> cases bcst <;> cases vl <;> rfl

/-- Settles O36: every addressing form adds its displacement last, a disp8 times the factor of the form. -/
theorem displacementScaling : Obligations.DisplacementScaling := by
  intro i s sc x b d8 d32 bcst h32 hp n
  have hn : dispScale (formOf i).evex (formOf i).vl bcst = n := dispScale_eq _ _ _
  have hnone : dispValue n .none = 0#64 := rfl
  have h8 : dispValue n (.disp8 d8) = BitVec.ofInt 64 (d8.toInt * n) := dispValue_eq_ofInt n (.disp8 d8)
  have h32' : dispValue n (.disp32 d32) = BitVec.ofInt 64 d32.toInt := dispValue_eq_ofInt n (.disp32 d32)
  have hext (d : BitVec 32) : d.signExtend 64 = BitVec.ofInt 64 d.toInt := rfl
  have hzero : BitVec.ofInt 64 (0#32).toInt = 0#64 := rfl
  simp only [Form.effAddr_eq_addrSum h32 hp, hn, addrSum, h32, hnone, h8, h32', hext, hzero, BitVec.add_zero,
    Bool.false_eq_true, if_false, and_self]

/-! ## The two encodings of one operation (R90) -/

/-- The same form under EVEX, in an encoding of `n` bytes. -/
def Form.underEvex (f : Form) (n : Nat) : Form := { f with evex := true, bytes := n }

/-- An address that does not depend on the encoding: neither RIP-relative nor with a disp8 (R77, R79). -/
def AddrFixed : MemAddr → Prop
  | .base _ d => ∀ d8, d ≠ .disp8 d8
  | .sib _ _ _ d => ∀ d8, d ≠ .disp8 d8
  | .sibNoBase _ _ _ => True
  | .ripRel _ => False

/-- The sum of such an address depends on neither the next instruction nor the factor of a disp8. -/
theorem addrSum_of_fixed {a : MemAddr} (h : AddrFixed a) (s : State) (next next' : Word) (n n' : Nat) :
    addrSum s next n a = addrSum s next' n' a := by
  have hdisp {d : Disp} (hd : ∀ d8, d ≠ .disp8 d8) : dispValue n d = dispValue n' d := by
    cases d with
    | none => rfl
    | disp8 d8 => exact absurd rfl (hd d8)
    | disp32 d => rfl
  cases a with
  | base b d => simp only [addrSum, hdisp h]
  | sib sc x b d => simp only [addrSum, hdisp h]
  | sibNoBase sc x d => rfl
  | ripRel d => exact h.elim

/-- The outcome with another `pc` in its next state. -/
def withNextPc (pc : Word) : Out → Out
  | .next t => .next { t with pc := pc }
  | .fault f => .fault f
  | .refused r => .refused r

section underEvex
variable {f : Form} {s : State}

/-- Without a write mask every lane is active, so fault suppression changes nothing about the operand (R142, R143). -/
theorem Form.thirdSource_underEvex (hmask : f.mask = 0#3) (n : Nat)
    (hsrc : ∀ a b, f.src3 = .mem a b → AddrFixed a ∧ b = false) :
    (f.underEvex n).thirdSource s = f.thirdSource s := by
  have hactive (j : Nat) : f.active s j = true := by rw [Form.active, hmask]; rfl
  have hneeds : (f.underEvex n).needsByte s = f.needsByte s := by
    funext j
    show (_ || f.active s (j / 8)) = (_ || f.active s (j / 8))
    rw [hactive, Bool.or_true, Bool.or_true]
  cases h : f.src3 with
  | reg r => simp only [Form.thirdSource, Form.underEvex, h]
  | regRound r rc => simp only [Form.thirdSource, Form.underEvex, h]
  | mem a b =>
    obtain ⟨hfixed, rfl⟩ := hsrc a b h
    have haddr : (f.underEvex n).effAddr s a false = f.effAddr s a false := by
      unfold Form.effAddr Sys2Proof.Machine.effAddr
      rw [addrSum_of_fixed hfixed s _ (s.pcAfter f.bytes) _ (dispScale f.evex f.vl false)]
      rfl
    rw [Form.thirdSource_full s h, Form.thirdSource_full (f := f.underEvex n) s h, hneeds, haddr]
    rfl

/-- The checks before the operands pass under both encodings (R166, R167, R192). -/
theorem Form.entryFault_of_vexReady (hev : f.evex = false) (hz : f.zeroing = false) (hlen : f.bytes ≤ 15)
    (h : s.vexReady = true) : f.entryFault s = none := by
  simp only [State.vexReady, Bool.and_eq_true, Bool.not_eq_true'] at h
  obtain ⟨⟨⟨⟨hleg, hos⟩, hx⟩, hfma⟩, hts⟩ := h
  simp [Form.entryFault, Form.enabled, Form.featuresOk, hev, hz, hleg, hos, hx, hfma, hts, Nat.not_lt.2 hlen]

theorem Form.entryFault_of_evexReady (hev : f.evex = true) (hz : f.zeroing = false) (hlen : f.bytes ≤ 15)
    (h : s.evexReady f.vl = true) : f.entryFault s = none := by
  simp only [State.evexReady, Bool.and_eq_true, Bool.not_eq_true', Bool.or_eq_true, beq_iff_eq] at h
  obtain ⟨⟨⟨⟨⟨⟨hleg, hos⟩, hx⟩, hz7⟩, h512⟩, hvl⟩, hts⟩ := h
  have hfeat : f.featuresOk s = true := by
    rw [Form.featuresOk, if_pos hev, h512, Bool.true_and]
    rcases hvl with hvl | hvl
    · rw [hvl]
    · cases f.vl <;> simp [hvl]
  simp [Form.entryFault, Form.enabled, hfeat, hz, hleg, hos, hx, hz7, hts, Nat.not_lt.2 hlen]

/-- A form ends the same under both encodings, but for the next `pc` (R131, R144). -/
theorem Form.finish_underEvex (n : Nat) (ls : List LaneOut) :
    (f.underEvex n).finish s ls = withNextPc (s.pcAfter n) (f.finish s ls) := by
  have hsae : (f.underEvex n).sae = f.sae := rfl
  unfold Form.finish
  rw [hsae]
  split_ifs <;> rfl

/-- A form that passes the entry checks of both encodings runs the same under both, but for the next `pc`. -/
theorem Form.run_underEvex {n : Nat} (hmask : f.mask = 0#3)
    (hsrc : ∀ a b, f.src3 = .mem a b → AddrFixed a ∧ b = false) (hv : f.entryFault s = none)
    (he : (f.underEvex n).entryFault s = none) :
    (f.underEvex n).run s = withNextPc (s.pcAfter n) (f.run s) := by
  have hnamed : (f.underEvex n).named s = f.named s := rfl
  have haddr : (f.underEvex n).addr16 s = f.addr16 s := rfl
  have hlanes (s3 : VReg) : (f.underEvex n).lanes s s3 = f.lanes s s3 := rfl
  unfold Form.run
  rw [hv, he, hnamed, haddr, Form.thirdSource_underEvex hmask n hsrc]
  simp only [hlanes]
  split_ifs
  · rfl
  · rfl
  · cases f.thirdSource s with
    | error e => rfl
    | ok s3 => exact Form.finish_underEvex n _

end underEvex

/-- The EVEX form of a VEX operation, without mask and broadcast, is its form under EVEX (R65, R68). -/
theorem evexForm_eq_underEvex (m : Mnem) (vl : VecLen) {o : VexOps} {src : EvexSrc}
    (hsrc : EvexSrc.toSrc3 src = VexSrc.toSrc3 o.src3) (hlen : src.len = o.src3.len) :
    evexForm m vl ⟨o.pfx, o.dest.setWidth 5, o.src2.setWidth 5, 0#3, false, src⟩ =
      (vexForm m vl o).underEvex (o.len + 1) := by
  have hbytes : o.pfx.length + 6 + src.len = o.len + 1 := by
    rw [hlen, VexOps.len]
    omega
  simp only [evexForm, vexForm, Form.underEvex, EvexOps.lenWith, hsrc, hbytes]

/-- Settles O47: the EVEX form is the VEX form under EVEX, whose checks, operand 3 and lanes are the same. -/
theorem vexAndEvexAgree : Obligations.VexAndEvexAgree := by
  intro m o src s hsrc hwf hlen hready o' agree
  have hops : EvexSrc.toSrc3 src = VexSrc.toSrc3 o.src3 ∧ src.len = o.src3.len ∧
      ∀ a b, VexSrc.toSrc3 o.src3 = .mem a b → AddrFixed a ∧ b = false := by
    rcases hsrc with ⟨r, hr, rfl⟩ | ⟨a, ha, rfl, hrip, hbase, hsib⟩
    · rw [hr]
      exact ⟨rfl, rfl, fun a b h => by cases h⟩
    · rw [ha]
      refine ⟨rfl, rfl, fun a' b h => ?_⟩
      cases h
      refine ⟨?_, rfl⟩
      cases a with
      | base b d => exact fun d8 h => hbase b d8 (h ▸ rfl)
      | sib sc x b d => exact fun d8 h => hsib sc x b d8 (h ▸ rfl)
      | sibNoBase sc x d => trivial
      | ripRel d => exact absurd rfl (hrip d)
  obtain ⟨hsrc3, hsrclen, hfixed⟩ := hops
  have hagree (vl : VecLen) {iv ie : Instr} (hiv : formOf iv = vexForm m vl o) (hie : formOf ie = evexForm m vl o')
      (he : s.evexReady vl = true) : agree iv ie := by
    have hrun : exec ie s = withNextPc (s.pcAfter (o.len + 1)) (exec iv s) := by
      rw [exec_eq_run, exec_eq_run, hiv, hie, evexForm_eq_underEvex m vl hsrc3 hsrclen]
      exact Form.run_underEvex rfl hfixed (Form.entryFault_of_vexReady rfl rfl hlen.le hready)
        (Form.entryFault_of_evexReady rfl rfl hlen he)
    exact ⟨fun t h => by rw [hrun, h]; rfl, fun f h => by rw [hrun, h]; rfl, fun r h => by rw [hrun, h]; rfl⟩
  refine ⟨hagree .v128 (formOf_vexInstr m 0#1 o) ?_, hagree .v256 (formOf_vexInstr m 1#1 o) ?_⟩ <;>
    cases m <;> rfl

end Sys2Proof.Machine
end

section
/-! Special operands of a lane (40_lane_numerics.md R101, R105 to R110): the classes of a string under DAZ and under a
change of sign, and one equation of the lane function for each case of R104 that ends without a rounding. -/

namespace Sys2Proof.Machine

/-! ## Strings and classes (R101, R105) -/

theorem fpZero_eq (neg : Bool) : fpZero neg = if neg then 0x8000000000000000#64 else 0#64 := by
  cases neg <;> decide

/-- The sign bit alone is the zero of the sign (R105). -/
theorem and_signBit (v : Lane) : v &&& 0x8000000000000000#64 = fpZero (fpSign v) := by
  have hbit : 0x8000000000000000#64 = BitVec.twoPow 64 63 := by decide
  rw [fpZero_eq, hbit, BitVec.and_twoPow]
  rfl

@[simp] theorem dazReplace_false (v : Lane) : dazReplace false v = v := by simp [dazReplace]

theorem dazReplace_of_isNaN (d : Bool) {v : Lane} (h : isNaN v = true) : dazReplace d v = v :=
  dazReplace_of_exp_max d v ((isNaN_iff v).1 h).1

theorem dazReplace_of_isInf (d : Bool) {v : Lane} (h : isInf v = true) : dazReplace d v = v :=
  dazReplace_of_exp_max d v ((isInf_iff v).1 h).1

/-- DAZ leaves both kinds of NaN what they are (R105). -/
theorem isSNaN_isQNaN_dazReplace (d : Bool) (v : Lane) :
    isSNaN (dazReplace d v) = isSNaN v ∧ isQNaN (dazReplace d v) = isQNaN v := by
  cases h : isNaN v with
  | true => simp only [dazReplace_of_isNaN d h, and_self]
  | false =>
    have h' : isNaN (dazReplace d v) = false := (isNaN_dazReplace d v).trans h
    simp only [isNaN, Bool.or_eq_false_iff] at h h'
    simp only [h, h', and_self]

theorem isSNaN_of_isNaN_eq_false {v : Lane} (h : isNaN v = false) : isSNaN v = false :=
  (Bool.or_eq_false_iff.1 h).1

theorem isNaN_of_isQNaN {v : Lane} (h : isQNaN v = true) : isNaN v = true := by simp [isNaN, h]

/-- A quiet NaN has its quiet bit set (R101). -/
theorem quietBit_of_isQNaN {v : Lane} (h : isQNaN v = true) : v.getLsbD 51 = true := by
  cases hbit : v.getLsbD 51 with
  | true => rfl
  | false =>
    have hclass : fpClass v ≠ .qnan := by
      simp only [fpClass, hbit, Bool.false_eq_true, if_false]
      split_ifs <;> nofun
    exact absurd (beq_iff_eq.1 h) hclass

theorem isSNaN_of_isQNaN {v : Lane} (h : isQNaN v = true) : isSNaN v = false := by
  rw [isQNaN, beq_iff_eq] at h
  simp [isSNaN, h]

theorem quiet_of_isQNaN {v : Lane} (h : isQNaN v = true) : quiet v = v := by
  have hbit : 0x0008000000000000#64 = BitVec.twoPow 64 51 := by decide
  rw [quiet, hbit]
  refine BitVec.eq_of_getLsbD_eq fun i hi => ?_
  rw [BitVec.getLsbD_or, BitVec.getLsbD_twoPow]
  by_cases hi51 : 51 = i
  · simp [← hi51, quietBit_of_isQNaN h]
  · simp [hi51]

/-! ## The other sign (R117) -/

theorem flipSign_eq (v : Lane) : flipSign v = v ^^^ BitVec.twoPow 64 63 := by
  have hbit : 0x8000000000000000#64 = BitVec.twoPow 64 63 := by decide
  rw [flipSign, hbit]

theorem getLsbD_flipSign (v : Lane) {i : Nat} (hi : i ≠ 63) : (flipSign v).getLsbD i = v.getLsbD i := by
  rw [flipSign_eq, BitVec.getLsbD_xor, BitVec.getLsbD_twoPow]
  simp [hi.symm]

theorem fpSign_flipSign (v : Lane) : fpSign (flipSign v) = !fpSign v := by
  rw [fpSign, fpSign, flipSign_eq, BitVec.getLsbD_xor, BitVec.getLsbD_twoPow]
  simp

theorem fpExp_flipSign (v : Lane) : fpExp (flipSign v) = fpExp v := by
  refine congrArg BitVec.toNat (BitVec.eq_of_getLsbD_eq fun i hi => ?_)
  simp only [BitVec.getLsbD_extractLsb', getLsbD_flipSign v (show 52 + i ≠ 63 by omega)]

theorem fpFrac_flipSign (v : Lane) : fpFrac (flipSign v) = fpFrac v := by
  refine congrArg BitVec.toNat (BitVec.eq_of_getLsbD_eq fun i hi => ?_)
  simp only [BitVec.getLsbD_extractLsb', getLsbD_flipSign v (show 0 + i ≠ 63 by omega)]

/-- The class does not depend on the sign (R101). -/
theorem fpClass_flipSign (v : Lane) : fpClass (flipSign v) = fpClass v := by
  unfold fpClass
  rw [fpExp_flipSign, fpFrac_flipSign, getLsbD_flipSign v (by decide)]

theorem fpVal_flipSign (v : Lane) : fpVal (flipSign v) = -fpVal v := by
  unfold fpVal fpMag
  rw [fpSign_flipSign, fpExp_flipSign, fpFrac_flipSign]
  cases fpSign v <;> simp

/-- DAZ goes by the class and keeps the sign, so it commutes with the change of sign (R105). -/
theorem dazReplace_flipSign (d : Bool) (v : Lane) : dazReplace d (flipSign v) = flipSign (dazReplace d v) := by
  unfold dazReplace isDenormal
  rw [fpClass_flipSign, fpSign_flipSign]
  split
  · cases fpSign v <;> decide
  · rfl

/-! ## One equation for each case without a rounding (R104, R106 to R108) -/

/-- DAZ leaves the NaN that supplies the result as it is (R105, R106). -/
theorem firstNaN_dazReplace (o : NaNOrder) (d : Bool) (x y z : Lane) :
    firstNaN o (dazReplace d x) (dazReplace d y) (dazReplace d z) = firstNaN o x y z := by
  have hinput : laneInput (dazReplace d x) (dazReplace d y) (dazReplace d z) = dazReplace d ∘ laneInput x y z := by
    funext role
    cases role <;> rfl
  have hnan : isNaN ∘ dazReplace d = isNaN := funext (isNaN_dazReplace d)
  simp only [firstNaN, hinput, ← List.map_map, List.find?_map (f := dazReplace d), hnan]
  cases h : ((nanRoles o).map (laneInput x y z)).find? isNaN with
  | none => rfl
  | some n => exact congrArg some (dazReplace_of_isNaN d (List.find?_some h))

section
variable (cfg : Config) {x y z : Lane} (rc : RoundMode) (daz ftz : Bool) (m : Masks)

theorem fnmadd64_of_firstNaN {n : Lane} (h : firstNaN cfg.nanOrder x y z = some n) :
    fnmadd64 cfg x y z rc daz ftz m = nanOut cfg (dazReplace daz x) (dazReplace daz y) (dazReplace daz z) n := by
  rw [← firstNaN_dazReplace _ daz] at h
  simp only [fnmadd64, fnmaddCore, h]

theorem firstNaN_dazReplace_eq_none (hx : isNaN x = false) (hy : isNaN y = false) (hz : isNaN z = false) :
    firstNaN cfg.nanOrder (dazReplace daz x) (dazReplace daz y) (dazReplace daz z) = none := by
  rw [firstNaN_dazReplace, firstNaN_eq_none]
  exact ⟨hx, hy, hz⟩

theorem fnmadd64_of_invalid (hx : isNaN x = false) (hy : isNaN y = false) (hz : isNaN z = false)
    (h : Invalid (dazReplace daz x) (dazReplace daz y) (dazReplace daz z)) :
    fnmadd64 cfg x y z rc daz ftz m = ⟨some qnanIndefinite, ⟨true, false, false, false, false⟩⟩ := by
  rw [← invalid_iff] at h
  simp only [fnmadd64, fnmaddCore, firstNaN_dazReplace_eq_none cfg daz hx hy hz, h, if_true]

theorem fnmadd64_of_valid (hx : isNaN x = false) (hy : isNaN y = false) (hz : isNaN z = false)
    (h : ¬Invalid (dazReplace daz x) (dazReplace daz y) (dazReplace daz z)) :
    ((isInf x || isInf y) = true → fnmadd64 cfg x y z rc daz ftz m =
      ⟨some (fpInf (productSign x y)), ⟨false, !daz && anyDenormal x y z, false, false, false⟩⟩) ∧
    ((isInf x || isInf y) = false → isInf z = true → fnmadd64 cfg x y z rc daz ftz m =
      ⟨some z, ⟨false, !daz && anyDenormal x y z, false, false, false⟩⟩) := by
  rw [← invalid_iff, Bool.not_eq_true] at h
  have hsign : productSign (dazReplace daz x) (dazReplace daz y) = productSign x y := by
    simp only [productSign, fpSign_dazReplace]
  simp only [fnmadd64, fnmaddCore, firstNaN_dazReplace_eq_none cfg daz hx hy hz, h, isInf_dazReplace, hsign,
    anyDenormal_dazReplace]
  refine ⟨fun hinf => by simp [hinf], fun hfactors hinf => ?_⟩
  simp [hfactors, hinf, dazReplace_of_isInf daz hinf]

end

/-! ## The flags of a lane (R105 to R109, R116) -/

/-- DE after DAZ: a denormal operand of an operation without NaN that is not invalid (R109). -/
theorem fnmaddCore_de (cfg : Config) (x y z : Lane) (rc : RoundMode) (ftz : Bool) (m : Masks) :
    (fnmaddCore cfg x y z rc ftz m).flags.de = true ↔
      anyDenormal x y z = true ∧ (isNaN x = false ∧ isNaN y = false ∧ isNaN z = false) ∧ ¬Invalid x y z := by
  rw [← invalid_iff, ← firstNaN_eq_none cfg.nanOrder, anyDenormal]
  rcases fnmaddCore_cases cfg x y z rc ftz m with
    ⟨n, hn, hc⟩ | ⟨hn, hinv, hc⟩ | ⟨hn, hvalid, ⟨_, hc⟩ | ⟨_, _, hc⟩ | ⟨_, _, _, hc⟩ | ⟨_, _, _, hc⟩⟩
  · simp [hc, hn, nanOut]
  · simp [hc, hinv]
  · simp [hc, hn, hvalid]
  · simp [hc, hn, hvalid]
  · simp [hc, hn, hvalid]
  · simp [hc, hn, hvalid, roundOut_flags]

/-- IE and DE depend on the operands alone (R116). -/
theorem fnmaddCore_pre_eq (cfg : Config) (x y z : Lane) (rc rc' : RoundMode) (ftz ftz' : Bool) (m m' : Masks) :
    (fnmaddCore cfg x y z rc ftz m).flags.pre = (fnmaddCore cfg x y z rc' ftz' m').flags.pre := by
  unfold fnmaddCore
  split
  · rfl
  · dsimp only
    split_ifs
    · rfl
    · rfl
    · rfl
    · rfl
    · simp only [Flags.pre, roundOut_flags]

/-- A tiny result sets no OE, and PE with UE when masked (R113, R114). -/
theorem tinyOut_flags (rc : RoundMode) (neg : Bool) (a : Nat) (inexact de ftz : Bool) (m : Masks) :
    ∃ ue pe, (tinyOut rc neg a inexact de ftz m).flags = ⟨false, de, false, ue, pe⟩ ∧ (m.um = true → pe = ue) := by
  unfold tinyOut
  cases m.um with
  | false => exact ⟨_, _, rfl, nofun⟩
  | true =>
    cases ftz with
    | true => exact ⟨_, _, rfl, fun _ => rfl⟩
    | false => exact ⟨_, _, rfl, fun _ => rfl⟩

/-- How the flags of a rounding stand together (R111 to R114). -/
theorem roundOut_post (rc : RoundMode) (neg : Bool) (a : Nat) (de ftz : Bool) (m : Masks) :
    ((roundOut rc neg a de ftz m).flags.oe = true →
      (roundOut rc neg a de ftz m).flags.ue = false ∧ (m.om = true → (roundOut rc neg a de ftz m).flags.pe = true)) ∧
    ((roundOut rc neg a de ftz m).flags.ue = true → m.um = true → (roundOut rc neg a de ftz m).flags.pe = true) := by
  rw [roundOut_eq]
  split_ifs
  · unfold overflowOut
    cases m.om <;> simp
  · obtain ⟨ue, pe, hflags, hmasked⟩ := tinyOut_flags rc neg a (roundUnbounded rc neg a).2.2 de ftz m
    rw [hflags]
    exact ⟨nofun, fun hue hum => (hmasked hum).trans hue⟩
  · simp

theorem isFinite_of_not_nan_not_inf {v : Lane} (hnan : isNaN v = false) (hinf : isInf v = false) : isFinite v = true := by
  rw [← Bool.not_eq_true, isNaN_iff] at hnan
  rw [← Bool.not_eq_true, isInf_iff] at hinf
  have := fpExp_lt v
  have : fpExp v ≠ 2047 := fun h => hnan ⟨h, fun hfrac => hinf ⟨h, hfrac⟩⟩
  exact decide_eq_true (by omega)

/-- Without a rounding, which finite operands alone lead to, there is no OE, UE or PE, and IE stands alone
(R106 to R110, R116). -/
theorem fnmaddCore_flags_cases (cfg : Config) (x y z : Lane) (rc : RoundMode) (ftz : Bool) (m : Masks) :
    (∃ ie, (fnmaddCore cfg x y z rc ftz m).flags = ⟨ie, false, false, false, false⟩) ∨
    (∃ de, (fnmaddCore cfg x y z rc ftz m).flags = ⟨false, de, false, false, false⟩) ∨
    (isFinite x = true ∧ isFinite y = true ∧ isFinite z = true) ∧
      ∃ neg a de, fnmaddCore cfg x y z rc ftz m = roundOut rc neg a de ftz m := by
  rcases fnmaddCore_cases cfg x y z rc ftz m with
    ⟨_, _, hc⟩ | ⟨_, _, hc⟩ | ⟨hnan, _, ⟨_, hc⟩ | ⟨_, _, hc⟩ | ⟨_, _, _, hc⟩ | ⟨hxy, hz, _, hc⟩⟩
  · exact .inl ⟨_, congrArg LaneOut.flags hc⟩
  · exact .inl ⟨_, congrArg LaneOut.flags hc⟩
  · exact .inr (.inl ⟨_, congrArg LaneOut.flags hc⟩)
  · exact .inr (.inl ⟨_, congrArg LaneOut.flags hc⟩)
  · exact .inr (.inl ⟨_, congrArg LaneOut.flags hc⟩)
  · obtain ⟨hxnan, hynan, hznan⟩ := (firstNaN_eq_none _ x y z).1 hnan
    obtain ⟨hx, hy⟩ := Bool.or_eq_false_iff.1 hxy
    exact .inr (.inr ⟨⟨isFinite_of_not_nan_not_inf hxnan hx, isFinite_of_not_nan_not_inf hynan hy,
      isFinite_of_not_nan_not_inf hznan hz⟩, _, _, _, hc⟩)

/-- No flag stands at the place of ZE (R25). -/
theorem Flags.bits_ze (f : Flags) : f.bits.getLsbD 2 = false := by
  unfold Flags.bits
  simp only [BitVec.getLsbD_or, apply_ite (BitVec.getLsbD · 2)]
  simp

/-- The table of R110, for the sign of the negated product and that of the addend. -/
theorem exactZero_eq (rc : RoundMode) (x y z : Lane) :
    exactZero rc x y z =
      if isZero x = true ∨ isZero y = true then
        if productSign x y = fpSign z then (if productSign x y then 0x8000000000000000#64 else 0#64)
        else (if rc = .down then 0x8000000000000000#64 else 0#64)
      else (if rc = .down then 0x8000000000000000#64 else 0#64) := by
  rw [exactZero, fpZero_eq, fpZero_eq]
  by_cases hzero : isZero x = true ∨ isZero y = true
  · by_cases hsign : productSign x y = fpSign z
    · simp [hzero, hsign]
    · simp [hzero, hsign]
  · simp [hzero]

/-! ## The factors (R117) -/

theorem infTimesZero_comm (x y : Lane) : infTimesZero x y = infTimesZero y x := by
  rw [infTimesZero, Bool.or_comm, Bool.and_comm (isZero x), Bool.and_comm (isInf x)]
  rfl

/-- Of operands without a NaN, the lane function reads no more than this (R104). -/
theorem fnmaddCore_congr_factors {cfg : Config} {x y x' y' z : Lane} (rc : RoundMode) (ftz : Bool) (m : Masks)
    (hnan : firstNaN cfg.nanOrder x y z = none) (hnan' : firstNaN cfg.nanOrder x' y' z = none)
    (hinfZero : infTimesZero x y = infTimesZero x' y') (hinf : (isInf x || isInf y) = (isInf x' || isInf y'))
    (hzero : (isZero x || isZero y) = (isZero x' || isZero y'))
    (hden : (isDenormal x || isDenormal y) = (isDenormal x' || isDenormal y'))
    (hsign : productSign x y = productSign x' y') (hval : fpVal x * fpVal y = fpVal x' * fpVal y') :
    fnmaddCore cfg x y z rc ftz m = fnmaddCore cfg x' y' z rc ftz m := by
  unfold fnmaddCore infMinusInf exactResult exactZero
  rw [hnan, hnan']
  simp only [hinfZero, hinf, hzero, hden, hsign, hval]

/-! ## The statements -/

/-- Settles O49: DAZ leaves the NaN inputs as they are, and `nanOut` is the outcome. -/
theorem nanOperandResult : Obligations.NaNOperandResult := by
  intro cfg x y z n rc daz ftz m before after hsplit hn hbefore
  have hfirst : firstNaN cfg.nanOrder x y z = some n :=
    List.find?_eq_some_iff_append.2 ⟨hn, before, after, hsplit, fun v hv => by simp [hbefore v hv]⟩
  rw [fnmadd64_of_firstNaN cfg rc daz ftz m hfirst]
  refine ⟨rfl, ?_, rfl, rfl, rfl, rfl, rfl⟩
  simp only [nanOut, infTimesZero, isSNaN_isQNaN_dazReplace, isInf_dazReplace, Bool.or_eq_true, Bool.and_eq_true]
  tauto

/-- Settles O50: in every order of the search the QNaN addend is the only NaN, and it is quiet already. -/
theorem invalidOperationResult : Obligations.InvalidOperationResult := by
  refine ⟨rfl, fun cfg x y z rc daz ftz m hx hy => ⟨fun hz => fnmadd64_of_invalid cfg rc daz ftz m hx hy hz, ?_⟩⟩
  intro hz hinfZero
  have hfirst : firstNaN cfg.nanOrder x y z = some z := by
    have hnan := isNaN_of_isQNaN hz
    unfold firstNaN
    cases cfg.nanOrder <;> simp [nanRoles, laneInput, hx, hy, hnan]
  have hproduct : infTimesZero (dazReplace daz x) (dazReplace daz y) = true := by
    simpa [infTimesZero, isInf_dazReplace] using hinfZero
  rw [fnmadd64_of_firstNaN cfg rc daz ftz m hfirst, nanOut, quiet_of_isQNaN hz]
  simp only [isSNaN_isQNaN_dazReplace, isSNaN_of_isNaN_eq_false hx, isSNaN_of_isNaN_eq_false hy, isSNaN_of_isQNaN hz, hz,
    hproduct, Bool.or_self, Bool.false_or, Bool.and_true]

/-- Settles O51: by `fnmadd64_of_valid`, with the sign of the negated product read from the two signs. -/
theorem infiniteOperandResult : Obligations.InfiniteOperandResult := by
  intro cfg x y z rc daz ftz m hx hy hz hvalid
  obtain ⟨hfactor, haddend⟩ := fnmadd64_of_valid cfg rc daz ftz m hx hy hz hvalid
  refine ⟨fun hinf => ?_, fun hxinf hyinf => haddend (by simp [hxinf, hyinf])⟩
  have hsign : fpInf (productSign x y) =
      if x.getLsbD 63 = y.getLsbD 63 then 0xFFF0000000000000#64 else 0x7FF0000000000000#64 := by
    unfold productSign fpSign
    cases x.getLsbD 63 <;> cases y.getLsbD 63 <;> decide
  rw [hfactor (by simpa using hinf), hsign]

/-- Settles O52: DAZ leaves no denormal. -/
theorem denormalOperandFlag : Obligations.DenormalOperandFlag := by
  intro cfg x y z rc daz ftz m
  rw [fnmadd64, fnmaddCore_de]
  cases daz with
  | true => simp [anyDenormal, isDenormal_dazReplace]
  | false => simp only [dazReplace_false, anyDenormal, Bool.or_eq_true, true_and, or_assoc, and_assoc]

/-- Settles O48: the zero of the sign is the sign bit alone. -/
theorem denormalsAreZeros : Obligations.DenormalsAreZeros := by
  intro cfg x y z rc ftz m c
  have hc : c = dazReplace true := by
    funext v
    simp only [c, dazReplace, and_signBit, Bool.true_and]
  have hde : (fnmadd64 cfg x y z rc true ftz m).flags.de ≠ true := fun h =>
    absurd ((denormalOperandFlag cfg x y z rc true ftz m).1 h).1 (by decide)
  refine ⟨?_, Bool.not_eq_true _ ▸ hde, ?_⟩
  · simp only [hc, fnmadd64, dazReplace_false]
  · simp only [fnmadd64, dazReplace_false]

/-- Settles O53: DAZ keeps the signs that the table of R110 is read with. -/
theorem exactZeroResult : Obligations.ExactZeroResult := by
  intro cfg x y z rc daz ftz m x' y' z' negative hexact
  rw [fnmadd64_of_exactlyEquals hexact, if_pos rfl]
  refine ⟨rfl, congrArg some ?_⟩
  have hsign : productSign x' y' = negative := by
    simp only [productSign, x', y', fpSign_dazReplace]
    rfl
  have hz : fpSign z' = z.getLsbD 63 := fpSign_dazReplace daz z
  change exactZero rc x' y' z' = _
  rw [exactZero_eq, hsign, hz]

/-- Settles O59: without a rounding at most one flag is set, and of a rounding `roundOut_post` says it. -/
theorem flagCombinations : Obligations.FlagCombinations := by
  intro cfg x y z rc rc' daz ftz ftz' m m' f f'
  obtain ⟨hie, hde, -⟩ := Flags.mk.inj (fnmaddCore_pre_eq cfg (dazReplace daz x) (dazReplace daz y) (dazReplace daz z)
    rc rc' ftz ftz' m m')
  suffices h : (f.ie = true → f.de = false ∧ f.oe = false ∧ f.ue = false ∧ f.pe = false) ∧
      (f.oe = true → f.ue = false ∧ (m.om = true → f.pe = true)) ∧ (f.ue = true → m.um = true → f.pe = true) from
    ⟨h.1, h.2.1, h.2.2, f.bits_ze, hie, hde⟩
  rcases fnmaddCore_flags_cases cfg (dazReplace daz x) (dazReplace daz y) (dazReplace daz z) rc ftz m with
    ⟨ie, hf⟩ | ⟨de, hf⟩ | ⟨_, neg, a, de, hc⟩
  · have : f = _ := hf
    simp [this]
  · have : f = _ := hf
    simp [this]
  · have hf : f = (roundOut rc neg a de ftz m).flags := congrArg LaneOut.flags hc
    rw [hf]
    exact ⟨fun hie => by simp [roundOut_flags] at hie, roundOut_post rc neg a de ftz m⟩

/-- Settles O60: what the lane function reads of the factors is the same after either change. -/
theorem factorsCommute : Obligations.FactorsCommute := by
  intro cfg x y z rc daz ftz m hx hy hz
  have hnan := firstNaN_dazReplace_eq_none cfg daz hx hy hz
  constructor
  · exact fnmaddCore_congr_factors rc ftz m hnan (firstNaN_dazReplace_eq_none cfg daz hy hx hz)
      (infTimesZero_comm _ _) (Bool.or_comm _ _) (Bool.or_comm _ _)
      (Bool.or_comm _ _) (by unfold productSign; rw [Bool.xor_comm]) (Int.mul_comm _ _)
  · have hnanFlip {v : Lane} (h : isNaN v = false) : isNaN (flipSign v) = false := by
      rw [← h]
      unfold isNaN isSNaN isQNaN
      rw [fpClass_flipSign]
    have hnan' := firstNaN_dazReplace_eq_none cfg daz (hnanFlip hx) (hnanFlip hy) hz
    unfold fnmadd64
    simp only [dazReplace_flipSign] at hnan' ⊢
    refine fnmaddCore_congr_factors rc ftz m hnan hnan' ?_ ?_ ?_ ?_ ?_ ?_
    · simp only [infTimesZero, isInf, isZero, fpClass_flipSign]
    · simp only [isInf, fpClass_flipSign]
    · simp only [isZero, fpClass_flipSign]
    · simp only [isDenormal, fpClass_flipSign]
    · simp [productSign, fpSign_flipSign]
    · simp [fpVal_flipSign]

end Sys2Proof.Machine
end

section
/-! The rounding of a lane (40_lane_numerics.md R103, R111 to R115): the outcome by the exponent of the first rounding,
the finite values near a magnitude as the multiples of a power of two, and the correct rounding over the whole format. -/

namespace Sys2Proof.Machine

/-! ## The first rounding (R111) -/

/-- Every nonzero magnitude has a first rounding (R111). -/
theorem exists_firstRounding (rc : RoundMode) (neg : Bool) {a : Nat} (ha : a ≠ 0) :
    ∃ sig e inexact, FirstRounding rc neg a sig e inexact := by
  have hlo : 2 ^ a.log2 ≤ a := Nat.log2_self_le ha
  have hhi : a < 2 ^ (a.log2 + 1) := Nat.lt_log2_self
  generalize a.log2 = l at hlo hhi
  have hround := isRounding_roundDiv rc neg (a * 2 ^ 52) (2 ^ l) (Nat.two_pow_pos l)
  generalize roundDiv rc neg (a * 2 ^ 52) (2 ^ l) = m0 at hround
  have hle : m0 ≤ 2 ^ 53 := isRounding_le (Nat.two_pow_pos l) hround (by rw [Nat.pow_succ] at hhi; omega)
  rcases hle.eq_or_lt with heq | hlt
  · exact ⟨_, _, decide (m0 * 2 ^ l ≠ a * 2 ^ 52), l, m0, hlo, hhi, hround, decide_eq_true_iff, .inl ⟨heq, rfl, rfl⟩⟩
  · exact ⟨_, _, decide (m0 * 2 ^ l ≠ a * 2 ^ 52), l, m0, hlo, hhi, hround, decide_eq_true_iff, .inr ⟨hlt, rfl, rfl⟩⟩

section
variable {rc : RoundMode} {neg : Bool} {a sig : Nat} {e : Int} {inexact : Bool}

/-- The outcome by the exponent of the first rounding (R111 to R113). -/
theorem roundOut_of_firstRounding (h : FirstRounding rc neg a sig e inexact) (de ftz : Bool) (m : Masks) :
    roundOut rc neg a de ftz m =
      if 1024 ≤ e then overflowOut rc neg inexact de m
      else if e < -1022 then tinyOut rc neg a inexact de ftz m
      else ⟨some (fpPack neg (e + 1023).toNat (sig - 2 ^ 52)), ⟨false, de, false, false, inexact⟩⟩ := by
  rw [roundOut_eq, firstRounding_eq h]

/-- The string of a first rounding in the normal range has its sign, exponent and fraction (R111). -/
theorem normal_fields (h : FirstRounding rc neg a sig e inexact) (hlo : -1022 ≤ e) (hhi : e < 1024) :
    fpSign (fpPack neg (e + 1023).toNat (sig - 2 ^ 52)) = neg ∧
      ((fpExp (fpPack neg (e + 1023).toNat (sig - 2 ^ 52)) : Nat) : Int) = e + 1023 ∧
      fpFrac (fpPack neg (e + 1023).toNat (sig - 2 ^ 52)) + 2 ^ 52 = sig := by
  obtain ⟨hsiglo, hsighi⟩ := firstRounding_range h
  obtain ⟨hs, he, hf⟩ := fpPack_fields neg (e + 1023).toNat (sig - 2 ^ 52) (by omega) (by omega)
  exact ⟨hs, by omega, by omega⟩

/-- A first rounding below a power of two is that of a magnitude below it (R111). -/
theorem lt_two_pow_of_firstRounding (h : FirstRounding rc neg a sig e inexact) {j k : Nat}
    (he : e < (j : Int) + k - 2148) : a < 2 ^ j * 2 ^ k := by
  obtain ⟨l, m0, -, hhi, -, -, hm⟩ := h
  have hl : l + 1 ≤ j + k := by rcases hm with ⟨-, -, rfl⟩ | ⟨-, -, rfl⟩ <;> omega
  rw [← Nat.pow_add]
  exact hhi.trans_le (Nat.pow_le_pow_right (by decide) hl)

/-- The greatest number of 53 bits at a unit is its own first rounding, so a higher first rounding is that of a greater
magnitude (R111). -/
theorem lt_of_firstRounding_ge (h : FirstRounding rc neg a sig e inexact) {j k : Nat}
    (he : (j : Int) + k + 53 - 2148 ≤ e) : (2 ^ 53 - 1) * 2 ^ j * 2 ^ k < a := by
  obtain ⟨l, m0, hlo, -, hround, -, hm⟩ := h
  by_contra hle
  rw [not_lt, Nat.mul_assoc, ← Nat.pow_add] at hle
  have hl : l < 53 + (j + k) := by
    refine (Nat.pow_lt_pow_iff_right (a := 2) (by decide)).1 ((hlo.trans hle).trans_lt ?_)
    rw [Nat.pow_add 2 53]
    exact Nat.mul_lt_mul_of_pos_right (by decide) (Nat.two_pow_pos _)
  rcases hm with ⟨hm0, -, rfl⟩ | ⟨-, -, rfl⟩
  · obtain rfl : l = j + k + 52 := by omega
    have : m0 ≤ 2 ^ 53 - 1 := isRounding_le (Nat.two_pow_pos _) hround (by
      rw [Nat.pow_add 2 (j + k), ← Nat.mul_assoc]
      exact Nat.mul_le_mul_right _ hle)
    omega
  · omega

/-- A tiny magnitude is below the smallest normal one (R113). -/
theorem lt_of_firstRounding_tiny (h : FirstRounding rc neg a sig e inexact) (he : e < -1022) : a < 2 ^ 52 * 2 ^ 1074 :=
  lt_two_pow_of_firstRounding h (by omega)

/-- The magnitude of `MAXF` in units of 2^-1074 (R101). -/
def maxMag : Nat := (2 ^ 53 - 1) * 2 ^ 2045

/-- An overflow means a magnitude above `MAXF` (R111, R112). -/
theorem lt_of_firstRounding_overflow (h : FirstRounding rc neg a sig e inexact) (he : 1024 ≤ e) :
    maxMag * 2 ^ 1074 < a := by
  rw [maxMag]
  exact lt_of_firstRounding_ge h (by omega)

/-- In the normal range the first rounding is the rounding to a multiple `n * 2 ^ u`, and the magnitude has 53 bits
before that unit (R111). -/
theorem firstRounding_grid (h : FirstRounding rc neg a sig e inexact) (he : -1022 ≤ e) :
    ∃ u n, IsRounding rc neg a (2 ^ u) n ∧ 2 ^ (u + 52) ≤ a ∧ sig * 2 ^ (e + 1022).toNat * 2 ^ 1074 = n * 2 ^ u ∧
      (n % 2 = 0 → sig % 2 = 0) ∧ (inexact = true ↔ n * 2 ^ u ≠ a) := by
  obtain ⟨l, n, hlo, -, hround, hinexact, hm⟩ := h
  obtain ⟨u, rfl⟩ : ∃ u, l = u + 52 := ⟨l - 52, by rcases hm with ⟨-, -, rfl⟩ | ⟨-, -, rfl⟩ <;> omega⟩
  rw [pow_add, isRounding_scale (by decide)] at hround
  rw [pow_add, ← mul_assoc, ne_eq, Nat.mul_left_inj (by decide)] at hinexact
  refine ⟨u, n, hround, hlo, ?_, ?_, hinexact⟩
  · rcases hm with ⟨rfl, rfl, rfl⟩ | ⟨-, rfl, rfl⟩
    · rw [← pow_add, ← pow_add, ← pow_add]
      exact congrArg (2 ^ ·) (by omega)
    · rw [mul_assoc, ← pow_add]
      exact congrArg (sig * 2 ^ ·) (by omega)
  · rcases hm with ⟨-, rfl, -⟩ | ⟨-, rfl, -⟩
    · exact fun _ => by decide
    · exact id

end

/-- The lane function by the first rounding of its exact result (R111 to R113). -/
theorem fnmadd64_of_firstRounding (cfg : Config) {x y z : Lane} {rc : RoundMode} {daz : Bool} (ftz : Bool) (m : Masks)
    {r e : Int} {sig : Nat} {inexact : Bool}
    (hexact : ExactlyEquals (dazReplace daz x) (dazReplace daz y) (dazReplace daz z) r) (hr : r ≠ 0)
    (h : FirstRounding rc (decide (r < 0)) r.natAbs sig e inexact) :
    fnmadd64 cfg x y z rc daz ftz m =
      if 1024 ≤ e then overflowOut rc (decide (r < 0)) inexact (!daz && anyDenormal x y z) m
      else if e < -1022 then tinyOut rc (decide (r < 0)) r.natAbs inexact (!daz && anyDenormal x y z) ftz m
      else ⟨some (fpPack (decide (r < 0)) (e + 1023).toNat (sig - 2 ^ 52)),
        ⟨false, !daz && anyDenormal x y z, false, false, inexact⟩⟩ := by
  rw [fnmadd64_of_exactlyEquals hexact, if_neg hr, roundOut_of_firstRounding h]

/-! ## Rounding at the exponent of denormals (R113) -/

/-- The rounding to multiples of `2 ^ k` stays within a multiple above, and is exact when nothing remains (R113). -/
theorem roundDiv_two_pow (rc : RoundMode) (neg : Bool) {a b k : Nat} (ha : a < b * 2 ^ k) :
    IsRounding rc neg a (2 ^ k) (roundDiv rc neg a (2 ^ k)) ∧ roundDiv rc neg a (2 ^ k) ≤ b ∧
      (a % 2 ^ k ≠ 0 ↔ roundDiv rc neg a (2 ^ k) * 2 ^ k ≠ a) := by
  have hd : 0 < 2 ^ k := Nat.two_pow_pos k
  have hround := isRounding_roundDiv rc neg a (2 ^ k) hd
  refine ⟨hround, isRounding_le hd hround ha.le, not_congr ⟨roundDiv_exact rc neg hd, fun h => ?_⟩⟩
  rw [← h]
  exact Nat.mul_mod_left _ _

section
variable (rc : RoundMode) (neg : Bool) {a : Nat} (inexact de : Bool) {m : Masks}

theorem tinyOut_unmasked (ftz : Bool) (hm : m.um = false) :
    tinyOut rc neg a inexact de ftz m = ⟨none, ⟨false, de, false, true, inexact⟩⟩ := by
  rw [tinyOut, hm]
  rfl

theorem tinyOut_flushed (hm : m.um = true) :
    tinyOut rc neg a inexact de true m = ⟨some (fpZero neg), ⟨false, de, false, true, true⟩⟩ := by
  rw [tinyOut, hm]
  rfl

/-- A masked tiny result without FTZ is the rounding to units of 2^-1074 (R113). -/
theorem tinyOut_rounded (hm : m.um = true) (ha : a < 2 ^ 52 * 2 ^ 1074) :
    ∃ n, IsRounding rc neg a (2 ^ 1074) n ∧ n ≤ 2 ^ 52 ∧ tinyOut rc neg a inexact de false m =
      ⟨some (fpZero neg ||| BitVec.ofNat 64 n),
        ⟨false, de, false, decide (n * 2 ^ 1074 ≠ a), decide (n * 2 ^ 1074 ≠ a)⟩⟩ := by
  obtain ⟨hround, hle, hlost⟩ := roundDiv_two_pow rc neg ha
  refine ⟨_, hround, hle, ?_⟩
  rw [← decide_eq_decide.2 hlost, tinyOut, hm]
  rfl

end

/-- The string of a sign and a fraction (R100). -/
theorem fpZero_or_ofNat (neg : Bool) {n : Nat} (hn : n < 2 ^ 52) : fpZero neg ||| BitVec.ofNat 64 n = fpPack neg 0 n := by
  refine BitVec.eq_of_getLsbD_eq fun i hi => ?_
  simp only [fpZero, fpPack, BitVec.getLsbD_or, BitVec.getLsbD_append, BitVec.getLsbD_ofNat]
  by_cases hlow : i < 52
  · simp [hlow, hi]
  · have : n.testBit i = false := Nat.testBit_lt_two_pow (hn.trans_le (Nat.pow_le_pow_right (by decide) (by omega)))
    simp [hlow, this]

/-- The result `n` at the exponent of denormals, the smallest normal for `n = 2^52`, is worth `n` (R113). -/
theorem denormal_fields (neg : Bool) {n : Nat} (hn : n ≤ 2 ^ 52) :
    fpSign (fpZero neg ||| BitVec.ofNat 64 n) = neg ∧ fpMag (fpZero neg ||| BitVec.ofNat 64 n) = n ∧
      fpFrac (fpZero neg ||| BitVec.ofNat 64 n) % 2 = n % 2 ∧ isFinite (fpZero neg ||| BitVec.ofNat 64 n) = true := by
  rcases hn.lt_or_eq with hlt | rfl
  · obtain ⟨hs, he, hf⟩ := fpPack_fields neg 0 n (by decide) hlt
    simp [fpZero_or_ofNat neg hlt, fpMag, isFinite, hs, he, hf]
  · cases neg <;> decide

/-! ## Magnitudes and signed values (R102) -/

theorem fpFrac_lt (v : Lane) : fpFrac v < 2 ^ 52 := (v.extractLsb' 0 52).isLt

/-- A magnitude has at most 53 significant bits (R101). -/
theorem exists_fpMag_eq (v : Lane) : ∃ s t, s < 2 ^ 53 ∧ fpMag v = s * 2 ^ t := by
  have := fpFrac_lt v
  unfold fpMag
  split
  · exact ⟨fpFrac v, 0, by omega, by omega⟩
  · exact ⟨_, _, by omega, rfl⟩

theorem fpMag_le {v : Lane} {k : Nat} (h : fpExp v ≤ k + 1) : fpMag v ≤ (2 ^ 53 - 1) * 2 ^ k := by
  have hfrac := fpFrac_lt v
  unfold fpMag
  split
  · exact (show fpFrac v ≤ (2 ^ 53 - 1) * 1 by omega).trans (Nat.mul_le_mul_left _ Nat.one_le_two_pow)
  · exact Nat.mul_le_mul (by omega) (Nat.pow_le_pow_right (by decide) (by omega))

/-- No finite magnitude is above `MAXF` (R101). -/
theorem fpMag_le_maxMag {v : Lane} (h : isFinite v = true) : fpMag v ≤ maxMag :=
  fpMag_le (Nat.le_of_lt_succ (of_decide_eq_true h))

theorem fpMax_fields (neg : Bool) : fpSign (fpMax neg) = neg ∧ fpMag (fpMax neg) = maxMag := by
  obtain ⟨hs, he, hf⟩ := fpPack_fields neg 2046 (2 ^ 52 - 1) (by decide) (by decide)
  refine ⟨hs, ?_⟩
  rw [fpMag, fpMax, he, hf, if_neg (by decide), maxMag, show 2 ^ 52 + (2 ^ 52 - 1) = 2 ^ 53 - 1 by decide]

/-- The integer of a sign and a magnitude (R102). -/
def withSign (neg : Bool) (a : Nat) : Int := if neg then -(a : Int) else (a : Int)

theorem withSign_natAbs (r : Int) : withSign (decide (r < 0)) r.natAbs = r := by
  unfold withSign
  by_cases h : r < 0
  · rw [decide_eq_true h, if_pos rfl]
    omega
  · rw [decide_eq_false h, if_neg Bool.false_ne_true]
    omega

theorem withSign_inj {neg : Bool} {a b : Nat} : withSign neg a = withSign neg b ↔ a = b := by
  unfold withSign
  cases neg <;> simp

theorem withSign_mul (neg : Bool) (a c : Nat) : withSign neg a * (c : Int) = withSign neg (a * c) := by
  unfold withSign
  cases neg <;> simp

theorem natAbs_withSign (neg : Bool) (a : Nat) : (withSign neg a).natAbs = a := by
  unfold withSign
  cases neg <;> simp

/-- The value of a string in the units of the exact result (R102, R104). -/
theorem scaled_fpVal (v : Lane) : fpVal v * 2 ^ 1074 = withSign (fpSign v) (fpMag v * 2 ^ 1074) := by
  rw [← withSign_mul, Nat.cast_pow]
  rfl

theorem natAbs_scaled_fpVal (v : Lane) : (fpVal v * 2 ^ 1074).natAbs = fpMag v * 2 ^ 1074 := by
  rw [scaled_fpVal, natAbs_withSign]

/-- A zero is finite, of value 0 (R102). -/
theorem fpZero_value (neg : Bool) : isFinite (fpZero neg) = true ∧ fpVal (fpZero neg) = 0 := by
  cases neg <;> decide

theorem scaled_fpVal_fpZero (neg : Bool) : fpVal (fpZero neg) * 2 ^ 1074 = 0 := by
  rw [(fpZero_value neg).2, Int.zero_mul]

theorem exists_exactZero_eq (rc : RoundMode) (x y z : Lane) : ∃ neg, exactZero rc x y z = fpZero neg := by
  unfold exactZero
  split_ifs
  · exact ⟨_, rfl⟩
  · exact ⟨_, rfl⟩

/-! ## What a rounding returns (R111 to R114) -/

/-- `v` is the rounding of the magnitude `a` with sign `neg` to the multiple `n * 2 ^ u`, where the multiples of
`2 ^ u` hold all finite values from the power of two below `a` on. -/
structure RoundsTo (rc : RoundMode) (neg : Bool) (a : Nat) (v : Lane) (u n : Nat) : Prop where
  rounding : IsRounding rc neg a (2 ^ u) n
  fine : u ≤ 1074 ∨ 2 ^ (u + 52) ≤ a
  sign : fpSign v = neg
  mag : fpMag v * 2 ^ 1074 = n * 2 ^ u
  even : n % 2 = 0 → fpFrac v % 2 = 0
  finite : isFinite v = true

theorem roundsTo_normal {rc : RoundMode} {neg : Bool} {a sig : Nat} {e : Int} {inexact : Bool}
    (h : FirstRounding rc neg a sig e inexact) (hlo : -1022 ≤ e) (hhi : e < 1024) :
    ∃ u n, RoundsTo rc neg a (fpPack neg (e + 1023).toNat (sig - 2 ^ 52)) u n ∧ (inexact = true ↔ n * 2 ^ u ≠ a) := by
  obtain ⟨u, n, hround, hfine, hgrid, heven, hinexact⟩ := firstRounding_grid h hlo
  obtain ⟨hs, he, hf⟩ := normal_fields h hlo hhi
  generalize fpPack neg (e + 1023).toNat (sig - 2 ^ 52) = v at hs he hf
  have hmag : fpMag v = sig * 2 ^ (e + 1022).toNat := by
    rw [fpMag, if_neg (by omega), ← hf, Nat.add_comm (2 ^ 52)]
    rw [show fpExp v - 1 = (e + 1022).toNat by omega]
  exact ⟨u, n, ⟨hround, .inr hfine, hs, by rw [hmag, hgrid], fun h => by have := heven h; omega,
    decide_eq_true (by omega)⟩, hinexact⟩

theorem roundsTo_denormal {rc : RoundMode} {neg : Bool} {a n : Nat} (hround : IsRounding rc neg a (2 ^ 1074) n)
    (hn : n ≤ 2 ^ 52) : RoundsTo rc neg a (fpZero neg ||| BitVec.ofNat 64 n) 1074 n := by
  obtain ⟨hs, hm, hf, hfin⟩ := denormal_fields neg hn
  exact ⟨hround, .inl le_rfl, hs, by rw [hm], hf.trans, hfin⟩

/-- A rounding that returns a value returns the rounded one, the overflow result or the flushed zero (R111 to R114). -/
theorem roundOut_some_cases {rc : RoundMode} {neg : Bool} {a : Nat} {de ftz : Bool} {m : Masks} {v : Lane} (ha : a ≠ 0)
    (hv : (roundOut rc neg a de ftz m).value = some v) :
    (∃ u n, RoundsTo rc neg a v u n ∧ ((roundOut rc neg a de ftz m).flags.pe = true ↔ n * 2 ^ u ≠ a) ∧
      (ftz = true → (roundOut rc neg a de ftz m).flags.ue = false)) ∨
    (v = overflowResult rc neg ∧ maxMag * 2 ^ 1074 < a ∧ (roundOut rc neg a de ftz m).flags.pe = true ∧
      (roundOut rc neg a de ftz m).flags.ue = false) ∨
    (v = fpZero neg ∧ ftz = true ∧ (roundOut rc neg a de ftz m).flags.pe = true ∧
      (roundOut rc neg a de ftz m).flags.ue = true) := by
  obtain ⟨sig, e, inexact, h⟩ := exists_firstRounding rc neg ha
  rw [roundOut_of_firstRounding h] at hv ⊢
  by_cases hover : 1024 ≤ e
  · rw [if_pos hover] at hv ⊢
    unfold overflowOut at hv ⊢
    cases hm : m.om with
    | false => simp [hm] at hv
    | true =>
      simp only [hm, if_true, Option.some.injEq] at hv ⊢
      exact .inr (.inl ⟨hv.symm, lt_of_firstRounding_overflow h hover, trivial, trivial⟩)
  · rw [if_neg hover] at hv ⊢
    by_cases htiny : e < -1022
    · rw [if_pos htiny] at hv ⊢
      cases hm : m.um with
      | false =>
        rw [tinyOut_unmasked rc neg inexact de ftz hm] at hv
        cases hv
      | true =>
        cases ftz with
        | true =>
          rw [tinyOut_flushed rc neg inexact de hm] at hv ⊢
          exact .inr (.inr ⟨(Option.some.inj hv).symm, rfl, rfl, rfl⟩)
        | false =>
          obtain ⟨n, hround, hn, hout⟩ := tinyOut_rounded rc neg inexact de hm (lt_of_firstRounding_tiny h htiny)
          rw [hout] at hv ⊢
          obtain rfl := Option.some.inj hv
          refine .inl ⟨1074, n, roundsTo_denormal hround hn, ?_, nofun⟩
          rw [decide_eq_true_iff]
    · rw [if_neg htiny] at hv ⊢
      obtain rfl := Option.some.inj hv
      obtain ⟨u, n, hto, hinexact⟩ := roundsTo_normal h (by omega) (by omega)
      exact .inl ⟨u, n, hto, hinexact, fun _ => rfl⟩

/-! ## Correct rounding over the whole format (R103) -/

/-- `V` is rounded from `r` no worse than `W` is, as the mode asks; `even` says that the last bit of `V` is 0 (R103). -/
def CorrectlyRounded (rc : RoundMode) (r V W : Int) (even : Prop) : Prop :=
  match rc with
  | .nearestEven => (V - r).natAbs ≤ (W - r).natAbs ∧ ((V - r).natAbs = (W - r).natAbs → V = W ∨ even)
  | .down => V ≤ r ∧ (W ≤ r → W ≤ V)
  | .up => r ≤ V ∧ (r ≤ W → V ≤ W)
  | .towardZero => V.natAbs ≤ r.natAbs ∧ 0 ≤ V * r ∧ (W.natAbs ≤ r.natAbs → W.natAbs ≤ V.natAbs)

theorem CorrectlyRounded.imp {rc : RoundMode} {r V W : Int} {even even' : Prop} (h : CorrectlyRounded rc r V W even)
    (himp : even → even') : CorrectlyRounded rc r V W even' := by
  cases rc with
  | nearestEven => exact ⟨h.1, fun heq => (h.2 heq).imp_right himp⟩
  | down => exact h
  | up => exact h
  | towardZero => exact h

theorem correctlyRounded_zero (rc : RoundMode) (W : Int) (even : Prop) : CorrectlyRounded rc 0 0 W even := by
  cases rc <;> simp only [CorrectlyRounded] <;> omega

/-- A value of the sign of `r` has a product with it that is not negative. -/
theorem withSign_mul_nonneg (r : Int) (a : Nat) : 0 ≤ withSign (decide (r < 0)) a * r := by
  unfold withSign
  by_cases h : r < 0
  · simpa [h] using Int.mul_nonpos_of_nonneg_of_nonpos (Int.natCast_nonneg a) h.le
  · simpa [h] using Int.mul_nonneg (Int.natCast_nonneg a) (Int.not_lt.1 h)

/-- Among the multiples of `d`, a rounding to one of them is the correct one (R103). -/
theorem correctlyRounded_of_isRounding {rc : RoundMode} {r : Int} {d n : Nat}
    (h : IsRounding rc (decide (r < 0)) r.natAbs d n) (j : Int) :
    CorrectlyRounded rc r (withSign (decide (r < 0)) (n * d)) (j * d) (n % 2 = 0) := by
  have hprod := withSign_mul_nonneg r (n * d)
  have hstep {i k : Int} (hik : i < k) : i * d + d ≤ k * d := by
    have := Int.mul_le_mul_of_nonneg_right (show i + 1 ≤ k from hik) (Int.natCast_nonneg d)
    rwa [Int.add_mul, Int.one_mul] at this
  obtain ⟨hnear, hmode⟩ := h
  have habs : (n : Int) < j.natAbs → (n : Int) * d + d ≤ (j * d).natAbs := fun hlt => by
    rw [Int.natAbs_mul, Int.natAbs_natCast, Int.natCast_mul]
    exact hstep hlt
  have habs' : (j.natAbs : Int) ≤ n → ((j * d).natAbs : Int) ≤ n * d := fun hle => by
    rw [Int.natAbs_mul, Int.natAbs_natCast, Int.natCast_mul]
    exact Int.mul_le_mul_of_nonneg_right hle (Int.natCast_nonneg d)
  have hcast : ((n * d : Nat) : Int) = n * d := Int.natCast_mul n d
  by_cases hr : r < 0
  · simp only [hr, decide_true, withSign, if_true, hcast] at hprod hmode ⊢
    have hlt := @hstep j (-n)
    have hgt := @hstep (-n) j
    have heq : j = -n → j * d = -n * d := fun h => by rw [h]
    rw [Int.neg_mul] at hlt hgt heq
    cases rc <;> simp only [CorrectlyRounded] <;> omega
  · simp only [hr, decide_false, withSign, Bool.false_eq_true, if_false, hcast] at hprod hmode ⊢
    have hlt := @hstep j n
    have hgt := @hstep n j
    have heq : j = n → j * d = n * d := fun h => by rw [h]
    cases rc <;> simp only [CorrectlyRounded] <;> omega

/-- What rounds no worse than a value between zero and `r` rounds no worse than any of smaller magnitude. -/
theorem CorrectlyRounded.of_le {rc : RoundMode} {r V W : Int} {b : Nat} {even : Prop}
    (h : CorrectlyRounded rc r V (withSign (decide (r < 0)) b) even) (hb : b ≤ r.natAbs) (hW : W.natAbs ≤ b) :
    CorrectlyRounded rc r V W even := by
  have hbetween : (r ≤ withSign (decide (r < 0)) b ∧ withSign (decide (r < 0)) b ≤ W) ∨
      (W ≤ withSign (decide (r < 0)) b ∧ withSign (decide (r < 0)) b ≤ r) := by
    unfold withSign
    by_cases hr : r < 0
    · rw [decide_eq_true hr, if_pos rfl]
      omega
    · rw [decide_eq_false hr, if_neg Bool.false_ne_true]
      omega
  have habs := natAbs_withSign (decide (r < 0)) b
  generalize withSign (decide (r < 0)) b = B at h hbetween habs
  cases rc with
  | nearestEven =>
    refine ⟨h.1.trans (by omega), fun htie => ?_⟩
    obtain rfl : B = W := by
      have := h.1
      omega
    exact h.2 htie
  | down =>
    obtain ⟨hV, hB⟩ := h
    exact ⟨hV, by omega⟩
  | up =>
    obtain ⟨hV, hB⟩ := h
    exact ⟨hV, by omega⟩
  | towardZero =>
    obtain ⟨hV, hprod, hB⟩ := h
    exact ⟨hV, hprod, by omega⟩

/-- The greatest magnitude is correctly rounded from a greater one where the mode rounds toward zero (R103, R112). -/
theorem correctlyRounded_greatest {rc : RoundMode} {r W : Int} {b : Nat} (even : Prop)
    (hrc : (rc = .down ∧ decide (r < 0) = false) ∨ (rc = .up ∧ decide (r < 0) = true) ∨ rc = .towardZero)
    (hb : b ≤ r.natAbs) (hW : W.natAbs ≤ b) : CorrectlyRounded rc r (withSign (decide (r < 0)) b) W even := by
  have hprod := withSign_mul_nonneg r b
  have habs := natAbs_withSign (decide (r < 0)) b
  rcases hrc with ⟨rfl, hr⟩ | ⟨rfl, hr⟩ | rfl
  · rw [hr, withSign]
    have := of_decide_eq_false hr
    simp only [CorrectlyRounded, Bool.false_eq_true, if_false]
    omega
  · rw [hr, withSign]
    have := of_decide_eq_true hr
    simp only [CorrectlyRounded, if_true]
    omega
  · exact ⟨habs.trans_le hb, hprod, fun _ => hW.trans_eq habs.symm⟩

/-- A finite overflow result is `MAXF`, in a mode that rounds toward zero (R112). -/
theorem overflowResult_of_isFinite {rc : RoundMode} {neg : Bool} (h : isFinite (overflowResult rc neg) = true) :
    overflowResult rc neg = fpMax neg ∧ ((rc = .down ∧ neg = false) ∨ (rc = .up ∧ neg = true) ∨ rc = .towardZero) := by
  revert h
  cases rc <;> cases neg <;> decide

/-- Every value of magnitude from `2 ^ (u + 52)` on is a multiple of `2 ^ u` (R101). -/
theorem two_pow_dvd_scaled_fpMag {u : Nat} (w : Lane) (h : u ≤ 1074 ∨ 2 ^ (u + 52) ≤ fpMag w * 2 ^ 1074) :
    2 ^ u ∣ fpMag w * 2 ^ 1074 := by
  obtain ⟨s, t, hs, hmag⟩ := exists_fpMag_eq w
  rw [hmag, mul_assoc, ← pow_add] at h ⊢
  refine Nat.dvd_mul_left_of_dvd (Nat.pow_dvd_pow 2 ?_) s
  rcases h with h | h
  · omega
  · have hlt : 2 ^ (u + 52) < 2 ^ (53 + (t + 1074)) := by
      rw [pow_add 2 53]
      exact h.trans_lt (Nat.mul_lt_mul_of_pos_right hs (Nat.two_pow_pos _))
    have := (Nat.pow_lt_pow_iff_right (a := 2) (by decide)).1 hlt
    omega

/-- The rounding to a multiple of `2 ^ u` is the correct one among all values of the format (R103, R111, R113). -/
theorem RoundsTo.correctlyRounded {rc : RoundMode} {r : Int} {v : Lane} {u n : Nat}
    (h : RoundsTo rc (decide (r < 0)) r.natAbs v u n) (w : Lane) :
    CorrectlyRounded rc r (fpVal v * 2 ^ 1074) (fpVal w * 2 ^ 1074) (fpFrac v % 2 = 0) := by
  have hgrid (j : Int) := (correctlyRounded_of_isRounding h.rounding j).imp h.even
  rw [← h.mag, ← h.sign, ← scaled_fpVal] at hgrid
  by_cases hw : u ≤ 1074 ∨ 2 ^ (u + 52) ≤ fpMag w * 2 ^ 1074
  · obtain ⟨j, hj⟩ := Int.natCast_dvd.2 (natAbs_scaled_fpVal w ▸ two_pow_dvd_scaled_fpMag w hw)
    rw [hj, Int.mul_comm _ j]
    exact hgrid j
  · obtain ⟨hcoarse, hlt⟩ := not_or.1 hw
    have hpow := hgrid (withSign (decide (r < 0)) (2 ^ 52))
    rw [withSign_mul, ← pow_add, Nat.add_comm] at hpow
    exact hpow.of_le (h.fine.resolve_left hcoarse) (by rw [natAbs_scaled_fpVal]; exact (Nat.not_le.1 hlt).le)

/-! ## The statements -/

/-- Settles O54: the fields of the packed string. -/
theorem normalResultIsRounded : Obligations.NormalResultIsRounded := by
  intro cfg x y z rc daz ftz m r e sig inexact hexact hr h hlo hhi
  rw [fnmadd64_of_firstRounding cfg ftz m hexact hr h, if_neg (by omega), if_neg (by omega)]
  exact ⟨_, rfl, normal_fields h hlo hhi⟩

/-- Settles O55: the overflow outcome at the exponent of the first rounding, its table read off by sign and mode. -/
theorem overflowResponse : Obligations.OverflowResponse := by
  intro cfg x y z rc daz ftz m r e sig inexact hexact hr h he
  rw [fnmadd64_of_firstRounding cfg ftz m hexact hr h, if_pos he, overflowOut]
  refine ⟨fun hm => ?_, fun hm => ?_⟩
  · rw [if_pos hm]
    rcases lt_or_gt_of_ne hr with hneg | hpos
    · simp only [hneg, Int.not_lt.2 hneg.le, decide_true, if_false]
      cases rc <;> rfl
    · simp only [hpos, Int.not_lt.2 (Int.le_of_lt hpos), decide_false, if_true]
      cases rc <;> rfl
  · simp [hm, Flags.unmasked]

/-- Settles O56: the three tiny outcomes at the exponent of the first rounding. -/
theorem tinyResultResponse : Obligations.TinyResultResponse := by
  intro cfg x y z rc daz ftz m r e sig inexact hexact hr h he de negZero
  have hzero : negZero = fpZero (decide (r < 0)) := by simp [negZero, fpZero_eq]
  rw [fnmadd64_of_firstRounding cfg ftz m hexact hr h, if_neg (by omega), if_pos he, hzero]
  refine ⟨fun hm => ?_, fun hm hftz => ?_, fun hm hftz => ?_⟩
  · rw [tinyOut_unmasked _ _ _ _ _ hm]
    exact ⟨rfl, by simp [Flags.unmasked, hm]⟩
  · rw [hftz, tinyOut_flushed _ _ _ _ hm]
  · rw [hftz]
    exact tinyOut_rounded rc _ inexact _ hm (lt_of_firstRounding_tiny h he)

/-- Settles O57: by what a rounding returns; a value above every finite one, or a flushed one, is never exact. -/
theorem precisionFlagMeansInexact : Obligations.PrecisionFlagMeansInexact := by
  intro cfg x y z rc daz ftz m v hv
  refine ⟨fun r hexact => ?_, fun hinf => ?_⟩
  · rw [fnmadd64_of_exactlyEquals hexact] at hv ⊢
    by_cases hr : r = 0
    · rw [if_pos hr] at hv ⊢
      obtain ⟨neg, hneg⟩ := exists_exactZero_eq rc (dazReplace daz x) (dazReplace daz y) (dazReplace daz z)
      obtain rfl : fpZero neg = v := hneg ▸ Option.some.inj hv
      exact ⟨iff_of_false Bool.false_ne_true (not_not.2 ⟨(fpZero_value neg).1, (scaled_fpVal_fpZero neg).trans hr.symm⟩),
        fun _ => rfl⟩
    · rw [if_neg hr] at hv ⊢
      refine ⟨?_, fun h => absurd h hr⟩
      rcases roundOut_some_cases (Int.natAbs_ne_zero.2 hr) hv with
        ⟨u, n, hto, hpe, -⟩ | ⟨rfl, hbig, hpe, -⟩ | ⟨rfl, -, hpe, -⟩
      · have hval : fpVal v * 2 ^ 1074 = r ↔ n * 2 ^ u = r.natAbs := by
          conv_lhs => rw [← withSign_natAbs r]
          rw [scaled_fpVal, hto.sign, withSign_inj, hto.mag]
        rw [hpe, hval, hto.finite]
        simp
      · refine iff_of_true hpe fun ⟨hfin, hval⟩ => ?_
        rw [← hval, natAbs_scaled_fpVal] at hbig
        exact absurd (Nat.mul_le_mul_right _ (fpMag_le_maxMag hfin)) (Nat.not_le.2 hbig)
      · refine iff_of_true hpe fun ⟨_, hval⟩ => hr ?_
        exact hval.symm.trans (scaled_fpVal_fpZero _)
  · rcases fnmaddCore_flags_cases cfg (dazReplace daz x) (dazReplace daz y) (dazReplace daz z) rc ftz m with
      ⟨ie, hf⟩ | ⟨de, hf⟩ | ⟨hfin, -⟩
    · rw [fnmadd64, hf]
    · rw [fnmadd64, hf]
    · simp only [isFinite, fpExp_dazReplace] at hfin hinf
      simp [hfin] at hinf

/-- Settles O58: by what a rounding returns, each correctly rounded or flushed. -/
theorem finiteResultsAreCorrectlyRounded : Obligations.FiniteResultsAreCorrectlyRounded := by
  intro cfg x y z rc daz ftz m v w r hexact hv hvfin hwfin V W
  suffices h : (ftz = true ∧ (fnmadd64 cfg x y z rc daz ftz m).flags.ue = true ∧ v = fpZero (decide (r < 0))) ∨
      (¬(ftz = true ∧ (fnmadd64 cfg x y z rc daz ftz m).flags.ue = true) ∧
        CorrectlyRounded rc r V W (fpFrac v % 2 = 0)) by
    rcases h with ⟨hftz, hue, hzero⟩ | ⟨hflush, h⟩
    · rw [if_pos ⟨hftz, hue⟩, hzero]
      simp [fpZero_eq]
    · rw [if_neg hflush]
      cases rc <;> exact h
  rw [fnmadd64_of_exactlyEquals hexact] at hv ⊢
  by_cases hr : r = 0
  · rw [if_pos hr] at hv ⊢
    obtain ⟨neg, hneg⟩ := exists_exactZero_eq rc (dazReplace daz x) (dazReplace daz y) (dazReplace daz z)
    obtain rfl : fpZero neg = v := hneg ▸ Option.some.inj hv
    have hV : V = 0 := scaled_fpVal_fpZero neg
    rw [hV, hr]
    exact .inr ⟨by simp, correctlyRounded_zero rc W _⟩
  · rw [if_neg hr] at hv ⊢
    rcases roundOut_some_cases (Int.natAbs_ne_zero.2 hr) hv with
      ⟨u, n, hto, -, hue⟩ | ⟨rfl, hbig, -, hue⟩ | ⟨rfl, hftz, -, hue⟩
    · exact .inr ⟨fun ⟨hftz, hue'⟩ => by simp [hue hftz] at hue', hto.correctlyRounded w⟩
    · refine .inr ⟨by simp [hue], ?_⟩
      obtain ⟨hmax, hrc⟩ := overflowResult_of_isFinite hvfin
      have hV : V = withSign (decide (r < 0)) (maxMag * 2 ^ 1074) := by
        simp only [V, hmax, scaled_fpVal, fpMax_fields]
      rw [hV]
      refine correctlyRounded_greatest _ hrc hbig.le ?_
      rw [natAbs_scaled_fpVal]
      exact Nat.mul_le_mul_right _ (fpMag_le_maxMag hwfin)
    · exact .inl ⟨hftz, hue, rfl⟩

end Sys2Proof.Machine
end

section
/-! Completion of the VEX forms (41_vfnmadd_pd_vex.md R130 to R137): all six from the form they share, in a state that
lets a VEX form execute. -/

namespace Sys2Proof.Machine

/-- An instruction that reads its operands and that no entry check stops is enabled (R166, R167). -/
theorem enabled_of_entryFault {i : Instr} {s : State} {s3 : VReg} (he : (formOf i).entryFault s = none)
    (ho : OperandsRead i s s3) : Enabled i s := by
  obtain ⟨hw, hname, -⟩ := ho
  have hn : ¬NotEnabled i s := fun h => by
    rw [entryFault_eq_some_ud hw h] at he
    cases he
  have hts : s.ts = false := by simpa [entryFault_of_enabled hw hn] using he
  exact ⟨hw, hn, hts, hname⟩

section vexForm
variable (m : Mnem) (vl : VecLen) (o : VexOps)

/-- A VEX form has no embedded rounding (R65). -/
theorem vexForm_sae : (vexForm m vl o).sae = false := by
  obtain ⟨pfx, dest, src2, src3⟩ := o
  cases src3 <;> rfl

/-- Lane `j` of the VEX operation: the lane function under `MXCSR`, on the operands in the order of the mnemonic
(R130, R131 step 3). -/
def vexLane (s : State) (s3 : VReg) (j : Nat) : LaneOut :=
  let (x, y, z) := Mnem.arrange m (laneOf (s.readV (o.dest.setWidth 5)) j) (laneOf (s.readV (o.src2.setWidth 5)) j)
    (laneOf s3 j)
  fnmaddMxcsr s x y z

theorem vexForm_computeLane (s : State) (s3 : VReg) (j : Nat) :
    (vexForm m vl o).computeLane s s3 j = vexLane m o s s3 j := by
  rw [Form.computeLane_eq (vexForm_sae m vl o)]
  cases m <;> rfl

variable {m vl o}

/-- A row whose form is a VEX form completes with the lanes of its mnemonic: every lane is active (R131). -/
theorem vex_completes {i : Instr} {s : State} {s3 : VReg} (hf : formOf i = vexForm m vl o)
    (hready : s.vexReady = true) (ho : OperandsRead i s s3) :
    CompletesUnlessUnmasked (exec i s) s (o.dest.setWidth 5) (lanesOf vl) o.len (fun _ => true) false
      (vexLane m o s s3) := by
  have hlen : i.len = o.len := by rw [← formOf_bytes, hf]; rfl
  have hshort : o.len ≤ 15 := hlen ▸ (wellFormed_checks ho.1).1
  have he : (formOf i).entryFault s = none := by
    rw [hf]
    exact Form.entryFault_of_vexReady rfl rfl hshort hready
  refine completes_as (enabled_of_entryFault he ho) ho ?_ ?_ ?_ hlen ?_ ?_ ?_ <;> rw [hf]
  · exact vexForm_sae m vl o
  · rfl
  · rfl
  · exact fun _ => rfl
  · rfl
  · exact vexForm_computeLane m vl o s s3

end vexForm

/-- Settles O21: each row is the VEX form of its mnemonic with two lanes. -/
theorem vex128FormsComplete : Obligations.Vex128FormsComplete := fun o _ _ hready =>
  ⟨vex_completes (m := .f132) (vl := .v128) (o := o) rfl hready,
    vex_completes (m := .f213) (vl := .v128) (o := o) rfl hready,
    vex_completes (m := .f231) (vl := .v128) (o := o) rfl hready⟩

/-- Settles O22: each row is the VEX form of its mnemonic with four lanes. -/
theorem vex256FormsComplete : Obligations.Vex256FormsComplete := fun o _ _ hready =>
  ⟨vex_completes (m := .f132) (vl := .v256) (o := o) rfl hready,
    vex_completes (m := .f213) (vl := .v256) (o := o) rfl hready,
    vex_completes (m := .f231) (vl := .v256) (o := o) rfl hready⟩

end Sys2Proof.Machine
end

section
/-! Words that the spec writes out (41_vfnmadd_pd_vex.md R133, R134, R137, 42_vfnmadd_pd_evex.md R145, R150, R152, R153). -/

namespace Sys2Proof

/-- The bytes that the encoder writes for an instruction decode to it (R84). -/
theorem decode_of_encode_eq {i : Instr} {bs : List Byte} (hw : i.wellFormed = true) (he : encode i = bs) :
    decode bs = .form i [] := by
  rw [← he, ← List.append_nil (encode i)]
  exact decode_encode hw []

/-- Settles O10: each word is what the encoder writes for its instruction, and the decoder gives that back. -/
theorem sampleWordsDecode : Obligations.SampleWordsDecode := by
  refine ⟨decode_of_encode_eq ?_ ?_, decode_of_encode_eq ?_ ?_, decode_of_encode_eq ?_ ?_, decode_of_encode_eq ?_ ?_,
    decode_of_encode_eq ?_ ?_, decode_of_encode_eq ?_ ?_, decode_of_encode_eq ?_ ?_⟩ <;> decide

end Sys2Proof
end

section
/-! Completion of the EVEX forms (42_vfnmadd_pd_evex.md R140 to R155): all nine from the form they share, in a state
that lets an EVEX form execute, with embedded rounding and under an all-zero mask too. -/

namespace Sys2Proof.Machine

/-! ## The lane operation of a form (R130, R141) -/

/-- `op` on lane `j` of the operands, in the order of the mnemonic (R130). -/
def Form.laneOp (f : Form) (op : Lane → Lane → Lane → LaneOut) (s : State) (s3 : VReg) (j : Nat) : LaneOut :=
  let (x, y, z) := Mnem.arrange f.mnem (laneOf (s.readV f.dest) j) (laneOf (s.readV f.src2) j) (laneOf s3 j)
  op x y z

/-- Without embedded rounding a lane is computed under the controls of `MXCSR` (R141). -/
theorem Form.computeLane_of_not_sae {f : Form} (h : f.sae = false) (s : State) (s3 : VReg) :
    f.computeLane s s3 = f.laneOp (fnmaddMxcsr s) s s3 := by
  funext j
  rw [Form.computeLane_eq h, Form.laneOp]
  cases f.mnem <;> rfl

theorem Form.sae_of_regRound {f : Form} {r : BitVec 5} {rc : RoundMode} (h : f.src3 = .regRound r rc) :
    f.sae = true := by
  rw [Form.sae, h]

/-- With embedded rounding a lane is computed under `EVEX.RC` with all exceptions masked (R141, R155). -/
theorem Form.computeLane_of_regRound {f : Form} {r : BitVec 5} {rc : RoundMode} (h : f.src3 = .regRound r rc)
    (s : State) (s3 : VReg) : f.computeLane s s3 = f.laneOp (fnmaddSae s rc) s s3 := by
  have hmode : f.roundMode s = rc := by rw [Form.roundMode, h]
  have hmasks : f.masks s = .all := by rw [Form.masks, Form.sae_of_regRound h, if_pos rfl]
  funext j
  rw [Form.computeLane, hmode, hmasks]
  rfl

/-! ## States that let an EVEX form execute (R166, R167) -/

theorem Form.enabled_of_evexReady {f : Form} {s : State} (hev : f.evex = true) (h : s.evexReady f.vl = true) :
    f.enabled s = true ∧ s.ts = false := by
  unfold State.evexReady at h
  unfold Form.enabled Form.featuresOk
  rw [if_pos hev, hev]
  cases hvl : f.vl <;> simp_all

section evex
variable {i : Instr} {s : State} {s3 : VReg}

/-- An EVEX form that reads its operands is enabled in such a state (R166, R167). -/
theorem enabled_of_evexReady (hev : (formOf i).evex = true) (hready : s.evexReady (formOf i).vl = true)
    (ho : OperandsRead i s s3) : Enabled i s := by
  obtain ⟨hw, hname, -⟩ := ho
  obtain ⟨hen, hts⟩ := Form.enabled_of_evexReady hev hready
  refine ⟨hw, fun hn => ?_, hts, hname⟩
  rw [(enabled_eq_false_iff i s).2 hn] at hen
  cases hen

/-- Without embedded rounding an EVEX form completes with the lanes of its mnemonic under the write mask, unless a flag
of an active lane is unmasked (R143, R144). -/
theorem evex_completes (hev : (formOf i).evex = true) (hsae : (formOf i).sae = false)
    (hready : s.evexReady (formOf i).vl = true) (ho : OperandsRead i s s3) :
    CompletesUnlessUnmasked (exec i s) s (formOf i).dest (lanesOf (formOf i).vl) (formOf i).bytes
      (activeUnder s (formOf i).mask) (formOf i).zeroing ((formOf i).laneOp (fnmaddMxcsr s) s s3) := by
  rw [formOf_bytes, ← Form.computeLane_of_not_sae hsae]
  exact completes_unless_unmasked (enabled_of_evexReady hev hready ho) ho hsae

/-- With embedded rounding an EVEX form completes whatever `MXCSR` masks, without a flag (R155). -/
theorem evex_completes_of_regRound {r : BitVec 5} {rc : RoundMode} (hev : (formOf i).evex = true)
    (hsrc : (formOf i).src3 = .regRound r rc) (hready : s.evexReady (formOf i).vl = true) (ho : OperandsRead i s s3) :
    ∃ t, exec i s = .next t ∧ Completed s t (formOf i).dest (lanesOf (formOf i).vl) (formOf i).bytes
      (activeUnder s (formOf i).mask) (formOf i).zeroing ((formOf i).laneOp (fnmaddSae s rc) s s3) .none := by
  rw [formOf_bytes, ← Form.computeLane_of_regRound hsrc]
  exact completes_under_sae (enabled_of_evexReady hev hready ho) ho (Form.sae_of_regRound hsrc)

end evex

/-! ## Which rows have embedded rounding (R69) -/

/-- An EVEX.128 or EVEX.256 form has no embedded rounding. -/
theorem evexForm_sae (m : Mnem) (vl : VecLen) (o : EvexOps EvexSrc) : (evexForm m vl o).sae = false := by
  rw [Form.sae, evexForm]
  cases o.src3 <;> rfl

/-- An EVEX.512 form has it in one register form only. -/
theorem evexForm512_sae (m : Mnem) {o : EvexOps EvexSrc512} (h : ∀ r rc, o.src3 ≠ .regRound r rc) :
    (evexForm512 m o).sae = false := by
  rw [Form.sae, evexForm512]
  cases hsrc : o.src3 with
  | reg r => rfl
  | regRound r rc => exact absurd hsrc (h r rc)
  | mem a bcst => rfl

theorem evexForm512_src3 (m : Mnem) {o : EvexOps EvexSrc512} {r : BitVec 5} {rc : RoundMode}
    (h : o.src3 = .regRound r rc) : (evexForm512 m o).src3 = .regRound r rc := by
  rw [evexForm512, h]
  rfl

/-! ## No active lane (R154) -/

theorem Flags.unionAll_eq_none {fs : List Flags} (h : ∀ f ∈ fs, f = .none) : Flags.unionAll fs = .none := by
  induction fs with
  | nil => rfl
  | cons f fs ih =>
    obtain ⟨rfl, hfs⟩ := List.forall_mem_cons.1 h
    rw [Flags.unionAll, ih hfs, Flags.union_none]

theorem activeFlags_of_inactive {n : Nat} {active : Nat → Bool} (out : Nat → LaneOut)
    (h : ∀ j, j < n → active j = false) : activeFlags n active out = .none := by
  refine Flags.unionAll_eq_none (List.forall_mem_map.2 fun j hj => ?_)
  rw [h j (List.mem_range.1 hj)]
  rfl

/-- An enabled instruction without an active lane completes without a flag, under embedded rounding or not
(R154, R155). -/
theorem completes_of_inactive {i : Instr} {s : State} {s3 : VReg} (he : Enabled i s) (ho : OperandsRead i s s3)
    (hoff : ∀ j, j < lanesOf (formOf i).vl → (formOf i).active s j = false) :
    ∃ t, exec i s = .next t ∧ Completed s t (formOf i).dest (lanesOf (formOf i).vl) i.len ((formOf i).active s)
      (formOf i).zeroing ((formOf i).computeLane s s3) .none := by
  cases hsae : (formOf i).sae with
  | true => exact completes_under_sae he ho hsae
  | false =>
    have h := completes_unless_unmasked he ho hsae
    rw [CompletesUnlessUnmasked, activeFlags_of_inactive _ hoff] at h
    exact h (Flags.unmasked_none _)

/-- A lane whose mask bit is 0 is inactive under a write mask (R143). -/
theorem Form.active_eq_false {f : Form} {s : State} {j : Nat} (hmask : f.mask ≠ 0#3)
    (hbit : (s.readK f.mask).getLsbD j = false) : f.active s j = false := by
  rw [Form.active, hbit, Bool.or_false]
  exact beq_false_of_ne hmask

/-! ## The statements -/

/-- Settles O23: each row is the EVEX form of its mnemonic with two lanes and no embedded rounding. -/
theorem evex128FormsComplete : Obligations.Evex128FormsComplete := fun o _ _ hready =>
  ⟨evex_completes (i := .vfnmadd132pdEvex128 o) rfl (evexForm_sae _ _ o) hready,
    evex_completes (i := .vfnmadd213pdEvex128 o) rfl (evexForm_sae _ _ o) hready,
    evex_completes (i := .vfnmadd231pdEvex128 o) rfl (evexForm_sae _ _ o) hready⟩

/-- Settles O24: each row is the EVEX form of its mnemonic with four lanes and no embedded rounding. -/
theorem evex256FormsComplete : Obligations.Evex256FormsComplete := fun o _ _ hready =>
  ⟨evex_completes (i := .vfnmadd132pdEvex256 o) rfl (evexForm_sae _ _ o) hready,
    evex_completes (i := .vfnmadd213pdEvex256 o) rfl (evexForm_sae _ _ o) hready,
    evex_completes (i := .vfnmadd231pdEvex256 o) rfl (evexForm_sae _ _ o) hready⟩

/-- Settles O25: each row is the EVEX form of its mnemonic with eight lanes; the hypothesis leaves out embedded
rounding. -/
theorem evex512FormsComplete : Obligations.Evex512FormsComplete := fun o _ _ hready hsrc =>
  ⟨evex_completes (i := .vfnmadd132pdEvex512 o) rfl (evexForm512_sae _ hsrc) hready,
    evex_completes (i := .vfnmadd213pdEvex512 o) rfl (evexForm512_sae _ hsrc) hready,
    evex_completes (i := .vfnmadd231pdEvex512 o) rfl (evexForm512_sae _ hsrc) hready⟩

/-- Settles O26: each row is the EVEX.512 form of its mnemonic with embedded rounding. -/
theorem embeddedRoundingSuppresses : Obligations.EmbeddedRoundingSuppresses := fun o _ _ _ hready hsrc =>
  ⟨evex_completes_of_regRound (i := .vfnmadd132pdEvex512 o) rfl (evexForm512_src3 _ hsrc) hready,
    evex_completes_of_regRound (i := .vfnmadd213pdEvex512 o) rfl (evexForm512_src3 _ hsrc) hready,
    evex_completes_of_regRound (i := .vfnmadd231pdEvex512 o) rfl (evexForm512_src3 _ hsrc) hready⟩

/-- Settles O27: no lane is active, so each lane of the form keeps its value or is zeroed, and those above are 0. -/
theorem allZeroMaskCompletes : Obligations.AllZeroMaskCompletes := by
  intro i s s3 _ he ho hmask hbits
  have hoff (j : Nat) (hj : j < lanesOf (formOf i).vl) : (formOf i).active s j = false :=
    Form.active_eq_false hmask (hbits j hj)
  obtain ⟨t, hnext, hc⟩ := completes_of_inactive he ho hoff
  have hlane (j : Nat) (hj : j < lanesOf (formOf i).vl) := hc.inactiveLanes j hj (hoff j hj)
  refine ⟨t, hnext, ?_, hc.pc, hc.frame, fun j hj hz => ?_, hc.upperLanes, fun hz => eq_of_lanes fun j hj => ?_⟩
  · rw [hc.mxcsr, Flags.bits_none, BitVec.or_zero]
  · rw [hlane j hj, hz]
    rfl
  · by_cases hlow : j < lanesOf (formOf i).vl
    · rw [hlane j hlow, hz, if_pos rfl, laneOf, BitVec.extractLsb'_zero]
    · rw [hc.upperLanes j (Nat.not_lt.1 hlow) hj, laneOf, BitVec.extractLsb'_zero]

end Sys2Proof.Machine
end

section
/-! The faults of an execution (60_exceptions.md R162, R163, R166, R167, R172 to R175): what an exception comes from, and
the state it leaves. -/

namespace Sys2Proof.Machine

/-! ## What an exception comes from -/

/-- The SIMD floating-point exception, by `CR4.OSXMMEXCPT` (R163). -/
theorem simdException_cases (s : State) :
    (simdException s = .xm ∧ s.cr4.getLsbD 10 = true) ∨ (simdException s = .ud ∧ s.cr4.getLsbD 10 = false) := by
  unfold simdException State.osxmmexcpt
  cases s.cr4.getLsbD 10 with
  | true => exact .inl ⟨rfl, rfl⟩
  | false => exact .inr ⟨rfl, rfl⟩

/-- Operand 3 raises none of the exceptions without an error code (R168 to R172). -/
theorem Form.thirdSource_kind {f : Form} {s : State} {e : Exception} (h : f.thirdSource s = .error e) :
    e ≠ .ud ∧ e ≠ .nm ∧ e ≠ .xm := by
  obtain ⟨_, _, _, hf⟩ := Form.thirdSource_error h
  exact State.memFault_kind hf

/-- A form that has all its operands faults only with the SIMD exception, and sets flags of which one is unmasked
(R162). -/
theorem Form.finish_fault {f : Form} {s a : State} {ls : List LaneOut} {e : Exception}
    (h : f.finish s ls = .fault (.raised e a)) :
    e = simdException s ∧ ∃ F : Flags, F.unmasked (mxcsrMasks s.mxcsr) = true ∧ a = s.orMxcsr F.bits := by
  rcases f.finish_cases s ls with ⟨_, hf⟩ | ⟨_, hpre, hf⟩ | ⟨_, _, hpost, hf⟩ | ⟨_, _, hf⟩ <;> rw [hf] at h
  · cases h
  · cases h
    exact ⟨rfl, _, hpre, rfl⟩
  · cases h
    exact ⟨rfl, _, by rw [Flags.unmasked_eq, hpost, Bool.or_true], rfl⟩
  · cases h

/-- An instruction faults before its operands or on operand 3, in the state as it is, or with the SIMD exception, having
set flags of which one is unmasked (R162, R173, R174). -/
theorem exec_fault_cases {i : Instr} {s a : State} {e : Exception} (h : exec i s = .fault (.raised e a)) :
    (a = s ∧ (formOf i).entryFault s = some e) ∨ (a = s ∧ (formOf i).thirdSource s = .error e) ∨
    (e = simdException s ∧ ∃ F : Flags, F.unmasked (mxcsrMasks s.mxcsr) = true ∧ a = s.orMxcsr F.bits) := by
  rw [exec_eq_run] at h
  rcases (formOf i).run_cases s with
    ⟨_, he, hr⟩ | ⟨_, _, hr⟩ | ⟨_, _, _, hr⟩ | ⟨_, _, _, he, hr⟩ | ⟨_, _, _, _, hr⟩ <;> rw [hr] at h
  · cases h
    exact .inl ⟨rfl, he⟩
  · cases h
  · cases h
  · cases h
    exact .inr (.inl ⟨rfl, he⟩)
  · exact .inr (.inr (Form.finish_fault h))

/-- An instruction that an entry check stops raises its exception (R173 items 3 to 6). -/
theorem exec_of_entryFault {i : Instr} {s : State} {e : Exception} (h : (formOf i).entryFault s = some e) :
    exec i s = raise e s := by
  rw [exec_eq_run, Form.run, h]

/-- The entry checks answer `#NM` exactly for an enabled instruction while `CR0.TS` = 1 (R167). -/
theorem entryFault_eq_nm_iff {i : Instr} (hw : i.wellFormed = true) (s : State) :
    (formOf i).entryFault s = some .nm ↔ ¬NotEnabled i s ∧ s.cr0.getLsbD 3 = true := by
  by_cases hn : NotEnabled i s
  · simp [entryFault_eq_some_ud hw hn, hn]
  · rw [entryFault_of_enabled hw hn]
    cases hts : s.ts <;> simp [hn, ← hts, State.ts]

/-! ## A step that faults (R174, R175) -/

/-- A step that faults leaves the state but for flags of `MXCSR`, and those only with the SIMD exception. -/
theorem step_fault {s a : State} {e : Exception} (h : step s = .fault (.raised e a)) :
    a = s ∨ (e = simdException s ∧ ∃ F : Flags, a = s.orMxcsr F.bits) := by
  unfold step at h
  split at h
  · cases h
  · cases hv : decode s.fetch <;> rw [hv] at h
    case form i rest =>
      rcases exec_fault_cases h with ⟨ha, _⟩ | ⟨ha, _⟩ | ⟨he, F, _, ha⟩
      · exact .inl ha
      · exact .inl ha
      · exact .inr ⟨he, F, ha⟩
    case ud => cases h; exact .inl rfl
    case gp => cases h; exact .inl rfl
    case notThisGroup => cases h

/-- Settles O20: the flags of the SIMD exception stand on the five flag bits, and OR clears nothing. -/
theorem faultsArePrecise : Obligations.FaultsArePrecise := by
  intro s e a h
  rcases step_fault h with rfl | ⟨rfl, F, rfl⟩
  · exact ⟨rfl, rfl, BitVec.and_self, fun hne => absurd rfl hne⟩
  · exact ⟨rfl, or_bits_control _ F, or_bits_sticky _ _, fun _ => simdException_cases s⟩

/-! ## `#UD` and `#NM` (R166, R167) -/

/-- Settles O38: the entry checks answer `#UD` only by the enables, and of the later faults only the SIMD exception
can be `#UD`. -/
theorem undefinedOpcodeConditions : Obligations.UndefinedOpcodeConditions := by
  refine fun i s hw => ⟨exec_of_notEnabled hw, fun hn t h => ?_⟩
  rcases exec_fault_cases h with ⟨_, hentry⟩ | ⟨_, hthird⟩ | ⟨hsimd, F, hF, rfl⟩
  · rw [entryFault_of_enabled hw hn] at hentry
    split at hentry <;> cases hentry
  · obtain ⟨hud, _⟩ := Form.thirdSource_kind hthird
    exact absurd rfl hud
  · rcases simdException_cases s with ⟨hxm, _⟩ | ⟨_, hosx⟩
    · rw [hxm] at hsimd
      cases hsimd
    · exact ⟨hosx, F, hF, rfl⟩

/-- Settles O39: only the entry checks answer `#NM`. -/
theorem deviceNotAvailable : Obligations.DeviceNotAvailable := by
  refine ⟨rfl, rfl, fun i s hw => ?_⟩
  rw [← entryFault_eq_nm_iff hw]
  refine ⟨exec_of_entryFault, fun h => ?_⟩
  rcases exec_fault_cases h with ⟨_, hentry⟩ | ⟨_, hthird⟩ | ⟨hsimd, _⟩
  · exact hentry
  · obtain ⟨_, hnm, _⟩ := Form.thirdSource_kind hthird
    exact absurd rfl hnm
  · rcases simdException_cases s with ⟨hs, _⟩ | ⟨hs, _⟩ <;> rw [hs] at hsimd <;> cases hsimd

/-! ## The unmasked response (R162, R163) -/

/-- An enabled instruction that reads its operands finishes with its lanes (R131, R144). -/
theorem exec_eq_finish {i : Instr} {s : State} {s3 : VReg} (he : Enabled i s) (ho : OperandsRead i s s3) :
    exec i s = (formOf i).finish s ((formOf i).lanes s s3) := by
  obtain ⟨_, _, hread⟩ := ho
  rcases run_of_enabled he with ⟨e, herr, _⟩ | ⟨s3', hok, hrun⟩
  · rw [hread] at herr
    cases herr
  · rw [hread] at hok
    cases hok
    exact hrun

section unmasked
variable {f : Form} {s : State} {ls : List LaneOut} (hsae : f.sae = false)
include hsae

/-- The first stage: an unmasked operand flag. -/
theorem Form.finish_of_pre (hpre : (laneFlags ls).pre.unmasked (mxcsrMasks s.mxcsr) = true) :
    f.finish s ls = raise (simdException s) (s.orMxcsr (laneFlags ls).pre.bits) := by
  simp only [Form.finish, hsae, hpre, Bool.false_eq_true, if_false, if_true]

/-- The second stage: an unmasked result flag, where no operand flag is unmasked. -/
theorem Form.finish_of_post (hpre : (laneFlags ls).pre.unmasked (mxcsrMasks s.mxcsr) = false)
    (hpost : (laneFlags ls).post.unmasked (mxcsrMasks s.mxcsr) = true) :
    f.finish s ls = raise (simdException s) (s.orMxcsr (laneFlags ls).bits) := by
  simp only [Form.finish, hsae, hpre, hpost, Bool.false_eq_true, if_false, if_true]

end unmasked

/-- Settles O40: the flags of the lanes are those of the active ones, and each stage is a branch of `Form.finish`. -/
theorem unmaskedResponse : Obligations.UnmaskedResponse := by
  refine ⟨rfl, rfl, fun i s s3 he ho => ⟨fun hsae => ?_, fun hsae => ?_⟩⟩
  · obtain ⟨t, hnext, _⟩ := completes_under_sae he ho hsae
    exact ⟨t, hnext⟩
  · rw [exec_eq_finish he ho, ← Form.laneFlags_eq]
    exact ⟨Form.finish_of_pre hsae, Form.finish_of_post hsae⟩

end Sys2Proof.Machine
end

section
/-! The segment check of a memory operand in a 32-bit mode (60_exceptions.md R168, R169). -/

namespace Sys2Proof.Machine

/-- In a 32-bit mode a byte passes the check of its segment when the segment is SS or readable, and the offset of the
byte is within the limit (log entry 21). -/
theorem State.segmentOk_iff_of_is32 {s : State} (h32 : s.is32 = true) (seg : SegReg) (ea : Word) (j : Nat) :
    s.segmentOk seg ea j = true ↔ (seg = .ss ∨ (s.segs.get seg).readable = true) ∧
      (ea.toNat + j) % 2 ^ 32 ≤ (s.segs.get seg).limit.toNat := by
  have hoffset : (s.wrap (ea + BitVec.ofNat 64 j)).toNat = (ea.toNat + j) % 2 ^ 32 := by
    rw [State.toNat_wrap_of_is32 h32, BitVec.toNat_add, BitVec.toNat_ofNat]
    omega
  rw [State.segmentOk, if_pos h32, hoffset, Bool.and_eq_true, Bool.or_eq_true, beq_iff_eq, decide_eq_true_eq]

/-- Settles O32: a byte beyond the limit, or in an unreadable segment, fails the segment check, which comes first. -/
theorem segmentLimitFaults : Obligations.SegmentLimitFaults := by
  intro i s a b j h32 he hsrc hj hacc seg offset
  have raises (hbad : ¬s.segmentOk seg ((formOf i).effAddr s a b) j = true) : exec i s = raise (segmentFault seg) s :=
    exec_of_operandFault hsrc he
      (State.memFault_of_segment hj (((formOf i).need_iff_accesses s b j).2 hacc) (Bool.eq_false_iff.2 hbad))
  rw [State.segmentOk_iff_of_is32 h32] at raises
  refine ⟨fun hlimit => raises fun ⟨_, hin⟩ => ?_, fun hss hread => ?_⟩
  · exact absurd hin (Nat.not_le.2 hlimit)
  · have hgp : segmentFault seg = .gp := if_neg hss
    rw [← hgp]
    exact raises fun ⟨hok, _⟩ => by simp [hss, hread] at hok

end Sys2Proof.Machine
end

section
/-! What a form reads of the privilege level (60_exceptions.md R170, R171, R179): where no alignment check can apply and
`cfg.Mem` permits the same reads at both levels, only the U/S bit of a `#PF` code. -/

namespace Sys2Proof.Machine

/-! ## States, exceptions and outcomes at another level -/

/-- The state at privilege level `cpl`. -/
def State.atLevel (cpl : BitVec 2) (s : State) : State := { s with cpl := cpl }

/-- The exception as it is reported at privilege level `cpl`: the U/S bit of a `#PF` code is that of the level (R170). -/
def Exception.atLevel (cpl : BitVec 2) : Exception → Exception
  | .pf code a => .pf ((code &&& ~~~4#32) ||| if cpl = 3#2 then 4#32 else 0#32) a
  | .ud => .ud
  | .nm => .nm
  | .ss => .ss
  | .gp => .gp
  | .ac => .ac
  | .xm => .xm

/-- The outcome at privilege level `cpl`. -/
def outAtLevel (cpl : BitVec 2) : Out → Out
  | .next t => .next (t.atLevel cpl)
  | .fault (.raised e t) => .fault (.raised (e.atLevel cpl) (t.atLevel cpl))
  | .refused r => .refused r

/-- Only a `#PF` is reported otherwise. -/
theorem Exception.atLevel_of_ne_pf (cpl : BitVec 2) {e : Exception} (h : ∀ code a, e ≠ .pf code a) :
    e.atLevel cpl = e := by
  cases e with
  | pf code a => exact absurd rfl (h code a)
  | _ => rfl

theorem outAtLevel_of_not_pf (cpl : BitVec 2) {o : Out} (h : ∀ code a t, o ≠ .fault (.raised (.pf code a) t)) :
    outAtLevel cpl o = mapOut (State.atLevel cpl) o := by
  match o with
  | .next t => rfl
  | .refused r => rfl
  | .fault (.raised e t) =>
    have he : e.atLevel cpl = e := Exception.atLevel_of_ne_pf cpl fun code a hpf => h code a t (hpf ▸ rfl)
    rw [outAtLevel, he]
    rfl

/-- The reported code differs from the other level's in the U/S bit alone. -/
theorem usBit_only (code : BitVec 32) (user : Prop) [Decidable user] :
    ((code &&& ~~~4#32) ||| if user then 4#32 else 0#32) &&& ~~~4#32 = code &&& ~~~4#32 := by
  have hus : (if user then 4#32 else 0#32) &&& ~~~4#32 = 0#32 := by split <;> rfl
  apply BitVec.eq_of_getLsbD_eq
  intro i _
  have hbit := congrArg (BitVec.getLsbD · i) hus
  simp only [BitVec.getLsbD_and, BitVec.getLsbD_or, BitVec.getLsbD_zero] at hbit ⊢
  rw [Bool.and_or_distrib_right, hbit, Bool.or_false, Bool.and_assoc, Bool.and_self]

/-- A form with all its operands finishes the same at every level: it raises no `#PF` (R144, R162). -/
theorem Form.finish_atLevel (f : Form) (s : State) (cpl : BitVec 2) (s3 : VReg) :
    f.finish (s.atLevel cpl) (f.lanes (s.atLevel cpl) s3) = outAtLevel cpl (f.finish s (f.lanes s s3)) := by
  have hlanes : f.lanes (s.atLevel cpl) s3 = f.lanes s s3 :=
    Form.lanes_congr (fun _ _ => rfl) (fun _ _ _ => rfl) (fun _ _ => rfl) rfl rfl rfl rfl rfl
  rw [hlanes, outAtLevel_of_not_pf]
  · exact Form.finish_map (State.atLevel cpl) rfl rfl (fun _ => rfl) (fun _ _ => rfl) _
  · intro code a t h
    obtain ⟨hsimd, _⟩ := Form.finish_fault h
    rcases simdException_cases s with ⟨hs, _⟩ | ⟨hs, _⟩ <;> rw [hs] at hsimd <;> cases hsimd

/-! ## The checks of an operand at another level -/

/-- A report that is changed at every address alike is found at the same one (R170). -/
theorem lowestFault_map (g : Exception → Exception) (f : Word → Option Exception) (l : List Word) :
    lowestFault (fun a => (f a).map g) l = (lowestFault f l).map fun p => (p.1, g p.2) := by
  induction l with
  | nil => rfl
  | cons a l ih =>
    cases hf : f a with
    | none => simp only [lowestFault, hf, Option.map_none, ih]
    | some e =>
      cases hl : lowestFault f l with
      | none => simp only [lowestFault, hf, hl, ih, Option.map_some, Option.map_none]
      | some p =>
        simp only [lowestFault, hf, hl, ih, Option.map_some]
        split <;> rfl

/-- The error code at another level (R170). -/
theorem State.pfCode_atLevel (s : State) (cpl : BitVec 2) (present reserved : Bool) (a : Word) :
    Exception.pf ((s.atLevel cpl).pfCode present reserved) a =
      (Exception.pf (s.pfCode present reserved) a).atLevel cpl := by
  have hcode : (s.atLevel cpl).pfCode present reserved =
      (s.pfCode present reserved &&& ~~~4#32) ||| if cpl = 3#2 then 4#32 else 0#32 := by
    show (_ ||| (if cpl = 3#2 then 4#32 else 0#32)) ||| _ = _
    unfold State.pfCode
    generalize s.cpl = level
    revert cpl level present reserved
    decide
  rw [hcode, Exception.atLevel]

section level
variable {s : State} {cpl : BitVec 2}
  (hlevels : ∀ r ∈ s.cfg.regions, r.levels.getLsbD cpl.toNat = r.levels.getLsbD s.cpl.toNat)
include hlevels

/-- `cfg.Mem` answers the same at two levels that it permits the same reads (R52). -/
theorem State.denialAt_atLevel (n : Nat) (a : Word) : (s.atLevel cpl).denialAt n a = s.denialAt n a := by
  have hfind : s.cfg.regions.find? (fun r => Region.denies r cpl n a.toNat) =
      s.cfg.regions.find? fun r => Region.denies r s.cpl n a.toNat :=
    List.find?_congr fun r hr => by rw [Region.denies, Region.denies, hlevels r hr]
  exact congrArg (Option.map Region.denial) hfind

theorem State.platformFault_atLevel (n : Nat) :
    (s.atLevel cpl).platformFault n = fun a => (s.platformFault n a).map (Exception.atLevel cpl) := by
  funext a
  simp only [State.platformFault, State.denialAt_atLevel hlevels]
  split <;> rfl

theorem State.pageFault_atLevel (n : Nat) :
    (s.atLevel cpl).pageFault n = fun a => (s.pageFault n a).map (Exception.atLevel cpl) := by
  funext a
  have hunmapped : (s.atLevel cpl).unmappedFault a = (s.unmappedFault a).map (Exception.atLevel cpl) := by
    have hmem : (s.atLevel cpl).mem = s.mem := rfl
    rw [State.unmappedFault, State.unmappedFault, State.pfCode_atLevel, hmem]
    cases Memory.read s.mem a.toNat <;> rfl
  simp only [State.pageFault, State.denialAt_atLevel hlevels, hunmapped, State.pfCode_atLevel]
  split <;> rfl

/-- Where no alignment check can apply, the checks of an operand answer the same at both levels, but for the U/S bit of
a `#PF` code (R170, R171). -/
theorem State.memFault_atLevel (hac : s.cfg.alignmentCheck = false) (seg : SegReg) (ea : Word) (n : Nat)
    (need : Nat → Bool) :
    (s.atLevel cpl).memFault seg ea n need = (s.memFault seg ea n need).map (Exception.atLevel cpl) := by
  have hok : (s.atLevel cpl).segmentOk seg ea = s.segmentOk seg ea := rfl
  have haddr : (s.atLevel cpl).linAddr seg ea = s.linAddr seg ea := rfl
  have hmis : s.misaligned seg ea n = false := by simp only [State.misaligned, hac, Bool.false_and]
  have hmis' : (s.atLevel cpl).misaligned seg ea n = false := by
    simp only [State.misaligned, State.atLevel, hac, Bool.false_and]
  have hsegment : (segmentFault seg).atLevel cpl = segmentFault seg := by
    unfold segmentFault
    split <;> rfl
  simp only [State.memFault, hok, haddr, hmis, hmis', State.platformFault_atLevel hlevels,
    State.pageFault_atLevel hlevels, lowestFault_map]
  split
  · exact congrArg some hsegment.symm
  cases lowestFault (s.platformFault n) (((List.range n).filter need).map (s.linAddr seg ea)) with
  | some p => rfl
  | none => cases lowestFault (s.pageFault n) (((List.range n).filter need).map (s.linAddr seg ea)) <;> rfl

theorem State.memRead_atLevel (hac : s.cfg.alignmentCheck = false) (seg : SegReg) (ea : Word) (n : Nat)
    (need : Nat → Bool) :
    (s.atLevel cpl).memRead seg ea n need = (s.memRead seg ea n need).mapError (Exception.atLevel cpl) := by
  rw [State.memRead, State.memRead, State.memFault_atLevel hlevels hac]
  cases s.memFault seg ea n need <;> rfl

/-! ## A form at another level -/

theorem Form.thirdSource_atLevel (hac : s.cfg.alignmentCheck = false) (f : Form) :
    f.thirdSource (s.atLevel cpl) = (f.thirdSource s).mapError (Exception.atLevel cpl) := by
  have hseg : operandSeg (s.atLevel cpl) = operandSeg s := rfl
  have haddr : f.effAddr (s.atLevel cpl) = f.effAddr s := rfl
  have hbyte : f.needsByte (s.atLevel cpl) = f.needsByte s := rfl
  have helement : f.needsElement (s.atLevel cpl) = f.needsElement s := rfl
  have hread := State.memRead_atLevel hlevels hac
  cases hsrc : f.src3 with
  | reg r => simp only [Form.thirdSource, hsrc]; rfl
  | regRound r rc => simp only [Form.thirdSource, hsrc]; rfl
  | mem a bcst =>
    cases bcst with
    | false => simp only [Form.thirdSource, hsrc, hseg, haddr, hbyte, hread]
    | true =>
      simp only [Form.thirdSource, hsrc, hseg, haddr, helement, hread]
      cases s.memRead (operandSeg s f.pfx a) (f.effAddr s a true) 8 (fun _ => f.needsElement s) <;> rfl

/-- An instruction does the same at both levels, but for the U/S bit of a `#PF` code (R179). -/
theorem exec_atLevel (hac : s.cfg.alignmentCheck = false) (i : Instr) :
    exec i (s.atLevel cpl) = outAtLevel cpl (exec i s) := by
  have hentry : (formOf i).entryFault (s.atLevel cpl) = (formOf i).entryFault s := rfl
  have hnamed : (formOf i).named (s.atLevel cpl) = (formOf i).named s := rfl
  have haddr16 : (formOf i).addr16 (s.atLevel cpl) = (formOf i).addr16 s := rfl
  rw [exec_eq_run, exec_eq_run, Form.run, Form.run, hentry, hnamed, haddr16, Form.thirdSource_atLevel hlevels hac]
  cases he : (formOf i).entryFault s with
  | some e => rcases Form.entryFault_cases he with rfl | rfl | rfl <;> rfl
  | none =>
    simp only
    split_ifs
    · rfl
    · rfl
    · cases (formOf i).thirdSource s with
      | error e => rfl
      | ok s3 => exact Form.finish_atLevel _ s cpl s3

end level

/-- Settles O46: the outcome at the other level is `outAtLevel` of the outcome, which is the outcome with the other
`CPL` but for the U/S bit of a `#PF` code. -/
theorem privilegeIndependent : Obligations.PrivilegeIndependent := by
  intro i s cpl hac hlevels
  have hexec : exec i { s with cpl := cpl } = outAtLevel cpl (exec i s) := exec_atLevel hlevels hac i
  refine ⟨fun hpf => ?_, fun code addr t h => ⟨_, ?_, usBit_only code (cpl = 3#2)⟩⟩
  · rw [hexec, outAtLevel_of_not_pf cpl hpf]
    rfl
  · rw [hexec, h]
    rfl

end Sys2Proof.Machine
end

section
/-! The flags that `MXCSR` holds beforehand (70_reset_and_hazards.md R194): every read of `MXCSR` is of a control bit, above
the flags, and setting flags commutes with every update. -/

namespace Sys2Proof.Machine

/-! ## Setting flags before an update (R161) -/

theorem State.orMxcsr_right_comm (s : State) (b c : BitVec 32) : (s.orMxcsr b).orMxcsr c = (s.orMxcsr c).orMxcsr b := by
  simp only [State.orMxcsr, BitVec.or_assoc, BitVec.or_comm b c]

theorem Form.complete_orMxcsr (f : Form) (s : State) (b : BitVec 32) (vals : List Lane) (fl : Flags) :
    f.complete (s.orMxcsr b) vals fl = (f.complete s vals fl).orMxcsr b := by
  rw [Form.complete, State.orMxcsr_right_comm]
  rfl

section flags
variable {x : BitVec 32} (hx : x &&& ~~~0x3F#32 = 0#32)
include hx

/-! ## The reads of `MXCSR` (R25, R26) -/

/-- The bits above the flags 5:0 stay as they are. -/
theorem getLsbD_or_flags (m : BitVec 32) {i : Nat} (hi : 6 ≤ i) : (m ||| x).getLsbD i = m.getLsbD i := by
  have hflag : (0x3F#32).getLsbD i = false :=
    Nat.testBit_lt_two_pow (Nat.lt_of_lt_of_le (by decide) (Nat.pow_le_pow_right (by decide) hi))
  have hbit : x.getLsbD i = false := by
    by_cases h32 : i < 32
    · have hand := congrArg (BitVec.getLsbD · i) hx
      simpa only [BitVec.getLsbD_and, BitVec.getLsbD_not, hflag, h32, decide_true, Bool.not_false, Bool.and_true,
        BitVec.getLsbD_zero] using hand
    · exact BitVec.getLsbD_of_ge x i (Nat.not_lt.1 h32)
  rw [BitVec.getLsbD_or, hbit, Bool.or_false]

theorem mxcsrMasks_or_flags (m : BitVec 32) : mxcsrMasks (m ||| x) = mxcsrMasks m := by
  simp (disch := decide) only [mxcsrMasks, getLsbD_or_flags hx]

theorem mxcsrRC_or_flags (m : BitVec 32) : mxcsrRC (m ||| x) = mxcsrRC m := by
  have hfield : (m ||| x).extractLsb' 13 2 = m.extractLsb' 13 2 := by
    apply BitVec.eq_of_getLsbD_eq
    intro i _
    rw [BitVec.getLsbD_extractLsb', BitVec.getLsbD_extractLsb', getLsbD_or_flags hx m (by omega)]
  rw [mxcsrRC, mxcsrRC, hfield]

/-! ## A form from a state with more flags -/

variable (f : Form) (s : State)

theorem Form.roundMode_orMxcsr : f.roundMode (s.orMxcsr x) = f.roundMode s := by
  unfold Form.roundMode
  rw [State.orMxcsr_mxcsr, mxcsrRC_or_flags hx]

theorem Form.masks_orMxcsr : f.masks (s.orMxcsr x) = f.masks s := by
  rw [Form.masks, Form.masks, State.orMxcsr_mxcsr, mxcsrMasks_or_flags hx]

theorem Form.lanes_orMxcsr (s3 : VReg) : f.lanes (s.orMxcsr x) s3 = f.lanes s s3 :=
  Form.lanes_congr (fun _ _ => rfl) (fun _ _ _ => rfl) (fun _ _ => rfl) rfl (Form.roundMode_orMxcsr hx f s)
    (getLsbD_or_flags hx s.mxcsr (by decide)) (getLsbD_or_flags hx s.mxcsr (by decide)) (Form.masks_orMxcsr hx f s)

/-- The same stage answers, and the flags set beforehand join its own (R161, R162). -/
theorem Form.finish_orMxcsr (ls : List LaneOut) :
    f.finish (s.orMxcsr x) ls = mapOut (State.orMxcsr · x) (f.finish s ls) := by
  have hsimd : simdException (s.orMxcsr x) = simdException s := rfl
  unfold Form.finish
  rw [State.orMxcsr_mxcsr, mxcsrMasks_or_flags hx, hsimd]
  split_ifs
  · rw [Form.complete_orMxcsr]; rfl
  · rw [State.orMxcsr_right_comm]; rfl
  · rw [State.orMxcsr_right_comm]; rfl
  · rw [Form.complete_orMxcsr]; rfl

theorem Form.run_orMxcsr : f.run (s.orMxcsr x) = mapOut (State.orMxcsr · x) (f.run s) := by
  refine Form.run_map (State.orMxcsr · x) rfl rfl rfl rfl fun s3 _ => ?_
  rw [Form.lanes_orMxcsr hx, Form.finish_orMxcsr hx]

end flags

/-- Settles O42: the checks and operand 3 read no `MXCSR`, the lanes and the finish read its control bits, and no
completion writes those. -/
theorem flagsNeverFeedBack : Obligations.FlagsNeverFeedBack := by
  refine fun i s x hx => ⟨?_, fun t h => ?_⟩
  · rw [exec_eq_run, exec_eq_run]
    exact Form.run_orMxcsr hx (formOf i) s
  · obtain ⟨hnext, _⟩ := executionFrame i s
    obtain ⟨hframe, _⟩ := hnext t h
    exact hframe.mxcsrControl

end Sys2Proof.Machine
end

section
/-! A clean entry (70_reset_and_hazards.md R191, R192): no entry check stops a form, and under the default `MXCSR` only a
memory operand can. -/

namespace Sys2Proof.Machine

/-! ## Faults after the entry checks -/

section entered
variable {i : Instr} {s t : State} {e : Exception} (he : (formOf i).entryFault s = none)
include he

/-- An instruction that passes the entry checks faults on operand 3 or with the SIMD exception (R173). -/
theorem fault_after_entry (h : exec i s = .fault (.raised e t)) : (formOf i).thirdSource s = .error e ∨
    (e = simdException s ∧ ∃ F : Flags, F.unmasked (mxcsrMasks s.mxcsr) = true) := by
  rcases exec_fault_cases h with ⟨_, hentry⟩ | ⟨_, hthird⟩ | ⟨hsimd, F, hF, _⟩
  · rw [he] at hentry
    cases hentry
  · exact .inl hthird
  · exact .inr ⟨hsimd, F, hF⟩

/-- It raises no `#NM` (R167). -/
theorem exec_ne_nm_after_entry : exec i s ≠ .fault (.raised .nm t) := by
  intro h
  rcases fault_after_entry he h with hthird | ⟨hsimd, _⟩
  · obtain ⟨_, hnm, _⟩ := Form.thirdSource_kind hthird
    exact hnm rfl
  · rcases simdException_cases s with ⟨hs, _⟩ | ⟨hs, _⟩ <;> rw [hs] at hsimd <;> cases hsimd

/-- With all exceptions masked it faults on operand 3 alone (R162). -/
theorem thirdSource_of_fault_of_masked (hm : mxcsrMasks s.mxcsr = .all) (h : exec i s = .fault (.raised e t)) :
    (formOf i).thirdSource s = .error e := by
  rcases fault_after_entry he h with hthird | ⟨_, F, hF⟩
  · exact hthird
  · rw [hm, Flags.unmasked_all] at hF
    cases hF

end entered

/-! ## All exceptions masked -/

theorem mxcsrMasks_of_defaultMXCSR {s : State} (h : s.defaultMXCSR = true) : mxcsrMasks s.mxcsr = .all := by
  rw [beq_iff_eq.1 h]
  rfl

/-- With all exceptions masked a form that has its operands completes (R162). -/
theorem Form.finish_of_masked {s : State} (hm : mxcsrMasks s.mxcsr = .all) (f : Form) (ls : List LaneOut) :
    ∃ t, f.finish s ls = .next t := by
  rcases f.finish_cases s ls with ⟨_, hf⟩ | ⟨_, hpre, _⟩ | ⟨_, _, hpost, _⟩ | ⟨_, _, hf⟩
  · exact ⟨_, hf⟩
  · rw [hm, Flags.unmasked_all] at hpre
    cases hpre
  · rw [hm, Flags.unmasked_all] at hpost
    cases hpost
  · exact ⟨_, hf⟩

/-- Operand 3 in a register is read without a check (R142). -/
theorem Form.thirdSource_of_register {f : Form} (s : State) (h : ∀ a b, f.src3 ≠ .mem a b) :
    ∃ s3, f.thirdSource s = .ok s3 := by
  unfold Form.thirdSource
  cases hsrc : f.src3 with
  | reg r => exact ⟨_, rfl⟩
  | regRound r rc => exact ⟨_, rfl⟩
  | mem a b => exact absurd hsrc (h a b)

/-! ## The entry checks -/

theorem State.cleanEntry_iff (s : State) : s.cleanEntry = true ↔ s.mode = .long64 ∧ s.osxsave = true ∧ s.xcrAvx = true ∧
    s.xcrZmm = true ∧ s.ts = false ∧ s.mxcsr.extractLsb' 16 16 = 0#16 := by
  simp [State.cleanEntry, and_assoc]

/-- Under `CleanEntry` with the feature flags every form is enabled (R166, R192). -/
theorem Form.enabled_of_cleanEntry {s : State} (h : s.cleanEntry = true) (hfma : s.cfg.fma = true)
    (h512 : s.cfg.avx512f = true) (hvl : s.cfg.avx512vl = true) (f : Form) : f.enabled s = true := by
  obtain ⟨hmode, hos, havx, hzmm, _⟩ := s.cleanEntry_iff.1 h
  have hlegacy : s.isLegacy = false := by rw [State.isLegacy, hmode]
  have hfeat : f.featuresOk s = true := by
    unfold Form.featuresOk
    cases f.evex with
    | false => exact hfma
    | true => cases f.vl <;> simp [h512, hvl]
  simp [Form.enabled, hlegacy, hos, havx, hzmm, hfeat]

/-- Settles O41: a clean entry passes the entry checks, operand 3 raises none of `#UD`, `#NM` and `#XM`, and the default
`MXCSR` masks every flag. -/
theorem cleanEntryExecutes : Obligations.CleanEntryExecutes := by
  intro i s hw hclean hcons hfma h512 hvl
  have hen : (formOf i).enabled s = true := Form.enabled_of_cleanEntry hclean hfma h512 hvl _
  have hn : ¬NotEnabled i s := by rw [← enabled_eq_false_iff, hen]; decide
  obtain ⟨hmode, _, _, _, hts, _⟩ := s.cleanEntry_iff.1 hclean
  have he : (formOf i).entryFault s = none := entryFault_eq_none hw hn hts
  refine ⟨hn, fun t => exec_ne_nm_after_entry he, fun hdef => ?_⟩
  have hm := mxcsrMasks_of_defaultMXCSR hdef
  refine ⟨fun t h => ?_, fun t h => ?_, fun hreg => ?_⟩
  · obtain ⟨_, _, hxm⟩ := Form.thirdSource_kind (thirdSource_of_fault_of_masked he hm h)
    exact hxm rfl
  · obtain ⟨hud, _⟩ := Form.thirdSource_kind (thirdSource_of_fault_of_masked he hm h)
    exact hud rfl
  · obtain ⟨s3, hread⟩ := Form.thirdSource_of_register s hreg
    have h32 : s.is32 = false := by rw [State.is32, hmode]
    have hname : (formOf i).nameable s = true := by
      rw [Form.nameable, named_of_enabled h32 hcons hen, Form.addr16_of_not32 _ h32]
      rfl
    rw [exec_eq_finish ⟨hw, hn, hts, hname⟩ ⟨hw, hname, hread⟩]
    exact Form.finish_of_masked hm _ _

end Sys2Proof.Machine
end
